-- ==== Sys2Proof/Word.lean ====
section
/-! DEFINITION. The word types of the block and the type of its bit strings
(`00_scope.md` R9, R16, R17; `30_encoding.md` R66). -/

namespace Sys2Proof

/-- One byte of a stream (R48, R51). -/
abbrev Byte := BitVec 8

/-- A 16-bit command word `CMD` (R66, R68). -/
abbrev CmdWord := BitVec 16

/-- A 64-bit value: the operand `ARG`, the result `RES`, a symbol, a carry register (R7, R9). -/
abbrev Word64 := BitVec 64

/-- A bit string in stream order: the head is the first bit written to, or read from, the stream (R16). -/
abbrev Bits := List Bool

end Sys2Proof
end

