-- ==== Sys2Proof/Machine/Bits.lean ====
section
/-! DEFINITION. Bit strings and numbers: the notation of `00_scope.md` R16 and R18, most significant bit first
(`20_memory.md` R54, R55). -/

namespace Sys2Proof.Machine

/-- `bin_L(x)`: the low `L` bits of `x`, most significant first (R16). -/
def bin : Nat → Nat → Bits
  | 0, _ => []
  | L + 1, x => x.testBit L :: bin L x

/-- `val(S)` with the bits read so far as `acc`. -/
def valFrom : Nat → Bits → Nat
  | acc, [] => acc
  | acc, b :: S => valFrom (2 * acc + b.toNat) S

/-- `val(S)`: the number whose `|S|`-bit binary form is `S` (R16). -/
def val (S : Bits) : Nat := valFrom 0 S

/-- `zeros(k)` (R16). -/
def zeros (k : Nat) : Bits := List.replicate k false

/-- `CountUsed(x)`: the number of bits in the binary representation of `x`, 0 only for `x = 0` (R18). -/
def countUsed (x : Nat) : Nat := if x = 0 then 0 else Nat.log2 x + 1

/-- The byte sent for an 8-bit string (R54). -/
def byteOf (S : Bits) : Byte := BitVec.ofNat 8 (val S)

/-- The bit string of a pulled byte: bit 7 first (R54). -/
def bitsOfByte (b : Byte) : Bits := bin 8 b.toNat

/-- The bit string of a sequence of bytes, in stream order (R54). -/
def bitsOfBytes (bs : List Byte) : Bits := bs.flatMap bitsOfByte

/-- The first `k` bytes of a bit string (the flush loop of R87). -/
def flushBytes : Nat → Bits → List Byte
  | 0, _ => []
  | k + 1, T => byteOf (T.take 8) :: flushBytes k (T.drop 8)

/-- The bits a left-justified carry register holds: its top `cnt` bits, `ACC[63]` first (R32, R37). -/
def queueBits (acc : Word64) (cnt : BitVec 4) : Bits := (bin 64 acc.toNat).take cnt.toNat

/-- The carry register that holds the bits `S` left-justified, the rest 0: `val(S) · 2^(64−|S|)` (R32, R37). -/
def packBits (S : Bits) : Word64 := BitVec.ofNat 64 (val S * 2 ^ (64 - S.length))

end Sys2Proof.Machine
end

