-- ==== Sys2Proof/Config.lean ====
section
/-! DEFINITION. What a platform fixes when it launches the block: the two open parameters of the spec,
`SRC` and `N_INST` (`00_scope.md` R15, `92_eei_decisions.md` Open parameters). The spec leaves no value open, so
there is no free value here. -/

namespace Sys2Proof

/-- The launch parameters (R15). Each of the `N_INST` instances has a byte source of its own (R163), so the
parameters are one source `SRC` (R39, R51) per instance, and `N_INST` is their number. -/
structure LaunchParams where
  sources : List (List Byte)
deriving DecidableEq, Repr

/-- `N_INST`, the number of independent instances (R163). -/
def LaunchParams.nInst (p : LaunchParams) : Nat := p.sources.length

/-- The parameters a platform may have: `N_INST ≥ 1` (R163). -/
abbrev LaunchParams.valid (p : LaunchParams) : Prop := 1 ≤ p.nInst

end Sys2Proof
end

