-- ==== Sys2Proof/Syntax.lean ====
section
/-! DEFINITION. The commands of the block (`30_encoding.md` R66 to R77): one constructor of `Instr` for each row of
`opcode_table.json`, with the fields the row names; and the assembler's syntax (R83, R84). -/

namespace Sys2Proof

/-- The eight codecs, in the order of the `CODEC` selector values 0 to 7 (R76). -/
inductive Codec where
  | vlq
  | ivlq
  | gamma
  | delta
  | omega
  | fib
  | ta
  | raw
deriving DecidableEq, Repr

/-- One command as the host presents it: the pair `(CMD, ARG)` (R66). -/
structure Command where
  cmd : CmdWord
  arg : Word64
deriving DecidableEq, Repr

/-- The instructions: one constructor for each of the 34 rows of `opcode_table.json` (R77). A field of `CMD` or of
`ARG` that the row names is an argument; a command that ignores `ARG` has no argument for it (R75). -/
inductive Instr where
  /-- `W_OPEN`, format O (R86). -/
  | wOpen (own : Bool)
  /-- `W_BITS`, format B; `v` is `ARG` (R88). -/
  | wBits (nb : BitVec 7) (v : Word64)
  /-- `W_ALIGN`, format N (R89). -/
  | wAlign
  /-- `W_CLOSE`, format N (R90). -/
  | wClose
  /-- `W_ENC.vlq`; `v` is `ARG` (R118). -/
  | wEncVlq (v : Word64)
  /-- `W_ENC.ivlq`; `v` is `ARG` (R119). -/
  | wEncIvlq (v : Word64)
  /-- `W_ENC.gamma`; `v` is `ARG` (R126). -/
  | wEncGamma (v : Word64)
  /-- `W_ENC.delta`; `v` is `ARG` (R130). -/
  | wEncDelta (v : Word64)
  /-- `W_ENC.omega`; `v` is `ARG` (R134). -/
  | wEncOmega (v : Word64)
  /-- `W_ENC.fib`; `v` is `ARG` (R139). -/
  | wEncFib (v : Word64)
  /-- `W_ENC.ta`; `v` is `ARG` (R144). -/
  | wEncTa (v : Word64)
  /-- `W_ENC.raw`; `v` is `ARG` (R148). -/
  | wEncRaw (v : Word64)
  /-- `PREDICT.vlq`; `v` is `ARG` (R122). -/
  | predictVlq (v : Word64)
  /-- `PREDICT.ivlq`; `v` is `ARG` (R123). -/
  | predictIvlq (v : Word64)
  /-- `PREDICT.gamma`; `v` is `ARG` (R128). -/
  | predictGamma (v : Word64)
  /-- `PREDICT.delta`; `v` is `ARG` (R132). -/
  | predictDelta (v : Word64)
  /-- `PREDICT.omega`; `v` is `ARG` (R136). -/
  | predictOmega (v : Word64)
  /-- `PREDICT.fib`; `v` is `ARG` (R141). -/
  | predictFib (v : Word64)
  /-- `PREDICT.ta`; `v` is `ARG` (R146). -/
  | predictTa (v : Word64)
  /-- `PREDICT.raw`; `v` is `ARG` (R150). -/
  | predictRaw (v : Word64)
  /-- `CFG_TA`, format L (R107). -/
  | cfgTa (lb : BitVec 3)
  /-- `R_OPEN`, format O (R91). -/
  | rOpen (own : Bool)
  /-- `R_BITS`, format B (R94). -/
  | rBits (nb : BitVec 7)
  /-- `R_PEEK`, format N (R95). -/
  | rPeek
  /-- `R_ALIGN`, format N (R96). -/
  | rAlign
  /-- `R_CLOSE`, format N (R97). -/
  | rClose
  /-- `R_DEC.vlq` (R120). -/
  | rDecVlq
  /-- `R_DEC.ivlq` (R121). -/
  | rDecIvlq
  /-- `R_DEC.gamma` (R127). -/
  | rDecGamma
  /-- `R_DEC.delta` (R131). -/
  | rDecDelta
  /-- `R_DEC.omega` (R135). -/
  | rDecOmega
  /-- `R_DEC.fib` (R140). -/
  | rDecFib
  /-- `R_DEC.ta` (R145). -/
  | rDecTa
  /-- `R_DEC.raw` (R149). -/
  | rDecRaw
deriving DecidableEq, Repr

/-- One line of the assembler's language, the numbers as they are written (R83). -/
inductive Asm where
  | wOpen (own : Nat)
  | wBits (n v : Nat)
  | wAlign
  | wClose
  | wEnc (c : Codec) (v : Nat)
  | pred (c : Codec) (v : Nat)
  | cfgTa (lb : Nat)
  | rOpen (own : Nat)
  | rBits (n : Nat)
  | rPeek
  | rAlign
  | rClose
  | rDec (c : Codec)
deriving DecidableEq, Repr

/-- The pseudo-instructions of the assembler (R84). -/
inductive Pseudo where
  | wBit (b : Nat)
  | wByte (v : Nat)
  | wFlush
  | rBit
  | rByte
  | rSkip (n : Nat)
deriving DecidableEq, Repr

end Sys2Proof
end

