-- ==== Sys2Proof/Machine/State.lean ====
section
/-! DEFINITION. The state of one block instance (`10_state.md` R23), the environment state the model carries with it
(R38 to R40), the host's inputs still to come, and reset (R45, R166). -/

namespace Sys2Proof.Machine

/-- The error codes of R151: everything but 0 (OK). The numbers are in `ErrorKind.code`. -/
inductive ErrorKind where
  /-- `W_ENC.c` with `ARG > MaxValue(c)`. -/
  | valueOutOfRange
  /-- A needed source byte is past end-of-stream. -/
  | streamTruncated
  /-- A decoder's detection point: the symbol would exceed `MaxValue(c)`. -/
  | symbolOverflow
  /-- `CFG_TA` with `LB` 0 or 7. -/
  | configurationInvalid
  /-- The command word is not in the opcode table. -/
  | illegalCommand
  /-- The channel is not in the state the command needs. -/
  | illegalState
deriving DecidableEq, Repr

/-- `W_STATE` (R28). -/
inductive WState where
  | closed
  | opened
deriving DecidableEq, Repr

/-- `R_STATE` (R33); the code 3 of its two bits is unused and has no constructor. -/
inductive RState where
  | closed
  | opened
  | faulted
deriving DecidableEq, Repr

/-- An event on the byte-sink port (R38). -/
inductive SinkEvent where
  /-- `Byte(b)`: one byte delivered (R49). -/
  | byte (b : Byte)
  /-- `Close`: the end-of-stream strobe of an owned sink (R50). -/
  | close
deriving DecidableEq, Repr

/-- An event on the byte-source port (R40). -/
inductive SrcEvent where
  /-- `Pull(b)`: one byte pulled (R52). -/
  | pull (b : Byte)
  /-- `Release`: the release strobe of an owned source (R53). -/
  | release
deriving DecidableEq, Repr

/-- What the world outside presents to the block: a command of the host (R66), or reset, "an input event of the
block" (R166). -/
inductive HostInput where
  | command (c : Command)
  | reset
deriving DecidableEq, Repr

/-- The state of one block instance. -/
structure State where
  /-- `TA_LB` (R24). -/
  taLb : BitVec 3
  /-- `STATUS` (R25). -/
  status : BitVec 3
  /-- `RES` (R26). -/
  res : Word64
  /-- `RESV` (R27). -/
  resv : Bool
  /-- `W_STATE` (R28). -/
  wState : WState
  /-- `W_OWN` (R29). -/
  wOwn : Bool
  /-- `WACC` (R30). -/
  wAcc : Word64
  /-- `WCNT` (R31). -/
  wCnt : BitVec 4
  /-- `R_STATE` (R33). -/
  rState : RState
  /-- `R_OWN` (R34). -/
  rOwn : Bool
  /-- `RACC` (R35). -/
  rAcc : Word64
  /-- `RCNT` (R36). -/
  rCnt : BitVec 4
  /-- `SINK` (R38), oldest event first. -/
  sink : List SinkEvent
  /-- `SRC` (R39). -/
  src : List Byte
  /-- `SRC_POS` (R39). -/
  srcPos : Nat
  /-- `SRCLOG` (R40), oldest event first. -/
  srcLog : List SrcEvent
  /-- The model's own field (DESIGN CHOICE, log entry 1): the commands and resets still to be presented, the next one
  first. It stands for the host, whose order of commands is the only sequencing (R22). -/
  hostInputs : List HostInput
deriving DecidableEq, Repr

/-- Why the machine could stop with a fault. There is no constructor: no command of the block stops it, every error
is a code in `STATUS` and the next command runs normally (R152, R156). Nobody raises it; safe. -/
inductive Fault where
deriving DecidableEq, Repr

/-- Why the model could refuse an instruction. -/
inductive Refusal where
  /-- The instruction has no meaning yet. Raised only by an arm of `exec` that says so; no arm does. Safe: nothing
  can be proved of a refused instruction's effect. -/
  | notModelled (mnemonic : String)
deriving DecidableEq, Repr

/-- The start of a run with the byte source `src` (R15, R39): every register at its reset value (R45, R166), the
streams' records empty (R38 to R40). -/
def State.launch (src : List Byte) : State where
  taLb := 6
  status := 0
  res := 0
  resv := false
  wState := .closed
  wOwn := false
  wAcc := 0
  wCnt := 0
  rState := .closed
  rOwn := false
  rAcc := 0
  rCnt := 0
  sink := []
  src := src
  srcPos := 0
  srcLog := []
  hostInputs := []

/-- The machine right after reset at the start of a run (R45). `SRC` is a launch parameter (R39); here it is the empty
sequence (DESIGN CHOICE, log entry 2), and `State.launch` takes any other. -/
def State.reset : State := State.launch []

end Sys2Proof.Machine
end

