-- ==== Sys2Proof/WellFormed.lean ====
section
/-! DEFINITION. Which terms of `Instr` are commands of the block: the bit count of `W_BITS` and `R_BITS` is 1 to 64
(`30_encoding.md` R74, R79). Every other field takes every value of its type; all eight values of `LB` decode (R73). -/

namespace Sys2Proof

/-- `NB` is in 1..64 (R74). -/
abbrev legalCount (nb : BitVec 7) : Prop := 1 ≤ nb.toNat ∧ nb.toNat ≤ 64

/-- The instruction is one that some command word stands for (R74, R79, R80). -/
def Instr.wellFormed : Instr → Bool
  | .wBits nb _ => decide (legalCount nb)
  | .rBits nb => decide (legalCount nb)
  | .wOpen _ => true
  | .wAlign => true
  | .wClose => true
  | .wEncVlq _ => true
  | .wEncIvlq _ => true
  | .wEncGamma _ => true
  | .wEncDelta _ => true
  | .wEncOmega _ => true
  | .wEncFib _ => true
  | .wEncTa _ => true
  | .wEncRaw _ => true
  | .predictVlq _ => true
  | .predictIvlq _ => true
  | .predictGamma _ => true
  | .predictDelta _ => true
  | .predictOmega _ => true
  | .predictFib _ => true
  | .predictTa _ => true
  | .predictRaw _ => true
  | .cfgTa _ => true
  | .rOpen _ => true
  | .rPeek => true
  | .rAlign => true
  | .rClose => true
  | .rDecVlq => true
  | .rDecIvlq => true
  | .rDecGamma => true
  | .rDecDelta => true
  | .rDecOmega => true
  | .rDecFib => true
  | .rDecTa => true
  | .rDecRaw => true

end Sys2Proof
end

