-- ==== Sys2Proof/Machine/Operands.lean ====
section
/-! DEFINITION. The operand forms (`30_encoding.md` R74, R75) and the symbol ranges (`41_codec_common.md` R103). The
block has no register operands and no addressing modes (`10_state.md` R21). -/

namespace Sys2Proof.Machine

/-- The operand of `W_BITS`: `bin_n(ARG[n−1:0])`, the low `n` bits of `ARG`, most significant first (R75, R88). -/
def fieldBits (nb : BitVec 7) (v : Word64) : Bits := bin nb.toNat (v.toNat % 2 ^ nb.toNat)

/-- The operand of `W_ENC` and `PREDICT`: all 64 bits of `ARG`, unsigned (R75). -/
def symbol (v : Word64) : Nat := v.toNat

/-- `lb`, the value of `TA_LB` when the command executes (47 introduction, R24). -/
def taWidth (s : State) : Nat := s.taLb.toNat

/-- The largest symbol of the codecs that reserve one value: `2^64 − 2` (R103). -/
def maxOffset : Nat := 2 ^ 64 - 2

/-- The largest symbol of Thompson-Alpha: `2^(2^lb) − 2` (R103, R142). -/
def maxTa (lb : Nat) : Nat := 2 ^ 2 ^ lb - 2

/-- The largest symbol of Raw: `2^64 − 1` (R103). -/
def maxRaw : Nat := 2 ^ 64 - 1

/-- `MaxValue(c)`, with the `TA_LB` value `lb` for Thompson-Alpha (R103). -/
def maxValue (c : Codec) (lb : Nat) : Nat :=
  match c with
  | .vlq => maxOffset
  | .ivlq => maxOffset
  | .gamma => maxOffset
  | .delta => maxOffset
  | .omega => maxOffset
  | .fib => maxOffset
  | .ta => maxTa lb
  | .raw => maxRaw

end Sys2Proof.Machine
end

