-- ==== Sys2Proof/Machine/Flags.lean ====
section
/-! DEFINITION. The status indications. The block has no condition codes or arithmetic flags; `STATUS` and `RESV` are
its only indications, and every command writes both, with `RES` (`10_state.md` R25 to R27, R41). -/

namespace Sys2Proof.Machine

/-- The `STATUS` code of an error (R151). -/
def ErrorKind.code : ErrorKind → BitVec 3
  | .valueOutOfRange => 1
  | .streamTruncated => 2
  | .symbolOverflow => 3
  | .configurationInvalid => 4
  | .illegalCommand => 5
  | .illegalState => 6

/-- The errors that put the reader into its fault state (R152). -/
def ErrorKind.faultsReader : ErrorKind → Bool
  | .streamTruncated => true
  | .symbolOverflow => true
  | .valueOutOfRange => false
  | .configurationInvalid => false
  | .illegalCommand => false
  | .illegalState => false

/-- The codes of `W_STATE` (R28). -/
def WState.code : WState → BitVec 1
  | .closed => 0
  | .opened => 1

/-- The codes of `R_STATE` (R33). -/
def RState.code : RState → BitVec 2
  | .closed => 0
  | .opened => 1
  | .faulted => 2

/-- Write the response registers `STATUS`, `RES`, `RESV` (R67). -/
def State.respond (s : State) (status : BitVec 3) (res : Word64) (resv : Bool) : State :=
  { s with status := status, res := res, resv := resv }

/-- The response the host sees after a command: `(STATUS, RES, RESV)` (R67). -/
def State.response (s : State) : BitVec 3 × Word64 × Bool := (s.status, s.res, s.resv)

end Sys2Proof.Machine
end

