-- ==== Sys2Proof/Machine/Ops.lean ====
section
/-! DEFINITION. The named operations over the state: the stream primitives (`20_memory.md` R49 to R53), the queue views
(`10_state.md` R32, R37), `Emit`, `NextBit`, `PeekBit` (`40_bit_accumulator.md` R87, R92, R93), how a command ends
(`finish` R85, `raise` R152), and reset as an input event (R166). -/

namespace Sys2Proof.Machine

/-! ### Queue views -/

/-- `QW`, the pending writer bits (R32). -/
def qw (s : State) : Bits := queueBits s.wAcc s.wCnt

/-- `QW <- S` (R32). -/
def setQw (S : Bits) (s : State) : State :=
  { s with wAcc := packBits S, wCnt := BitVec.ofNat 4 S.length }

/-- `QR`, the unconsumed reader bits (R37). -/
def qr (s : State) : Bits := queueBits s.rAcc s.rCnt

/-- `QR <- S` (R37). -/
def setQr (S : Bits) (s : State) : State :=
  { s with rAcc := packBits S, rCnt := BitVec.ofNat 4 S.length }

/-! ### How a command ends -/

/-- `finish(r, v)`: the command ends with OK (R85). -/
def finish (r : Word64) (v : Bool) (s : State) : State := s.respond 0 r v

/-- `raise E`: the command ends with the error, the one shared operation for all six. A stream error also empties `QR`
and makes the reader FAULTED; `R_OWN` and every other field stay (R152). There is no return from an error (R158):
`R_CLOSE` recovers the reader (R157). -/
def raise (e : ErrorKind) (s : State) : State :=
  let s := s.respond e.code 0 false
  if e.faultsReader then { setQr [] s with rState := .faulted } else s

/-! ### Writer side -/

/-- `SinkPut(b)` (R49). -/
def sinkPut (b : Byte) (s : State) : State := { s with sink := s.sink ++ [.byte b] }

/-- `SinkMark()` (R50). -/
def sinkMark (s : State) : State := { s with sink := s.sink ++ [.close] }

/-- `SinkPut` for each byte, in order. -/
def sinkPuts : List Byte → State → State
  | [], s => s
  | b :: bs, s => sinkPuts bs (sinkPut b s)

/-- `Emit(S)`: merge behind the pending bits, send every full byte, keep the rest (R87). -/
def emit (S : Bits) (s : State) : State :=
  let T := qw s ++ S
  let k := T.length / 8
  setQw (T.drop (8 * k)) (sinkPuts (flushBytes k T) s)

/-- Zero-pad and send the partial byte, if there is one (R89, R90). -/
def padWriter (s : State) : State :=
  if s.wCnt ≠ 0 then emit (zeros (8 - s.wCnt.toNat)) s else s

/-! ### Reader side -/

/-- The outcome of a reader primitive: a value, or an error raised part-way; the state at that point either way, so
that bytes already pulled stay pulled (R59, R152). -/
inductive ReadResult (α : Type) where
  | got (a : α) (s : State)
  | raised (e : ErrorKind) (s : State)
deriving Repr

/-- Go on with the value; an error ends everything (R152). -/
def ReadResult.bind {α β : Type} (r : ReadResult α) (f : α → State → ReadResult β) : ReadResult β :=
  match r with
  | .got a s => f a s
  | .raised e s => .raised e s

/-- `SrcPull()` (R52). At or past the end of `SRC` it raises StreamTruncated. -/
def srcPull (s : State) : ReadResult Byte :=
  match s.src[s.srcPos]? with
  | none => .raised .streamTruncated s
  | some b => .got b { s with srcPos := s.srcPos + 1, srcLog := s.srcLog ++ [.pull b] }

/-- `SrcMark()` (R53). -/
def srcMark (s : State) : State := { s with srcLog := s.srcLog ++ [.release] }

/-- Pull a byte into `QR` if no unconsumed bit is buffered: the common part of `NextBit` and `PeekBit` (R92, R93). -/
def fillReader (s : State) : ReadResult Unit :=
  if s.rCnt = 0 then (srcPull s).bind fun b s => .got () (setQr (bitsOfByte b) s) else .got () s

/-- `NextBit()`: consume one bit (R92). -/
def nextBit (s : State) : ReadResult Bool :=
  (fillReader s).bind fun _ s => .got ((qr s).headD false) (setQr (qr s).tail s)

/-- `PeekBit()`: look at the next bit without consuming it (R93). -/
def peekBit (s : State) : ReadResult Bool :=
  (fillReader s).bind fun _ s => .got ((qr s).headD false) s

/-- `S <- ε`, then `n` times `S <- S ++ ⟨NextBit()⟩` (R94, R120). -/
def readBits : Nat → State → ReadResult Bits
  | 0, s => .got [] s
  | n + 1, s => (nextBit s).bind fun b s => (readBits n s).bind fun S s => .got (b :: S) s

/-- `n` times `x <- 2x + NextBit()`, from `x` (R127, R131, R135, R145, R149). -/
def readNat : Nat → Nat → State → ReadResult Nat
  | 0, x, s => .got x s
  | n + 1, x, s => (nextBit s).bind fun b s => readNat n (2 * x + b.toNat) s

/-! ### Reset as an input event -/

/-- Reset in the middle of a run: every block register gets its reset value; nothing is sent, pulled, closed or
released, and the streams' records stay (R45, R166). The inputs still to come stay too (DESIGN CHOICE, log entry 1). -/
def resetBlock (s : State) : State :=
  { State.reset with sink := s.sink, src := s.src, srcPos := s.srcPos, srcLog := s.srcLog, hostInputs := s.hostInputs }

end Sys2Proof.Machine
end

