-- ==== Sys2Proof/Machine/Reader.lean ====
section
/-! DEFINITION. The reader channel's commands `R_OPEN`, `R_BITS`, `R_PEEK`, `R_ALIGN`, `R_CLOSE`
(`40_bit_accumulator.md` R91 to R97). -/

namespace Sys2Proof.Machine

/-- Admission of a command that needs an open reader: IllegalState when CLOSED or FAULTED (R154, R157). -/
def withOpenReader (s : State) (body : State → State) : State :=
  if s.rState = .opened then body s else raise .illegalState s

/-- End a reader command: with its value where the primitives gave one, else with the error they raised (R85, R152). -/
def endRead {α : Type} (toRes : α → Word64) (r : ReadResult α) : State :=
  match r with
  | .got a s => finish (toRes a) true s
  | .raised e s => raise e s

/-- `R_OPEN`: `SRC_POS` is not changed (R91). -/
def execROpen (own : Bool) (s : State) : Host.Outcome State Fault Refusal :=
  .next <|
    if s.rState = .closed then finish 0 false (setQr [] { s with rState := .opened, rOwn := own })
    else raise .illegalState s

/-- `R_BITS` (R94). A count outside 1..64 is an illegal command whoever presents it (R79, R154; log entry 4). -/
def execRBits (nb : BitVec 7) (s : State) : Host.Outcome State Fault Refusal :=
  .next <|
    if legalCount nb then
      withOpenReader s fun s => endRead (fun S => BitVec.ofNat 64 (val S)) (readBits nb.toNat s)
    else raise .illegalCommand s

/-- `R_PEEK` (R95). -/
def execRPeek (s : State) : Host.Outcome State Fault Refusal :=
  .next <| withOpenReader s fun s => endRead (fun b => BitVec.ofNat 64 b.toNat) (peekBit s)

/-- `R_ALIGN`: discard `RCNT mod 8` bits, never pull (R96). -/
def execRAlign (s : State) : Host.Outcome State Fault Refusal :=
  .next <| withOpenReader s fun s => finish 0 false (setQr ((qr s).drop (s.rCnt.toNat % 8)) s)

/-- `SrcMark()` where the reader owns its source (R97). -/
def releaseSource (s : State) : State := if s.rOwn then srcMark s else s

/-- `R_CLOSE`: accepted in every reader state; on a closed reader nothing but the response (R97). -/
def execRClose (s : State) : Host.Outcome State Fault Refusal :=
  .next <| finish 0 false <|
    if s.rState ≠ .closed then { releaseSource (setQr [] s) with rState := .closed, rOwn := false } else s

end Sys2Proof.Machine
end

