-- ==== Sys2Proof/Machine/Writer.lean ====
section
/-! DEFINITION. The writer channel's commands `W_OPEN`, `W_BITS`, `W_ALIGN`, `W_CLOSE` (`40_bit_accumulator.md`
R86 to R90). -/

namespace Sys2Proof.Machine

/-- Admission of a command that needs an open writer: IllegalState otherwise (R154). -/
def withOpenWriter (s : State) (body : State → State) : State :=
  if s.wState = .opened then body s else raise .illegalState s

/-- `W_OPEN` (R86). -/
def execWOpen (own : Bool) (s : State) : Host.Outcome State Fault Refusal :=
  .next <|
    if s.wState = .closed then finish 0 false (setQw [] { s with wState := .opened, wOwn := own })
    else raise .illegalState s

/-- `W_BITS` (R88). A count outside 1..64 is an illegal command whoever presents it (R79, R154; log entry 4). -/
def execWBits (nb : BitVec 7) (v : Word64) (s : State) : Host.Outcome State Fault Refusal :=
  .next <|
    if legalCount nb then withOpenWriter s fun s => finish 0 false (emit (fieldBits nb v) s)
    else raise .illegalCommand s

/-- `W_ALIGN` (R89). -/
def execWAlign (s : State) : Host.Outcome State Fault Refusal :=
  .next <| withOpenWriter s fun s => finish 0 false (padWriter s)

/-- `SinkMark()` where the writer owns its sink (R90). -/
def releaseSink (s : State) : State := if s.wOwn then sinkMark s else s

/-- `W_CLOSE`: accepted in every writer state; on a closed writer nothing but the response (R90). -/
def execWClose (s : State) : Host.Outcome State Fault Refusal :=
  .next <| finish 0 false <|
    if s.wState = .opened then { releaseSink (padWriter s) with wState := .closed, wOwn := false } else s

end Sys2Proof.Machine
end

