-- ==== Sys2Proof/Machine/CodecFrame.lean ====
section
/-! DEFINITION. The three command frames of the codecs and the Thompson-Alpha configuration (`41_codec_common.md`
R104 to R107). -/

namespace Sys2Proof.Machine

/-- `W_ENC.c`: range check first, then emit the code word (R104). -/
def encodeFrame (max : Nat) (code : Nat → Bits) (v : Word64) (s : State) : State :=
  withOpenWriter s fun s =>
    if symbol v > max then raise .valueOutOfRange s else finish 0 false (emit (code (symbol v)) s)

/-- `R_DEC.c`: decode, then return the symbol (R105). -/
def decodeFrame (dec : State → ReadResult Nat) (s : State) : State :=
  withOpenReader s fun s => endRead (BitVec.ofNat 64) (dec s)

/-- `PREDICT.c`: no admission check; None (`RESV = 0`) for a symbol out of range (R106). -/
def predictFrame (max : Nat) (len : Nat → Nat) (v : Word64) (s : State) : State :=
  if symbol v > max then finish 0 false s else finish (BitVec.ofNat 64 (len (symbol v))) true s

/-- `CFG_TA` (R107). -/
def execCfgTa (lb : BitVec 3) (s : State) : Host.Outcome State Fault Refusal :=
  .next <|
    if lb.toNat < 1 ∨ lb.toNat > 6 then raise .configurationInvalid s
    else finish 0 false { s with taLb := lb }

end Sys2Proof.Machine
end

