-- ==== Sys2Proof/Machine/EliasGamma.lean ====
section
/-! DEFINITION. Elias Gamma (`43_elias_gamma.md` R125 to R128). -/

namespace Sys2Proof.Machine

/-- `GammaBits(x)`, the un-offset code of `x ≥ 1` (R125). -/
def gammaBits (x : Nat) : Bits := zeros (countUsed x - 1) ++ bin (countUsed x) x

/-- `Code_gamma(v) = GammaBits(v + 1)` (R125). -/
def codeGamma (v : Nat) : Bits := gammaBits (v + 1)

/-- `Len_gamma(v)` (R128). -/
def lenGamma (v : Nat) : Nat := 2 * countUsed (v + 1) - 1

/-- `while NextBit() = 0` of `GammaRead`: `z` zeros so far, `room = 64 − z`; the 64th zero raises SymbolOverflow before
any further bit is read (R127). -/
def gammaZeros : Nat → Nat → State → ReadResult Nat
  | 0, _, s => .raised .symbolOverflow s
  | room + 1, z, s => (nextBit s).bind fun b s => if b then .got z s else gammaZeros room (z + 1) s

/-- `GammaRead()` (R127). -/
def gammaRead (s : State) : ReadResult Nat :=
  (gammaZeros 64 0 s).bind fun z s => readNat z 1 s

/-- `Dec_gamma()` (R127). -/
def decGamma (s : State) : ReadResult Nat := (gammaRead s).bind fun x s => .got (x - 1) s

/-- `W_ENC.gamma` (R126). -/
def execWEncGamma (v : Word64) (s : State) : Host.Outcome State Fault Refusal :=
  .next (encodeFrame (maxValue .gamma (taWidth s)) codeGamma v s)

/-- `R_DEC.gamma` (R127). -/
def execRDecGamma (s : State) : Host.Outcome State Fault Refusal := .next (decodeFrame decGamma s)

/-- `PREDICT.gamma` (R128). -/
def execPredictGamma (v : Word64) (s : State) : Host.Outcome State Fault Refusal :=
  .next (predictFrame (maxValue .gamma (taWidth s)) lenGamma v s)

end Sys2Proof.Machine
end

