-- ==== Sys2Proof/Machine/EliasDelta.lean ====
section
/-! DEFINITION. Elias Delta (`44_elias_delta.md` R129 to R132), with the un-offset gamma code of `n + 1` as its prefix
(R129). -/

namespace Sys2Proof.Machine

/-- `Code_delta(v)` (R129). -/
def codeDelta (v : Nat) : Bits :=
  let x := v + 1
  let n := countUsed x - 1
  gammaBits (n + 1) ++ bin n (x - 2 ^ n)

/-- `Len_delta(v)` (R132). -/
def lenDelta (v : Nat) : Nat :=
  let n := countUsed (v + 1) - 1
  (2 * countUsed (n + 1) - 1) + n

/-- `Dec_delta()`: the prefix value is checked before any further bit is read (R131). -/
def decDelta (s : State) : ReadResult Nat :=
  (gammaRead s).bind fun L s =>
    if L > 64 then .raised .symbolOverflow s
    else (readNat (L - 1) 0 s).bind fun r s => .got ((2 ^ (L - 1) ||| r) - 1) s

/-- `W_ENC.delta` (R130). -/
def execWEncDelta (v : Word64) (s : State) : Host.Outcome State Fault Refusal :=
  .next (encodeFrame (maxValue .delta (taWidth s)) codeDelta v s)

/-- `R_DEC.delta` (R131). -/
def execRDecDelta (s : State) : Host.Outcome State Fault Refusal := .next (decodeFrame decDelta s)

/-- `PREDICT.delta` (R132). -/
def execPredictDelta (v : Word64) (s : State) : Host.Outcome State Fault Refusal :=
  .next (predictFrame (maxValue .delta (taWidth s)) lenDelta v s)

end Sys2Proof.Machine
end

