-- ==== Sys2Proof/Machine/EliasOmega.lean ====
section
/-! DEFINITION. Elias Omega (`45_elias_omega.md` R133 to R136). -/

namespace Sys2Proof.Machine

/-- The encoding loop: prepend the groups of `N` to `S` (R133). `fuel` bounds the groups: `N < 2^64` has at most 4
groups, since `N` becomes `CountUsed(N) − 1` (DEDUCED, log entry 6). -/
def omegaGroups : Nat → Nat → Bits → Bits
  | 0, _, S => S
  | fuel + 1, N, S => if N > 1 then omegaGroups fuel (countUsed N - 1) (bin (countUsed N) N ++ S) else S

/-- `Code_omega(v)` (R133). -/
def codeOmega (v : Nat) : Bits := omegaGroups 64 (v + 1) [false]

/-- The length loop (R136); `fuel` as in `omegaGroups`. -/
def omegaLength : Nat → Nat → Nat → Nat
  | 0, _, t => t
  | fuel + 1, N, t => if N > 1 then omegaLength fuel (countUsed N - 1) (t + countUsed N) else t

/-- `Len_omega(v)` (R136). -/
def lenOmega (v : Nat) : Nat := omegaLength 64 (v + 1) 1

/-- The decoding loop (R135). `fuel` bounds the groups: `N` grows strictly with every group, so from `N = 1` it is at
least 64 before 64 groups are read, and the 0 case is not reached (DEDUCED, log entry 6). -/
def omegaLoop : Nat → Nat → State → ReadResult Nat
  | 0, _, s => .raised .symbolOverflow s
  | fuel + 1, N, s =>
    (nextBit s).bind fun b s =>
      if b = false then .got (N - 1) s
      else if N ≥ 64 then .raised .symbolOverflow s
      else (readNat N 1 s).bind fun x s => omegaLoop fuel x s

/-- `Dec_omega()` (R135). -/
def decOmega (s : State) : ReadResult Nat := omegaLoop 64 1 s

/-- `W_ENC.omega` (R134). -/
def execWEncOmega (v : Word64) (s : State) : Host.Outcome State Fault Refusal :=
  .next (encodeFrame (maxValue .omega (taWidth s)) codeOmega v s)

/-- `R_DEC.omega` (R135). -/
def execRDecOmega (s : State) : Host.Outcome State Fault Refusal := .next (decodeFrame decOmega s)

/-- `PREDICT.omega` (R136). -/
def execPredictOmega (v : Word64) (s : State) : Host.Outcome State Fault Refusal :=
  .next (predictFrame (maxValue .omega (taWidth s)) lenOmega v s)

end Sys2Proof.Machine
end

