-- ==== Sys2Proof/Machine/Fibonacci.lean ====
section
/-! DEFINITION. Fibonacci (`46_fibonacci.md` R137 to R141). -/

namespace Sys2Proof.Machine

/-- `n` entries of the Fibonacci sequence that starts `a, b`. -/
def fibSequence : Nat → Nat → Nat → List Nat
  | 0, _, _ => []
  | n + 1, a, b => a :: fibSequence n b (a + b)

/-- The table `Fib[0] .. Fib[91]`: `Fib[0] = 1`, `Fib[1] = 2`, then sums (R137). -/
def fibTable : List Nat := fibSequence 92 1 2

/-- `Fib[i]` (R137). -/
def fibEntry (i : Nat) : Nat := fibTable.getD i 0

/-- The largest `i` in 0..91 with `Fib[i] ≤ x` (R138). -/
def fibTop (x : Nat) : Nat := (List.range 92).foldl (fun k i => if fibEntry i ≤ x then i else k) 0

/-- `for i from k down to 0`, greedy: the bits `B[0] .. B[k]`, smallest term first, from the terms below `k + 1` (R138). -/
def fibGreedy : Nat → Nat → Bits
  | 0, _ => []
  | i + 1, x => if fibEntry i ≤ x then fibGreedy i (x - fibEntry i) ++ [true] else fibGreedy i x ++ [false]

/-- `Code_fib(v)`: the terms' bits, then the terminating 1 (R138). -/
def codeFib (v : Nat) : Bits := fibGreedy (fibTop (v + 1) + 1) (v + 1) ++ [true]

/-- `Len_fib(v) = k + 2` (R141). -/
def lenFib (v : Nat) : Nat := fibTop (v + 1) + 2

/-- The decoding loop: `terms` are the table entries from position `i` on, `p` the previous bit, `S` the sum. With no
entry left the position is 92, where only the terminator is accepted (R140). -/
def fibLoop : List Nat → Bool → Nat → State → ReadResult Nat
  | [], p, S, s =>
    (nextBit s).bind fun b s => if b && p then .got (S - 1) s else .raised .symbolOverflow s
  | f :: terms, p, S, s =>
    (nextBit s).bind fun b s =>
      if b && p then .got (S - 1) s
      else if b && decide (S + f > 2 ^ 64 - 1) then .raised .symbolOverflow s
      else fibLoop terms b (if b then S + f else S) s

/-- `Dec_fib()` (R140). -/
def decFib (s : State) : ReadResult Nat := fibLoop fibTable false 0 s

/-- `W_ENC.fib` (R139). -/
def execWEncFib (v : Word64) (s : State) : Host.Outcome State Fault Refusal :=
  .next (encodeFrame (maxValue .fib (taWidth s)) codeFib v s)

/-- `R_DEC.fib` (R140). -/
def execRDecFib (s : State) : Host.Outcome State Fault Refusal := .next (decodeFrame decFib s)

/-- `PREDICT.fib` (R141). -/
def execPredictFib (v : Word64) (s : State) : Host.Outcome State Fault Refusal :=
  .next (predictFrame (maxValue .fib (taWidth s)) lenFib v s)

end Sys2Proof.Machine
end

