-- ==== Sys2Proof/Machine/Raw.lean ====
section
/-! DEFINITION. Raw (`48_raw.md` R147 to R150): most significant bit first on every platform (`90_conflicts.md` C8). -/

namespace Sys2Proof.Machine

/-- `Code_raw(v)` (R147). -/
def codeRaw (v : Nat) : Bits := bin 64 v

/-- `Len_raw(v)` (R150). -/
def lenRaw (_ : Nat) : Nat := 64

/-- `Dec_raw()` (R149). -/
def decRaw (s : State) : ReadResult Nat := readNat 64 0 s

/-- `W_ENC.raw`: every 64-bit value is in range (R148). -/
def execWEncRaw (v : Word64) (s : State) : Host.Outcome State Fault Refusal :=
  .next (encodeFrame (maxValue .raw (taWidth s)) codeRaw v s)

/-- `R_DEC.raw` (R149). -/
def execRDecRaw (s : State) : Host.Outcome State Fault Refusal := .next (decodeFrame decRaw s)

/-- `PREDICT.raw`: never None (R150). -/
def execPredictRaw (v : Word64) (s : State) : Host.Outcome State Fault Refusal :=
  .next (predictFrame (maxValue .raw (taWidth s)) lenRaw v s)

end Sys2Proof.Machine
end

