-- ==== Sys2Proof/Machine/ThompsonAlpha.lean ====
section
/-! DEFINITION. Thompson-Alpha (`47_thompson_alpha.md` R142 to R146); `lb` is the value of `TA_LB` when the command
executes. -/

namespace Sys2Proof.Machine

/-- `Code_ta(v, lb)` (R143). -/
def codeTa (lb v : Nat) : Bits :=
  let x := v + 1
  let L := countUsed x - 1
  bin lb L ++ bin L (x - 2 ^ L)

/-- `Len_ta(v, lb)` (R146). -/
def lenTa (lb v : Nat) : Nat := lb + countUsed (v + 1) - 1

/-- `Dec_ta(lb)` (R145). -/
def decTa (lb : Nat) (s : State) : ReadResult Nat :=
  (readNat lb 0 s).bind fun L s => (readNat L 0 s).bind fun r s => .got ((2 ^ L ||| r) - 1) s

/-- `W_ENC.ta` (R144). -/
def execWEncTa (v : Word64) (s : State) : Host.Outcome State Fault Refusal :=
  .next (encodeFrame (maxValue .ta (taWidth s)) (codeTa (taWidth s)) v s)

/-- `R_DEC.ta` (R145). -/
def execRDecTa (s : State) : Host.Outcome State Fault Refusal := .next (decodeFrame (decTa (taWidth s)) s)

/-- `PREDICT.ta` (R146). -/
def execPredictTa (v : Word64) (s : State) : Host.Outcome State Fault Refusal :=
  .next (predictFrame (maxValue .ta (taWidth s)) (lenTa (taWidth s)) v s)

end Sys2Proof.Machine
end

