-- ==== Sys2Proof/Machine/Vlq.lean ====
section
/-! DEFINITION. VLQ and Inverted-VLQ (`42_vlq.md` R115 to R124). The two differ in the flag of the final unit only:
1 for VLQ, 0 for Inverted-VLQ (R116, `90_conflicts.md` C1). -/

namespace Sys2Proof.Machine

/-- `Groups(v)`, least significant group first (R115). `fuel` bounds the non-final groups: `v ≤ 2^64 − 2` has at most 9
(R124), so 10 is never used up (DEDUCED, log entry 6). -/
def groupsFuel : Nat → Nat → List Nat
  | 0, v => [v]
  | fuel + 1, v => if v > 127 then v % 128 :: groupsFuel fuel (v / 128 - 1) else [v]

/-- `Groups(v)` (R115). -/
def groups (v : Nat) : List Nat := groupsFuel 10 v

/-- One 8-bit unit: the flag bit, then the group (R116). -/
def vlqUnit (flag : Bool) (g : Nat) : Bits := bin 8 (flag.toNat * 128 + g)

/-- The units of a group sequence, with the flag `final` on the last unit and its inverse on the others (R116). -/
def vlqUnits (final : Bool) : List Nat → Bits
  | [] => []
  | [g] => vlqUnit final g
  | g :: g' :: G => vlqUnit (!final) g ++ vlqUnits final (g' :: G)

/-- `Code_vlq(v)` (R118). -/
def codeVlq (v : Nat) : Bits := vlqUnits true (groups v)

/-- `Code_ivlq(v)` (R119). -/
def codeIvlq (v : Nat) : Bits := vlqUnits false (groups v)

/-- `Len_vlq(v) = 8 · |Groups(v)|` (R122). -/
def lenVlq (v : Nat) : Nat := 8 * (groups v).length

/-- `Len_ivlq(v) = Len_vlq(v)` (R123). -/
def lenIvlq (v : Nat) : Nat := lenVlq v

/-- The decoding loop: unit `i`, sum `S`, ended by the flag `final`; overflow is checked after every unit (R120, R121).
`fuel` counts the units left: a decode reads at most 11, the 11th always overflows (R120), so the 0 case is not reached
from 11 (DEDUCED, log entry 6). -/
def vlqLoop (final : Bool) : Nat → Nat → Nat → State → ReadResult Nat
  | 0, _, _, s => .raised .symbolOverflow s
  | fuel + 1, S, i, s =>
    (readBits 8 s).bind fun U s =>
      let S := S + (val U.tail + 1) * 2 ^ (7 * i)
      if S > 2 ^ 64 - 1 then .raised .symbolOverflow s
      else if U.headD false = final then .got (S - 1) s
      else vlqLoop final fuel S (i + 1) s

/-- `Dec_vlq()` (R120). -/
def decVlq (s : State) : ReadResult Nat := vlqLoop true 11 0 0 s

/-- `Dec_ivlq()` (R121). -/
def decIvlq (s : State) : ReadResult Nat := vlqLoop false 11 0 0 s

/-- `W_ENC.vlq` (R118). -/
def execWEncVlq (v : Word64) (s : State) : Host.Outcome State Fault Refusal :=
  .next (encodeFrame (maxValue .vlq (taWidth s)) codeVlq v s)

/-- `W_ENC.ivlq` (R119). -/
def execWEncIvlq (v : Word64) (s : State) : Host.Outcome State Fault Refusal :=
  .next (encodeFrame (maxValue .ivlq (taWidth s)) codeIvlq v s)

/-- `R_DEC.vlq` (R120). -/
def execRDecVlq (s : State) : Host.Outcome State Fault Refusal := .next (decodeFrame decVlq s)

/-- `R_DEC.ivlq` (R121). -/
def execRDecIvlq (s : State) : Host.Outcome State Fault Refusal := .next (decodeFrame decIvlq s)

/-- `PREDICT.vlq` (R122). -/
def execPredictVlq (v : Word64) (s : State) : Host.Outcome State Fault Refusal :=
  .next (predictFrame (maxValue .vlq (taWidth s)) lenVlq v s)

/-- `PREDICT.ivlq` (R123). -/
def execPredictIvlq (v : Word64) (s : State) : Host.Outcome State Fault Refusal :=
  .next (predictFrame (maxValue .ivlq (taWidth s)) lenIvlq v s)

end Sys2Proof.Machine
end

