-- ==== Sys2Proof/Machine/Dispatch.lean ====
section
/-! DEFINITION. One arm per instruction: each calls the meaning of that instruction (`30_encoding.md` R77). -/

namespace Sys2Proof.Machine

def exec (i : Instr) (s : State) : Host.Outcome State Fault Refusal :=
  match i with
  | .wOpen own => Sys2Proof.Machine.execWOpen own s
  | .wBits nb v => Sys2Proof.Machine.execWBits nb v s
  | .wAlign => Sys2Proof.Machine.execWAlign s
  | .wClose => Sys2Proof.Machine.execWClose s
  | .wEncVlq v => Sys2Proof.Machine.execWEncVlq v s
  | .wEncIvlq v => Sys2Proof.Machine.execWEncIvlq v s
  | .wEncGamma v => Sys2Proof.Machine.execWEncGamma v s
  | .wEncDelta v => Sys2Proof.Machine.execWEncDelta v s
  | .wEncOmega v => Sys2Proof.Machine.execWEncOmega v s
  | .wEncFib v => Sys2Proof.Machine.execWEncFib v s
  | .wEncTa v => Sys2Proof.Machine.execWEncTa v s
  | .wEncRaw v => Sys2Proof.Machine.execWEncRaw v s
  | .predictVlq v => Sys2Proof.Machine.execPredictVlq v s
  | .predictIvlq v => Sys2Proof.Machine.execPredictIvlq v s
  | .predictGamma v => Sys2Proof.Machine.execPredictGamma v s
  | .predictDelta v => Sys2Proof.Machine.execPredictDelta v s
  | .predictOmega v => Sys2Proof.Machine.execPredictOmega v s
  | .predictFib v => Sys2Proof.Machine.execPredictFib v s
  | .predictTa v => Sys2Proof.Machine.execPredictTa v s
  | .predictRaw v => Sys2Proof.Machine.execPredictRaw v s
  | .cfgTa lb => Sys2Proof.Machine.execCfgTa lb s
  | .rOpen own => Sys2Proof.Machine.execROpen own s
  | .rBits nb => Sys2Proof.Machine.execRBits nb s
  | .rPeek => Sys2Proof.Machine.execRPeek s
  | .rAlign => Sys2Proof.Machine.execRAlign s
  | .rClose => Sys2Proof.Machine.execRClose s
  | .rDecVlq => Sys2Proof.Machine.execRDecVlq s
  | .rDecIvlq => Sys2Proof.Machine.execRDecIvlq s
  | .rDecGamma => Sys2Proof.Machine.execRDecGamma s
  | .rDecDelta => Sys2Proof.Machine.execRDecDelta s
  | .rDecOmega => Sys2Proof.Machine.execRDecOmega s
  | .rDecFib => Sys2Proof.Machine.execRDecFib s
  | .rDecTa => Sys2Proof.Machine.execRDecTa s
  | .rDecRaw => Sys2Proof.Machine.execRDecRaw s

end Sys2Proof.Machine
end

