-- ==== Sys2Proof/Decode.lean ====
section
/-! DEFINITION. Decoding and encoding of command words (`30_encoding.md` R68 to R82), and the assembler (R83, R84).
A command is delivered as the pair `(CMD, ARG)`; the block has no byte layout for it (R64, R66). -/

namespace Sys2Proof

/-- Why a command word is illegal. Each of the three ends the command with IllegalCommand (R78, R79, R153). -/
inductive DecodeError where
  /-- `OP` is 0x0, 0x8 or 0xF (R78). -/
  | reservedOp
  /-- A reserved bit of the word's format is 1 (R79). -/
  | reservedBits
  /-- The format is B and `NB` is 0 or greater than 64 (R79). -/
  | badBitCount
deriving DecidableEq, Repr

/-- `CODEC(c)`, the selector value of a codec (R76). -/
def codecNumber : Codec → Nat
  | .vlq => 0
  | .ivlq => 1
  | .gamma => 2
  | .delta => 3
  | .omega => 4
  | .fib => 5
  | .ta => 6
  | .raw => 7

/-- The codec of a selector value: all eight values are assigned (R76). -/
def codecOf (n : BitVec 3) : Codec :=
  match n.toNat with
  | 0 => .vlq
  | 1 => .ivlq
  | 2 => .gamma
  | 3 => .delta
  | 4 => .omega
  | 5 => .fib
  | 6 => .ta
  | _ => .raw

/-- The `W_ENC` instruction of a codec (R77, R104). -/
def encodeInstr (c : Codec) (v : Word64) : Instr :=
  match c with
  | .vlq => .wEncVlq v
  | .ivlq => .wEncIvlq v
  | .gamma => .wEncGamma v
  | .delta => .wEncDelta v
  | .omega => .wEncOmega v
  | .fib => .wEncFib v
  | .ta => .wEncTa v
  | .raw => .wEncRaw v

/-- The `PREDICT` instruction of a codec (R77, R106). -/
def predictInstr (c : Codec) (v : Word64) : Instr :=
  match c with
  | .vlq => .predictVlq v
  | .ivlq => .predictIvlq v
  | .gamma => .predictGamma v
  | .delta => .predictDelta v
  | .omega => .predictOmega v
  | .fib => .predictFib v
  | .ta => .predictTa v
  | .raw => .predictRaw v

/-- The `R_DEC` instruction of a codec (R77, R105). -/
def decodeInstr (c : Codec) : Instr :=
  match c with
  | .vlq => .rDecVlq
  | .ivlq => .rDecIvlq
  | .gamma => .rDecGamma
  | .delta => .rDecDelta
  | .omega => .rDecOmega
  | .fib => .rDecFib
  | .ta => .rDecTa
  | .raw => .rDecRaw

/-- The operation field `OP = CMD[15:12]` (R68). -/
def opField (cmd : CmdWord) : Nat := (cmd.extractLsb' 12 4).toNat

/-- Format N: `CMD[11:0]` must be 0 (R69). -/
def decodeN (i : Instr) (cmd : CmdWord) : Except DecodeError Instr :=
  if cmd.extractLsb' 0 12 ≠ 0 then .error .reservedBits else .ok i

/-- Format O: `OWN = CMD[0]`, `CMD[11:1]` must be 0 (R70). -/
def decodeO (mk : Bool → Instr) (cmd : CmdWord) : Except DecodeError Instr :=
  if cmd.extractLsb' 1 11 ≠ 0 then .error .reservedBits else .ok (mk (cmd.getLsbD 0))

/-- Format B: `NB = CMD[6:0]` in 1..64, `CMD[11:7]` must be 0 (R71, R74). -/
def decodeB (mk : BitVec 7 → Instr) (cmd : CmdWord) : Except DecodeError Instr :=
  if cmd.extractLsb' 7 5 ≠ 0 then .error .reservedBits
  else if legalCount (cmd.extractLsb' 0 7) then .ok (mk (cmd.extractLsb' 0 7))
  else .error .badBitCount

/-- Format C: `CODEC = CMD[2:0]`, `CMD[11:3]` must be 0 (R72). -/
def decodeC (mk : Codec → Instr) (cmd : CmdWord) : Except DecodeError Instr :=
  if cmd.extractLsb' 3 9 ≠ 0 then .error .reservedBits else .ok (mk (codecOf (cmd.extractLsb' 0 3)))

/-- Format L: `LB = CMD[2:0]`, `CMD[11:3]` must be 0; all eight values decode (R73). -/
def decodeL (mk : BitVec 3 → Instr) (cmd : CmdWord) : Except DecodeError Instr :=
  if cmd.extractLsb' 3 9 ≠ 0 then .error .reservedBits else .ok (mk (cmd.extractLsb' 0 3))

/-- The decode function, total on every command: `OP` fixes the format (R77, R81). `ARG` is kept by the commands
that read it and dropped, unchecked, by the others (R75). -/
def decode (c : Command) : Except DecodeError Instr :=
  match opField c.cmd with
  | 0x1 => decodeO .wOpen c.cmd
  | 0x2 => decodeB (fun nb => .wBits nb c.arg) c.cmd
  | 0x3 => decodeN .wAlign c.cmd
  | 0x4 => decodeN .wClose c.cmd
  | 0x5 => decodeC (fun k => encodeInstr k c.arg) c.cmd
  | 0x6 => decodeC (fun k => predictInstr k c.arg) c.cmd
  | 0x7 => decodeL .cfgTa c.cmd
  | 0x9 => decodeO .rOpen c.cmd
  | 0xA => decodeB .rBits c.cmd
  | 0xB => decodeN .rPeek c.cmd
  | 0xC => decodeN .rAlign c.cmd
  | 0xD => decodeN .rClose c.cmd
  | 0xE => decodeC decodeInstr c.cmd
  | _ => .error .reservedOp

/-- The command that the bits of `w` stand for, numbered as `opcode_table.json` numbers them: bits 15..0 are `CMD`, the
bits above count on through `ARG`; bits at `nbits` and above are 0. -/
def tableCommand (nbits w : Nat) : Command :=
  { cmd := BitVec.ofNat 16 (w % 2 ^ nbits), arg := BitVec.ofNat 64 ((w % 2 ^ nbits) / 2 ^ 16) }

/-- The instruction the decoder reads from the bits `w` (none where the word is illegal). -/
def decodeTableWord (nbits w : Nat) : Option Instr :=
  match decode (tableCommand nbits w) with
  | .ok i => some i
  | .error _ => none

/-- The command of an instruction, written from the formats and the opcode map (R69 to R73, R77). `ARG` is 0 for a
command that ignores it, as in R83. -/
def encode : Instr → Command
  | .wOpen own => ⟨0x1000#16 ||| (BitVec.ofBool own).setWidth 16, 0⟩
  | .wBits nb v => ⟨0x2000#16 ||| nb.setWidth 16, v⟩
  | .wAlign => ⟨0x3000#16, 0⟩
  | .wClose => ⟨0x4000#16, 0⟩
  | .wEncVlq v => ⟨0x5000#16, v⟩
  | .wEncIvlq v => ⟨0x5001#16, v⟩
  | .wEncGamma v => ⟨0x5002#16, v⟩
  | .wEncDelta v => ⟨0x5003#16, v⟩
  | .wEncOmega v => ⟨0x5004#16, v⟩
  | .wEncFib v => ⟨0x5005#16, v⟩
  | .wEncTa v => ⟨0x5006#16, v⟩
  | .wEncRaw v => ⟨0x5007#16, v⟩
  | .predictVlq v => ⟨0x6000#16, v⟩
  | .predictIvlq v => ⟨0x6001#16, v⟩
  | .predictGamma v => ⟨0x6002#16, v⟩
  | .predictDelta v => ⟨0x6003#16, v⟩
  | .predictOmega v => ⟨0x6004#16, v⟩
  | .predictFib v => ⟨0x6005#16, v⟩
  | .predictTa v => ⟨0x6006#16, v⟩
  | .predictRaw v => ⟨0x6007#16, v⟩
  | .cfgTa lb => ⟨0x7000#16 ||| lb.setWidth 16, 0⟩
  | .rOpen own => ⟨0x9000#16 ||| (BitVec.ofBool own).setWidth 16, 0⟩
  | .rBits nb => ⟨0xA000#16 ||| nb.setWidth 16, 0⟩
  | .rPeek => ⟨0xB000#16, 0⟩
  | .rAlign => ⟨0xC000#16, 0⟩
  | .rClose => ⟨0xD000#16, 0⟩
  | .rDecVlq => ⟨0xE000#16, 0⟩
  | .rDecIvlq => ⟨0xE001#16, 0⟩
  | .rDecGamma => ⟨0xE002#16, 0⟩
  | .rDecDelta => ⟨0xE003#16, 0⟩
  | .rDecOmega => ⟨0xE004#16, 0⟩
  | .rDecFib => ⟨0xE005#16, 0⟩
  | .rDecTa => ⟨0xE006#16, 0⟩
  | .rDecRaw => ⟨0xE007#16, 0⟩

/-- The command with word `w` and operand `v`; refused where `v` is no 64-bit number (DEDUCED, log entry 8). -/
def asmCommand (w v : Nat) : Option Command :=
  if v < 2 ^ 64 then some ⟨BitVec.ofNat 16 w, BitVec.ofNat 64 v⟩ else none

/-- The assembler: the command word of each line as the table of R83 computes it. It refuses `N` outside 1..64, `OWN`
outside 0..1 and `LB` outside 0..7. -/
def assemble : Asm → Option Command
  | .wOpen own => if own ≤ 1 then asmCommand (0x1000 + own) 0 else none
  | .wBits n v => if 1 ≤ n ∧ n ≤ 64 then asmCommand (0x2000 + n) v else none
  | .wAlign => asmCommand 0x3000 0
  | .wClose => asmCommand 0x4000 0
  | .wEnc c v => asmCommand (0x5000 + codecNumber c) v
  | .pred c v => asmCommand (0x6000 + codecNumber c) v
  | .cfgTa lb => if lb ≤ 7 then asmCommand (0x7000 + lb) 0 else none
  | .rOpen own => if own ≤ 1 then asmCommand (0x9000 + own) 0 else none
  | .rBits n => if 1 ≤ n ∧ n ≤ 64 then asmCommand (0xA000 + n) 0 else none
  | .rPeek => asmCommand 0xB000 0
  | .rAlign => asmCommand 0xC000 0
  | .rClose => asmCommand 0xD000 0
  | .rDec c => asmCommand (0xE000 + codecNumber c) 0

/-- The expansion of a pseudo-instruction (R84). -/
def expandPseudo : Pseudo → Asm
  | .wBit b => .wBits 1 b
  | .wByte v => .wBits 8 v
  | .wFlush => .wAlign
  | .rBit => .rBits 1
  | .rByte => .rBits 8
  | .rSkip n => .rBits n

end Sys2Proof
end

