-- ==== Sys2Proof/Machine/Fetch.lean ====
section
/-! DEFINITION. How a command reaches the block: the host presents one input at a time (`10_state.md` R22,
`30_encoding.md` R66), the platform may assert reset between commands (`70_reset_and_hazards.md` R166). -/

namespace Sys2Proof.Machine

/-- The next input, and the state without it; none when the host presents nothing. -/
def nextInput (s : State) : Option (HostInput × State) :=
  match s.hostInputs with
  | [] => none
  | x :: rest => some (x, { s with hostInputs := rest })

/-- Between commands the block holds its state (R165). -/
def holdState (s : State) : State := s

/-- An illegal command word is refused before anything else (R78, R79, R153). -/
def illegalWord (s : State) : State := raise .illegalCommand s

/-- The host presents `c` next. -/
def present (c : Command) (s : State) : State := { s with hostInputs := .command c :: s.hostInputs }

end Sys2Proof.Machine
end

