-- ==== Sys2Proof/Machine/Step.lean ====
section
/-! DEFINITION. One step: one input of the host, taken and carried out atomically (`20_memory.md` R59, R61). -/

namespace Sys2Proof.Machine

/-- One step. With no input the block holds its state (R165); a reset input resets it (R166); a command is decoded,
an illegal one is refused (R153), and a legal one runs (R85, R154). -/
def step (s : State) : Host.Outcome State Fault Refusal :=
  match nextInput s with
  | none => .next (holdState s)
  | some (.reset, s) => .next (resetBlock s)
  | some (.command c, s) =>
    match decode c with
    | .error _ => .next (illegalWord s)
    | .ok i => exec i s

/-- The command of the table's word `w` is the one the host presents next. -/
def State.withFetchWord (s : State) (nbits w : Nat) : State := present (tableCommand nbits w) s

end Sys2Proof.Machine
end

