-- ==== Sys2Proof/Machine/Platform.lean ====
section
/-! DEFINITION. A platform with `N_INST` independent instances of the block, each with its own state and its own pair of
streams (`60_exceptions.md` R163). -/

namespace Sys2Proof.Machine

/-- The instances. They have no identifiers visible to commands (R163); the index is the platform's. -/
structure Platform where
  blocks : List State
deriving DecidableEq, Repr

/-- The platform at launch: one instance per source (R15, R163). -/
def Platform.launch (p : LaunchParams) : Platform := ⟨p.sources.map State.launch⟩

/-- Instance `k` takes a step; the others do nothing. Which instance steps next is the platform's choice, left to the
caller (log entry 5). -/
def Platform.stepBlock (p : Platform) (k : Fin p.blocks.length) : Host.Outcome Platform Fault Refusal :=
  match step p.blocks[k] with
  | .next t => .next ⟨p.blocks.set k t⟩
  | .fault r => .fault r
  | .refused r => .refused r

end Sys2Proof.Machine
end

