-- ==== Sys2Proof/Safety.lean ====
section
/-! DEFINITION. What a safe run of the block is, and the terms the claims are written in: the invariant that holds
between commands, what a command adds to the sink or takes from the source, the frames, and the code words of the eight
codecs as relations (stated from the rules, not through the encoders' loops). -/

namespace Sys2Proof.Machine

/-! ### The invariant -/

/-- The bytes pulled, in order, from the source's event record (R40). -/
def pulledBytes : List SrcEvent → List Byte
  | [] => []
  | .pull b :: l => b :: pulledBytes l
  | .release :: l => pulledBytes l

/-- The carry register holds nothing below its `cnt` valid bits: `ACC[63−CNT:0]` is 0 (R30, R35). -/
abbrev LowBitsZero (acc : Word64) (cnt : BitVec 4) : Prop := acc.toNat % 2 ^ (64 - cnt.toNat) = 0

/-- What holds of the state between commands. -/
structure State.Inv (s : State) : Prop where
  /-- `TA_LB` holds 1..6; 0 and 7 never occur (R24). -/
  taLb_legal : 1 ≤ s.taLb.toNat ∧ s.taLb.toNat ≤ 6
  /-- `STATUS` holds 0..6 (R25). -/
  status_legal : s.status.toNat ≤ 6
  /-- Without a result `RES` is 0 (R26, R27). -/
  res_of_noResult : s.resv = false → s.res = 0
  /-- An error gives no result (R26). -/
  noResult_of_error : s.status ≠ 0 → s.resv = false
  /-- `WCNT` holds 0..7 (R31). -/
  wCnt_le : s.wCnt.toNat ≤ 7
  /-- The layout of `WACC` (R30). -/
  wAcc_low : LowBitsZero s.wAcc s.wCnt
  /-- A closed writer owns nothing and holds no bit (R86, R90, R166). -/
  wClosed_empty : s.wState = .closed → s.wOwn = false ∧ s.wCnt = 0
  /-- `RCNT` holds 0..8 (R36). -/
  rCnt_le : s.rCnt.toNat ≤ 8
  /-- The layout of `RACC` (R35). -/
  rAcc_low : LowBitsZero s.rAcc s.rCnt
  /-- A reader that is not open holds no bit (R97, R152, R166). -/
  rNotOpen_empty : s.rState ≠ .opened → s.rCnt = 0
  /-- A closed reader owns nothing (R97, R166). -/
  rClosed_owns_nothing : s.rState = .closed → s.rOwn = false
  /-- `0 ≤ SRC_POS ≤ |SRC|` (R39). -/
  srcPos_le : s.srcPos ≤ s.src.length
  /-- The `Pull` events are `SRC[0..SRC_POS)` in order (R40). -/
  pulls_are_prefix : pulledBytes s.srcLog = s.src.take s.srcPos
  /-- The buffered bits are the last bits of the bytes pulled (R35). -/
  qr_is_suffix : qr s <:+ bitsOfBytes (s.src.take s.srcPos)

/-! ### Streams -/

/-- The bits a reader would get next: the buffered ones, then those of the bytes not pulled yet (R37, R39, R54). -/
def ahead (s : State) : Bits := qr s ++ bitsOfBytes (s.src.drop s.srcPos)

/-- From `s` to `t` the writer accepted exactly the bits `S`: the bytes sent and the bits pending after are the bits
pending before followed by `S`, and fewer than 8 stay pending (R87). -/
def Appended (s t : State) (S : Bits) : Prop :=
  (∃ bytes : List Byte, t.sink = s.sink ++ bytes.map SinkEvent.byte ∧ qw s ++ S = bitsOfBytes bytes ++ qw t) ∧
    t.wCnt.toNat ≤ 7 ∧ LowBitsZero t.wAcc t.wCnt

/-- From `s` to `t` the reader took exactly the next `n` bits, pulling `⌈max(0, n − RCNT) / 8⌉` bytes and no more (R94,
R99), each recorded in `SRCLOG`. -/
def Consumed (s t : State) (n : Nat) : Prop :=
  ahead t = (ahead s).drop n ∧
    t.srcPos = s.srcPos + (n - s.rCnt.toNat + 7) / 8 ∧
    8 * t.srcPos + s.rCnt.toNat = 8 * s.srcPos + n + t.rCnt.toNat ∧
    t.srcLog = s.srcLog ++ ((s.src.drop s.srcPos).take (t.srcPos - s.srcPos)).map SrcEvent.pull ∧
    (LowBitsZero s.rAcc s.rCnt → LowBitsZero t.rAcc t.rCnt)

/-! ### Frames -/

/-- `s` with another response and nothing else changed. -/
def withResponse (status : BitVec 3) (res : Word64) (resv : Bool) (s : State) : State :=
  { s with status := status, res := res, resv := resv }

/-- Only the response, `WACC`, `WCNT` and `SINK` may differ; the response is OK without a result. -/
def WriterFrame (s t : State) : Prop :=
  t = { s with status := 0, res := 0, resv := false, wAcc := t.wAcc, wCnt := t.wCnt, sink := t.sink }

/-- Only the response, `RACC`, `RCNT`, `SRC_POS` and `SRCLOG` may differ; the response is OK with the result `res`. -/
def ReaderFrame (res : Word64) (s t : State) : Prop :=
  t = { s with status := 0, res := res, resv := true, rAcc := t.rAcc, rCnt := t.rCnt, srcPos := t.srcPos,
               srcLog := t.srcLog }

/-- `s` after a stream error with code `status` that came when `n` more bytes had been pulled (R152). -/
def faultedAfter (status : BitVec 3) (n : Nat) (s : State) : State :=
  { s with status := status, res := 0, resv := false, rState := .faulted, rAcc := 0, rCnt := 0,
           srcPos := s.srcPos + n,
           srcLog := s.srcLog ++ ((s.src.drop s.srcPos).take n).map SrcEvent.pull }

/-- Everything of the writer channel (R28 to R31, R38). -/
def writerView (s : State) : WState × Bool × Word64 × BitVec 4 × List SinkEvent :=
  (s.wState, s.wOwn, s.wAcc, s.wCnt, s.sink)

/-- Everything of the reader channel (R33 to R36, R39, R40). -/
def readerView (s : State) : RState × Bool × Word64 × BitVec 4 × List Byte × Nat × List SrcEvent :=
  (s.rState, s.rOwn, s.rAcc, s.rCnt, s.src, s.srcPos, s.srcLog)

/-- The channel a command acts on. -/
inductive Side where
  | writer
  | reader
  | neither
deriving DecidableEq, Repr

/-- The channel of each command (R43). -/
def sideOf : Instr → Side
  | .wOpen _ => .writer
  | .wBits _ _ => .writer
  | .wAlign => .writer
  | .wClose => .writer
  | .wEncVlq _ => .writer
  | .wEncIvlq _ => .writer
  | .wEncGamma _ => .writer
  | .wEncDelta _ => .writer
  | .wEncOmega _ => .writer
  | .wEncFib _ => .writer
  | .wEncTa _ => .writer
  | .wEncRaw _ => .writer
  | .predictVlq _ => .neither
  | .predictIvlq _ => .neither
  | .predictGamma _ => .neither
  | .predictDelta _ => .neither
  | .predictOmega _ => .neither
  | .predictFib _ => .neither
  | .predictTa _ => .neither
  | .predictRaw _ => .neither
  | .cfgTa _ => .neither
  | .rOpen _ => .reader
  | .rBits _ => .reader
  | .rPeek => .reader
  | .rAlign => .reader
  | .rClose => .reader
  | .rDecVlq => .reader
  | .rDecIvlq => .reader
  | .rDecGamma => .reader
  | .rDecDelta => .reader
  | .rDecOmega => .reader
  | .rDecFib => .reader
  | .rDecTa => .reader
  | .rDecRaw => .reader

/-- The channel state each command needs (R154, point 2). -/
def Admitted (s : State) : Instr → Prop
  | .wOpen _ => s.wState = .closed
  | .wBits _ _ => s.wState = .opened
  | .wAlign => s.wState = .opened
  | .wClose => True
  | .wEncVlq _ => s.wState = .opened
  | .wEncIvlq _ => s.wState = .opened
  | .wEncGamma _ => s.wState = .opened
  | .wEncDelta _ => s.wState = .opened
  | .wEncOmega _ => s.wState = .opened
  | .wEncFib _ => s.wState = .opened
  | .wEncTa _ => s.wState = .opened
  | .wEncRaw _ => s.wState = .opened
  | .predictVlq _ => True
  | .predictIvlq _ => True
  | .predictGamma _ => True
  | .predictDelta _ => True
  | .predictOmega _ => True
  | .predictFib _ => True
  | .predictTa _ => True
  | .predictRaw _ => True
  | .cfgTa _ => True
  | .rOpen _ => s.rState = .closed
  | .rBits _ => s.rState = .opened
  | .rPeek => s.rState = .opened
  | .rAlign => s.rState = .opened
  | .rClose => True
  | .rDecVlq => s.rState = .opened
  | .rDecIvlq => s.rState = .opened
  | .rDecGamma => s.rState = .opened
  | .rDecDelta => s.rState = .opened
  | .rDecOmega => s.rState = .opened
  | .rDecFib => s.rState = .opened
  | .rDecTa => s.rState = .opened
  | .rDecRaw => s.rState = .opened

/-- The `STATUS` codes a legal command can end with (R151). -/
def possibleCodes : Instr → List (BitVec 3)
  | .wOpen _ => [0, 6]
  | .wBits _ _ => [0, 6]
  | .wAlign => [0, 6]
  | .wClose => [0]
  | .wEncVlq _ => [0, 1, 6]
  | .wEncIvlq _ => [0, 1, 6]
  | .wEncGamma _ => [0, 1, 6]
  | .wEncDelta _ => [0, 1, 6]
  | .wEncOmega _ => [0, 1, 6]
  | .wEncFib _ => [0, 1, 6]
  | .wEncTa _ => [0, 1, 6]
  | .wEncRaw _ => [0, 6]
  | .predictVlq _ => [0]
  | .predictIvlq _ => [0]
  | .predictGamma _ => [0]
  | .predictDelta _ => [0]
  | .predictOmega _ => [0]
  | .predictFib _ => [0]
  | .predictTa _ => [0]
  | .predictRaw _ => [0]
  | .cfgTa _ => [0, 4]
  | .rOpen _ => [0, 6]
  | .rBits _ => [0, 2, 6]
  | .rPeek => [0, 2, 6]
  | .rAlign => [0, 6]
  | .rClose => [0]
  | .rDecVlq => [0, 2, 3, 6]
  | .rDecIvlq => [0, 2, 3, 6]
  | .rDecGamma => [0, 2, 3, 6]
  | .rDecDelta => [0, 2, 3, 6]
  | .rDecOmega => [0, 2, 3, 6]
  | .rDecFib => [0, 2, 3, 6]
  | .rDecTa => [0, 2, 6]
  | .rDecRaw => [0, 2, 6]

/-! ### Command words -/

/-- The illegal command words, read as numbers: a reserved `OP` (R78), a reserved bit set or `NB` outside 1..64 (R79). -/
def IllegalWord (w : Nat) : Prop :=
  let op := w / 4096
  let area := w % 4096
  (op = 0x0 ∨ op = 0x8 ∨ op = 0xF) ∨
  ((op = 0x1 ∨ op = 0x9) ∧ 2 ≤ area) ∨
  ((op = 0x2 ∨ op = 0xA) ∧ (area = 0 ∨ 64 < area)) ∨
  ((op = 0x3 ∨ op = 0x4 ∨ op = 0xB ∨ op = 0xC ∨ op = 0xD) ∧ area ≠ 0) ∨
  ((op = 0x5 ∨ op = 0x6 ∨ op = 0x7 ∨ op = 0xE) ∧ 8 ≤ area)

/-! ### Code words -/

/-- `Σ_{i<m} (g_i + 1) · 128^i` (R115). -/
def groupSum : List Nat → Nat
  | [] => 0
  | g :: G => (g + 1) + 128 * groupSum G

/-- `S` is the code word of `v` in VLQ (`final = true`) or Inverted-VLQ (`final = false`): units of one flag bit and seven
group bits, the groups satisfying `v = (Σ (g_i + 1) · 128^i) − 1`, the flag `final` on the last unit only (R115, R116). -/
def VlqWord (final : Bool) (v : Nat) (S : Bits) : Prop :=
  ∃ (G : List Nat) (g : Nat), (∀ x ∈ G ++ [g], x < 128) ∧ v + 1 = groupSum (G ++ [g]) ∧
    S = (G.flatMap fun x => (!final) :: bin 7 x) ++ final :: bin 7 g

/-- `S` is `GammaBits(x)`: one zero fewer than `x` has bits, then `x` in binary (R125). -/
def GammaWord (x : Nat) (S : Bits) : Prop :=
  ∃ L, 2 ^ L ≤ x ∧ x < 2 ^ (L + 1) ∧ S = zeros L ++ bin (L + 1) x

/-- `S` is the Elias Delta code word of `x = v + 1`: the gamma code of `n + 1`, then `x` without its leading 1 (R129). -/
def DeltaWord (x : Nat) (S : Bits) : Prop :=
  ∃ n P, 2 ^ n ≤ x ∧ x < 2 ^ (n + 1) ∧ GammaWord (n + 1) P ∧ S = P ++ bin n (x - 2 ^ n)

/-- `S` is the chain of Elias Omega groups of `N`, outermost first, without the terminating 0 (R133). -/
inductive OmegaChain : Nat → Bits → Prop where
  | one : OmegaChain 1 []
  | group {N L : Nat} {S : Bits} (h1 : 1 ≤ L) (h2 : 2 ^ L ≤ N) (h3 : N < 2 ^ (L + 1)) (h4 : OmegaChain L S) :
      OmegaChain N (S ++ bin (L + 1) N)

/-- The value of Fibonacci bits from position `i` on; position `i` stands for the Fibonacci number 1, 2, 3, 5, … (R137). -/
def fibValue : Nat → Bits → Nat
  | _, [] => 0
  | i, b :: B => (if b then Nat.fib (i + 2) else 0) + fibValue (i + 1) B

/-- `S` is the Fibonacci code word of `x = v + 1`: non-consecutive Fibonacci numbers that sum to `x`, smallest first, up
to the highest, then the terminating 1 (R138). -/
def FibWord (x : Nat) (S : Bits) : Prop :=
  ∃ B, ¬ [true, true] <:+: B ++ [true] ∧ fibValue 0 (B ++ [true]) = x ∧ S = B ++ [true] ++ [true]

/-- `S` is the Thompson-Alpha code word of `x = v + 1` with an `lb`-bit prefix: the number of bits after the leading 1,
then those bits (R143). -/
def TaWord (lb x : Nat) (S : Bits) : Prop :=
  ∃ L, 2 ^ L ≤ x ∧ x < 2 ^ (L + 1) ∧ L < 2 ^ lb ∧ S = bin lb L ++ bin L (x - 2 ^ L)

/-- `S` is the code word of the symbol `v` in codec `c`, with `TA_LB = lb` for Thompson-Alpha (R101, R103). -/
def CodeWord (c : Codec) (lb v : Nat) (S : Bits) : Prop :=
  match c with
  | .vlq => VlqWord true v S
  | .ivlq => VlqWord false v S
  | .gamma => GammaWord (v + 1) S
  | .delta => DeltaWord (v + 1) S
  | .omega => ∃ P, OmegaChain (v + 1) P ∧ S = P ++ [false]
  | .fib => FibWord (v + 1) S
  | .ta => TaWord lb (v + 1) S
  | .raw => S = bin 64 v

/-! ### What one codec command does -/

/-- `W_ENC` of one codec: its word, and its outcome in every case of R104. -/
def EncoderSpec (c : Codec) (i : Word64 → Instr) (word : CmdWord) (max : Nat → Nat) : Prop :=
  ∀ (v : Word64) (s : State),
    decode ⟨word, v⟩ = .ok (i v) ∧
    (s.wState = .closed → exec (i v) s = .next (withResponse 6 0 false s)) ∧
    (s.wState = .opened → max s.taLb.toNat < v.toNat → exec (i v) s = .next (withResponse 1 0 false s)) ∧
    (s.wState = .opened → v.toNat ≤ max s.taLb.toNat →
      ∃ t S, exec (i v) s = .next t ∧ CodeWord c s.taLb.toNat v.toNat S ∧ Appended s t S ∧ WriterFrame s t)

/-- `R_DEC` of one codec: its word, its admission (R105), and the symbol it returns where the bits ahead begin with a
code word (R112). -/
def DecoderSpec (c : Codec) (i : Instr) (word : CmdWord) (max : Nat → Nat) : Prop :=
  ∀ (s : State) (arg : Word64),
    decode ⟨word, arg⟩ = .ok i ∧
    (s.rState ≠ .opened → exec i s = .next (withResponse 6 0 false s)) ∧
    ∀ (v : Word64) (S rest : Bits), s.rState = .opened → v.toNat ≤ max s.taLb.toNat →
      CodeWord c s.taLb.toNat v.toNat S → ahead s = S ++ rest →
      ∃ t, exec i s = .next t ∧ Consumed s t S.length ∧ ReaderFrame v s t

/-- `PREDICT` of one codec: its word, None out of range, else the length `n` that `Len` relates to the symbol (R106). -/
def PredictSpec (i : Word64 → Instr) (word : CmdWord) (max : Nat → Nat) (Len : Nat → Nat → Nat → Prop) : Prop :=
  ∀ (v : Word64) (s : State),
    decode ⟨word, v⟩ = .ok (i v) ∧
    (max s.taLb.toNat < v.toNat → exec (i v) s = .next (withResponse 0 0 false s)) ∧
    (v.toNat ≤ max s.taLb.toNat →
      ∃ n, Len s.taLb.toNat v.toNat n ∧ n ≤ 127 ∧ exec (i v) s = .next (withResponse 0 (BitVec.ofNat 64 n) true s))

/-- `n` is 8 bits per unit, for the `k` in 1..10 with `T_k ≤ v < T_(k+1)`, `T_k = (Σ_{i<k} 128^i) − 1` (R122, R124). -/
def VlqLength (v n : Nat) : Prop :=
  ∃ k, 1 ≤ k ∧ k ≤ 10 ∧ n = 8 * k ∧
    ((List.range k).map (128 ^ ·)).sum ≤ v + 1 ∧ v + 1 < ((List.range (k + 1)).map (128 ^ ·)).sum

/-- The bits a decoder had seen when it ended in `t`: the buffered ones and those of the bytes it pulled. -/
def seenBits (s t : State) : Bits := qr s ++ bitsOfBytes ((s.src.drop s.srcPos).take (t.srcPos - s.srcPos))

/-- The bits up to a detection point of `R_DEC.vlq` (`final = true`) or `R_DEC.ivlq` (`final = false`): non-final units whose
sum is still within 64 bits, then one unit, final or not, with which the sum passes `2^64 − 1` (R120, R121). -/
def VlqOverflowPoint (final : Bool) (P : Bits) : Prop :=
  ∃ (G : List Nat) (g : Nat) (f : Bool), (∀ x ∈ G ++ [g], x < 128) ∧ groupSum G ≤ 2 ^ 64 - 1 ∧
    2 ^ 64 - 1 < groupSum (G ++ [g]) ∧ P = (G.flatMap fun x => (!final) :: bin 7 x) ++ f :: bin 7 g

/-- The bits up to a detection point of `R_DEC.gamma`: the 64th leading zero (R127). -/
def GammaOverflowPoint (P : Bits) : Prop := P = zeros 64

/-- The bits up to a detection point of `R_DEC.delta`: the 64th leading zero of the prefix, or a whole prefix whose value
exceeds 64 (R131). -/
def DeltaOverflowPoint (P : Bits) : Prop := P = zeros 64 ∨ ∃ L, 64 < L ∧ L < 2 ^ 64 ∧ GammaWord L P

/-- The bits up to a detection point of `R_DEC.omega`: the groups up to a value `N ≥ 64`, then the leading 1 of a further
group (R135). -/
def OmegaOverflowPoint (P : Bits) : Prop :=
  ∃ N C, 64 ≤ N ∧ N < 2 ^ 64 ∧ OmegaChain N C ∧ P = C ++ [true]

/-- The bits up to a detection point of `R_DEC.fib`: no terminator so far, the sum before the last bit `b` within 64 bits;
and `b` is a 1 at a position below 92 with which the sum passes `2^64 − 1`, or `b` is any bit at position 92 (R140). -/
def FibOverflowPoint (P : Bits) : Prop :=
  ∃ B b, P = B ++ [b] ∧ ¬ [true, true] <:+: P ∧ fibValue 0 B ≤ 2 ^ 64 - 1 ∧
    ((B.length < 92 ∧ b = true ∧ 2 ^ 64 - 1 < fibValue 0 P) ∨ B.length = 92)

/-- `P` is the bits a decoder of codec `c` has read when it meets a detection point (R110). Thompson-Alpha and Raw have
none (R145, R149). -/
def OverflowPoint (c : Codec) (P : Bits) : Prop :=
  match c with
  | .vlq => VlqOverflowPoint true P
  | .ivlq => VlqOverflowPoint false P
  | .gamma => GammaOverflowPoint P
  | .delta => DeltaOverflowPoint P
  | .omega => OmegaOverflowPoint P
  | .fib => FibOverflowPoint P
  | .ta => False
  | .raw => False

/-- `s` after a decode that ended with SymbolOverflow when it had read the bits `P`: `⌈max(0, |P| − RCNT) / 8⌉` bytes are
pulled (R92, R99), the reader is FAULTED (R152). -/
def overflowAfter (P : Bits) (s : State) : State := faultedAfter 3 ((P.length - s.rCnt.toNat + 7) / 8) s

/-- SymbolOverflow of one codec is exact, on an open reader (R110, R111). Where the bits ahead reach a detection point the
decode ends there with SymbolOverflow, whatever follows, with the bytes pulled that hold the bits up to there and no
more; it ends with SymbolOverflow nowhere else; and then the bits seen begin no code word, and are the beginning of no
code word, of a symbol in range. -/
def OverflowExact (c : Codec) (max : Nat) : Prop :=
  ∀ s : State, s.rState = .opened →
    (∀ P : Bits, OverflowPoint c P → P <+: ahead s → exec (decodeInstr c) s = .next (overflowAfter P s)) ∧
    ∀ t : State, exec (decodeInstr c) s = .next t → t.status = 3 →
      (∃ P, OverflowPoint c P ∧ P <+: ahead s ∧ t = overflowAfter P s) ∧
      ∀ (v : Nat) (S : Bits), v ≤ max → CodeWord c s.taLb.toNat v S →
        ¬ S <+: seenBits s t ∧ ¬ seenBits s t <+: S

/-! ### The assembler -/

/-- The instruction a line of the assembler's language stands for, its numbers in range (R83, with the opcode map R77). -/
def asmInstr : Asm → Instr
  | .wOpen own => .wOpen (own == 1)
  | .wBits n v => .wBits (BitVec.ofNat 7 n) (BitVec.ofNat 64 v)
  | .wAlign => .wAlign
  | .wClose => .wClose
  | .wEnc c v => encodeInstr c (BitVec.ofNat 64 v)
  | .pred c v => predictInstr c (BitVec.ofNat 64 v)
  | .cfgTa lb => .cfgTa (BitVec.ofNat 3 lb)
  | .rOpen own => .rOpen (own == 1)
  | .rBits n => .rBits (BitVec.ofNat 7 n)
  | .rPeek => .rPeek
  | .rAlign => .rAlign
  | .rClose => .rClose
  | .rDec c => decodeInstr c

/-- The lines the assembler does not refuse: `N` in 1..64, `OWN` in 0..1, `LB` in 0..7 (R83), and `V` a 64-bit number (log
entry 8). -/
def AsmLegal : Asm → Prop
  | .wOpen own => own ≤ 1
  | .wBits n v => 1 ≤ n ∧ n ≤ 64 ∧ v < 2 ^ 64
  | .wAlign => True
  | .wClose => True
  | .wEnc _ v => v < 2 ^ 64
  | .pred _ v => v < 2 ^ 64
  | .cfgTa lb => lb ≤ 7
  | .rOpen own => own ≤ 1
  | .rBits n => 1 ≤ n ∧ n ≤ 64
  | .rPeek => True
  | .rAlign => True
  | .rClose => True
  | .rDec _ => True

/-! ### Several commands -/

/-- Commands one after the other; none where one stops the machine. -/
def runAll : List Instr → State → Option State
  | [], s => some s
  | i :: l, s =>
    match exec i s with
    | .next t => runAll l t
    | .fault _ => none
    | .refused _ => none

/-- Decode one symbol with each codec in order, giving the symbols; none where a decode does not end with OK. -/
def decodeAll : List Codec → State → Option (List Word64 × State)
  | [], s => some ([], s)
  | c :: l, s =>
    match exec (decodeInstr c) s with
    | .next t => if t.status = 0 then (decodeAll l t).map fun r => (t.res :: r.1, r.2) else none
    | .fault _ => none
    | .refused _ => none

/-- The `W_BITS` command that writes the bit string `S` of 1 to 64 bits (R98). -/
def writeBitsInstr (S : Bits) : Instr := .wBits (BitVec.ofNat 7 S.length) (BitVec.ofNat 64 (val S))

end Sys2Proof.Machine
end

