-- ==== Sys2Proof/Certificates/Slice0/Obligations.lean ====
section
/-! DEFINITION. The statements for the provers. Each formalises rules of spec/ that OBLIGATIONS.json names; where a
statement rests on a choice of the model its docstring says so. Two things hold of many statements and are said here once.
One that gives the whole next state also says that the model's own field `hostInputs` stays as it is (log entry 1). One
that holds for every state also covers register values that never occur between commands (log entry 7). -/

open Sys2Proof Sys2Proof.Machine

/-- For every well-formed instruction i, with every operand at every value its encoding admits, decode (encode i) is
i. (R69, R70, R71, R72, R73, R77, R81) -/
def Obligations.DecodeOfEncodeIsInstruction : Prop :=
  ∀ i : Instr, i.wellFormed = true → decode (encode i) = .ok i

/-- If a command c decodes to i, then i is well-formed, its encoding has the command word of c, its encoded ARG is the
ARG of c or 0, and where it is not the ARG of c the word decodes to i whatever ARG is delivered. (That a term
carries no ignored ARG and is encoded with ARG 0 is the model's reading, DEDUCED, log entry 3; the table of R83
gives the same 0.) (R75, R80, R81, R83) -/
def Obligations.EncodeOfDecodeIsWord : Prop :=
  ∀ (c : Command) (i : Instr), decode c = .ok i →
    i.wellFormed = true ∧ (encode i).cmd = c.cmd ∧
    ((encode i).arg = c.arg ∨ ((encode i).arg = 0 ∧ ∀ a : Word64, decode ⟨c.cmd, a⟩ = .ok i))

/-- For every command word and ARG: the decoder refuses it if and only if the word, read as a number, has a reserved
OP, an operand area with a reserved bit set, or an NB of 0 or above 64; otherwise it gives a well-formed
instruction. (R78, R79, R80, R81) -/
def Obligations.DecodeRefusesExactlyIllegalWords : Prop :=
  ∀ (w : CmdWord) (a : Word64),
    ((∃ e, decode ⟨w, a⟩ = .error e) ↔ IllegalWord w.toNat) ∧
    (¬ IllegalWord w.toNat → ∃ i, decode ⟨w, a⟩ = .ok i ∧ i.wellFormed = true)

/-- One word of each format and family, written out from the encodings of the opcode table, decodes to the
instruction it stands for. (R83, R77) -/
def Obligations.DecodeSampleWords : Prop :=
  decode ⟨0b0001000000000001#16, 0#64⟩ = .ok (.wOpen true) ∧
    decode ⟨0b0010000000000101#16, 0x13#64⟩ = .ok (.wBits 5#7 0x13#64) ∧
    decode ⟨0b0011000000000000#16, 0#64⟩ = .ok .wAlign ∧
    decode ⟨0b0101000000000010#16, 4#64⟩ = .ok (.wEncGamma 4#64) ∧
    decode ⟨0b0110000000000101#16, 1000#64⟩ = .ok (.predictFib 1000#64) ∧
    decode ⟨0b0111000000000011#16, 0#64⟩ = .ok (.cfgTa 3#3) ∧
    decode ⟨0b1010000000010000#16, 0#64⟩ = .ok (.rBits 16#7) ∧
    decode ⟨0b1110000000000110#16, 0#64⟩ = .ok .rDecTa

/-- The assembler gives no command exactly for the lines whose numbers are out of range (N outside 1..64, OWN outside
0..1, LB outside 0..7, V of 2^64 or more). If it gives a command for a line, the instruction the line stands for is
well-formed, the command is its encoding and decodes to it; every well-formed instruction is the one that some line
stands for, and that line assembles to its encoding; and the six pseudo-instructions assemble to the words of their
expansions. (That a value of 65 bits or more is refused is the model's choice, DEDUCED, log entry 8; that an ignored
ARG is encoded as 0 is DEDUCED, log entry 3, and in R83's table.) (R83, R84, R77) -/
def Obligations.AssemblerAgreesWithEncoder : Prop :=
  (∀ l : Asm, assemble l = none ↔ ¬ AsmLegal l) ∧
    (∀ (l : Asm) (c : Command), assemble l = some c →
      (asmInstr l).wellFormed = true ∧ encode (asmInstr l) = c ∧ decode c = .ok (asmInstr l)) ∧
    (∀ i : Instr, i.wellFormed = true → ∃ l, asmInstr l = i ∧ assemble l = some (encode i)) ∧
    (∀ v : Nat, v < 2 ^ 64 →
      assemble (expandPseudo (.wBit v)) = some ⟨0x2001, BitVec.ofNat 64 v⟩ ∧
      assemble (expandPseudo (.wByte v)) = some ⟨0x2008, BitVec.ofNat 64 v⟩) ∧
    assemble (expandPseudo .wFlush) = some ⟨0x3000, 0⟩ ∧
    assemble (expandPseudo .rBit) = some ⟨0xA001, 0⟩ ∧
    assemble (expandPseudo .rByte) = some ⟨0xA008, 0⟩ ∧
    ∀ n : Nat, 1 ≤ n → n ≤ 64 → assemble (expandPseudo (.rSkip n)) = some ⟨0xA000 + BitVec.ofNat 16 n, 0⟩

/-- If the next input is a command c that decodes to i, then i is well-formed and the step is exec of i at the state
without that input. (The list of inputs is the model's own, log entry 1.) (R22, R61, R66, R85) -/
def Obligations.StepRunsDecodedCommand : Prop :=
  ∀ (s : State) (c : Command) (rest : List HostInput) (i : Instr),
    s.hostInputs = .command c :: rest → decode c = .ok i →
    i.wellFormed = true ∧ step s = exec i { s with hostInputs := rest }

/-- If the next input is a command whose word has a reserved OP, a reserved bit set or NB outside 1..64, the step gives
the same state with STATUS = 5, RES = 0, RESV = 0 and the input taken, whatever ARG is; a faulted reader stays
faulted. (The list of inputs, and that the step takes the first of them, is the model's own, DESIGN CHOICE, log
entry 1.) (R78, R79, R153) -/
def Obligations.StepRefusesIllegalWord : Prop :=
  ∀ (s : State) (c : Command) (rest : List HostInput),
    s.hostInputs = .command c :: rest → IllegalWord c.cmd.toNat →
    step s = .next { s with hostInputs := rest, status := 5, res := 0, resv := false }

/-- If the next input is a reset, the step sets the twelve block registers to the values of R45, sends nothing, pulls
nothing, sends no Close or Release, and leaves SINK, SRC, SRC_POS and SRCLOG as they are. (The list of inputs, that
the step takes the first and that a reset leaves the rest as it is, is the model's own, DESIGN CHOICE, log entry 1.)
(R45, R166) -/
def Obligations.StepResetInput : Prop :=
  ∀ (s : State) (rest : List HostInput), s.hostInputs = .reset :: rest →
    step s = .next { s with
      taLb := 6, status := 0, res := 0, resv := false,
      wState := .closed, wOwn := false, wAcc := 0, wCnt := 0,
      rState := .closed, rOwn := false, rAcc := 0, rCnt := 0, hostInputs := rest }

/-- If no input is left to present, the step changes nothing. (The list of inputs is the model's own, log entry 1.)
(R165, R166) -/
def Obligations.StepWithoutInputHoldsState : Prop :=
  ∀ s : State, s.hostInputs = [] → step s = .next s

/-- At the start of a run with any source every register has its reset value, SINK and SRCLOG are empty, SRC_POS is
0 and SRC is the source; a reset in the middle of a run gives the same registers and leaves SINK, SRC, SRC_POS
and SRCLOG as they are. (That State.reset itself has the empty source is the model's choice, log entry 2, and is
not stated here.) (R45) -/
def Obligations.ResetRegisterValues : Prop :=
  (∀ src : List Byte, ∃ t, State.launch src = t ∧
      t.taLb = 6 ∧ t.status = 0 ∧ t.res = 0 ∧ t.resv = false ∧ t.wState = .closed ∧ t.wOwn = false ∧ t.wAcc = 0 ∧
      t.wCnt = 0 ∧ t.rState = .closed ∧ t.rOwn = false ∧ t.rAcc = 0 ∧ t.rCnt = 0 ∧
      t.sink = [] ∧ t.srcLog = [] ∧ t.srcPos = 0 ∧ t.src = src) ∧
    (∀ s : State, ∃ t, resetBlock s = t ∧
      t.taLb = 6 ∧ t.status = 0 ∧ t.res = 0 ∧ t.resv = false ∧ t.wState = .closed ∧ t.wOwn = false ∧ t.wAcc = 0 ∧
      t.wCnt = 0 ∧ t.rState = .closed ∧ t.rOwn = false ∧ t.rAcc = 0 ∧ t.rCnt = 0 ∧
      t.sink = s.sink ∧ t.srcLog = s.srcLog ∧ t.srcPos = s.srcPos ∧ t.src = s.src)

/-- State.reset and State.launch src, for every src, meet State.Inv. (The empty source of State.reset is the model's
choice, DESIGN CHOICE, log entry 2.) (R24, R25, R31, R36, R39, R40, R45) -/
def Obligations.ResetMeetsInvariant : Prop :=
  State.Inv State.reset ∧ ∀ src : List Byte, State.Inv (State.launch src)

/-- From every state that meets State.Inv (TA_LB in 1..6, STATUS in 0..6, no result with an error, WCNT ≤ 7 and RCNT ≤ 8
with the carry registers 0 below their valid bits, closed channels empty and owning nothing, SRC_POS ≤ |SRC|, the
Pull events exactly SRC[0..SRC_POS), the buffered bits the last bits pulled), a step that answers a next state gives
one that meets it. (The list of inputs that the step reads is the model's own, DESIGN CHOICE, log entry 1.) (R24,
R25, R26, R27, R30, R31, R33, R35, R36, R39, R40) -/
def Obligations.StepKeepsInvariant : Prop :=
  ∀ s t : State, State.Inv s → step s = .next t → State.Inv t

/-- If a step answers a next state t, the old SINK is a prefix of the new one, the old SRCLOG of the new one, SRC is
unchanged, SRC_POS does not decrease, and it stays within SRC if it was. (The list of inputs that the step reads is
the model's own, DESIGN CHOICE, log entry 1.) (R38, R39, R40, R49, R52) -/
def Obligations.StreamRecordsOnlyGrow : Prop :=
  ∀ s t : State, step s = .next t →
    s.sink <+: t.sink ∧ s.srcLog <+: t.srcLog ∧ t.src = s.src ∧ s.srcPos ≤ t.srcPos ∧
    (s.srcPos ≤ s.src.length → t.srcPos ≤ t.src.length)

/-- For every instruction and state exec answers a next state; its STATUS is 0..6; with a nonzero STATUS there is no
result; without a result RES is 0. (That nothing stops the block is DEDUCED, log entry 10; the terms with a bit
count outside 1..64 are log entry 4, DEDUCED.) (R25, R26, R27, R67) -/
def Obligations.EveryCommandAnswersOnce : Prop :=
  ∀ (i : Instr) (s : State), ∃ t, exec i s = .next t ∧ t.status.toNat ≤ 6 ∧
    (t.status ≠ 0 → t.resv = false) ∧ (t.resv = false → t.res = 0)

/-- For every well-formed instruction: if the channel is not in the state that R154 names for it, the command only
sets STATUS = 6, RES = 0, RESV = 0; if it is, STATUS is not 6. (R154, R151) -/
def Obligations.AdmissionDecidesIllegalState : Prop :=
  ∀ (i : Instr) (s : State), i.wellFormed = true →
    (¬ Admitted s i → exec i s = .next (withResponse 6 0 false s)) ∧
    (∀ t, Admitted s i → exec i s = .next t → t.status ≠ 6)

/-- For every well-formed instruction the STATUS after it is 0 or a code that R151 lists for the command; R_DEC.ta
and R_DEC.raw never end with SymbolOverflow and W_ENC.raw never with ValueOutOfRange. For R_DEC.ta TA_LB is
taken to be at most 6 (R24). (R151, R145, R148, R149) -/
def Obligations.StatusCodesByCommand : Prop :=
  ∀ (i : Instr) (s t : State), i.wellFormed = true → s.taLb.toNat ≤ 6 → exec i s = .next t →
    t.status ∈ possibleCodes i

/-- If a command of any instruction ends with ValueOutOfRange, ConfigurationInvalid, IllegalCommand or IllegalState,
the state is as before but for STATUS, RES = 0 and RESV = 0; if it ends with StreamTruncated or SymbolOverflow,
the state is as before but for the response, QR emptied, the reader FAULTED (R_OWN unchanged), and the bytes
pulled up to that point, which stay pulled and recorded. (R152) -/
def Obligations.ErrorEffects : Prop :=
  ∀ (i : Instr) (s t : State), exec i s = .next t → t.status ≠ 0 →
    ((t.status = 1 ∨ t.status = 4 ∨ t.status = 5 ∨ t.status = 6) ∧ t = withResponse t.status 0 false s) ∨
    ((t.status = 2 ∨ t.status = 3) ∧ ∃ n, n ≤ s.src.length - s.srcPos ∧ t = faultedAfter t.status n s)

/-- After a writer command everything of the reader channel and its source is as before; after a reader command
everything of the writer channel and the sink; after PREDICT and CFG_TA both. TA_LB changes only with CFG_TA, and
the inputs still to come never change. (The list of the inputs still to come is the model's own, DESIGN CHOICE, log
entry 1.) (R43, R44, R63, R102) -/
def Obligations.ChannelsAndConfigurationFrame : Prop :=
  ∀ (i : Instr) (s t : State), exec i s = .next t →
    (sideOf i ≠ .reader → readerView t = readerView s) ∧
    (sideOf i ≠ .writer → writerView t = writerView s) ∧
    ((∀ lb, i ≠ .cfgTa lb) → t.taLb = s.taLb) ∧
    t.src = s.src ∧ t.hostInputs = s.hostInputs

/-- Two states that agree on TA_LB and on the reader channel agree on the reader channel, TA_LB and the response
after any command that is not a writer command; the same with the channels exchanged. (R43, R44, R63) -/
def Obligations.ChannelsDoNotReadEachOther : Prop :=
  ∀ (i : Instr) (s s' t t' : State), s.taLb = s'.taLb → exec i s = .next t → exec i s' = .next t' →
    (sideOf i ≠ .writer → readerView s = readerView s' →
      readerView t = readerView t' ∧ t.taLb = t'.taLb ∧ t.response = t'.response) ∧
    (sideOf i ≠ .reader → writerView s = writerView s' →
      writerView t = writerView t' ∧ t.taLb = t'.taLb ∧ t.response = t'.response)

/-- If instance k of a platform takes a step and the platform answers p', then p' has as many instances, instance k
of p' is what its own step answers, and every other instance is unchanged. (Which instance steps next is left to
the caller, log entry 5.) (R163) -/
def Obligations.InstancesShareNothing : Prop :=
  ∀ (p p' : Platform) (k : Fin p.blocks.length), p.stepBlock k = .next p' →
    p'.blocks.length = p.blocks.length ∧
    (∃ t, step p.blocks[k] = .next t ∧ p'.blocks[k.val]? = some t) ∧
    ∀ j : Nat, j ≠ k.val → p'.blocks[j]? = p.blocks[j]?

/-- The words 0x1000 and 0x1001 decode to W_OPEN with OWN 0 and 1, whatever ARG is. On a closed writer W_OPEN sets
W_STATE = OPEN, W_OWN = OWN, WACC = 0, WCNT = 0 and answers OK without a result, changing nothing else; on an
open writer it only answers IllegalState. (R86) -/
def Obligations.WOpenCreatesEmptyWriter : Prop :=
  ∀ (own : Bool) (arg : Word64) (s : State),
    decode ⟨0x1000#16 + (if own then 1 else 0), arg⟩ = .ok (.wOpen own) ∧
    (s.wState = .closed → exec (.wOpen own) s = .next { s with
      status := 0, res := 0, resv := false, wState := .opened, wOwn := own, wAcc := 0, wCnt := 0 }) ∧
    (s.wState = .opened → exec (.wOpen own) s = .next (withResponse 6 0 false s))

/-- For n in 1..64 the word 0x2000 + n decodes to W_BITS n. On an open writer it sends ⌊(WCNT + n) / 8⌋ bytes; the bits
sent followed by the bits pending are the bits pending before followed by the n-bit binary form of ARG mod 2^n;
fewer than 8 stay pending; only the writer's accumulator, SINK and the response (OK, no result) change. On a closed
writer it only answers IllegalState. With NB outside 1..64 it only answers IllegalCommand. (This last clause, about
a term that no legal word stands for, is the model's reading of R79 and R153, DEDUCED, log entry 4.) (R88, R79,
R153) -/
def Obligations.WBitsAppendsField : Prop :=
  ∀ (nb : BitVec 7) (v : Word64) (s : State),
    (1 ≤ nb.toNat ∧ nb.toNat ≤ 64 →
      decode ⟨0x2000#16 + nb.setWidth 16, v⟩ = .ok (.wBits nb v) ∧
      (s.wState = .closed → exec (.wBits nb v) s = .next (withResponse 6 0 false s)) ∧
      (s.wState = .opened → ∃ t, exec (.wBits nb v) s = .next t ∧
        Appended s t (bin nb.toNat (v.toNat % 2 ^ nb.toNat)) ∧
        t.sink.length = s.sink.length + (s.wCnt.toNat + nb.toNat) / 8 ∧ WriterFrame s t)) ∧
    (nb.toNat = 0 ∨ 64 < nb.toNat → exec (.wBits nb v) s = .next (withResponse 5 0 false s))

/-- The word 0x3000 decodes to W_ALIGN. On an open writer, in a state that meets the invariant, it sends the bytes
whose bits are the pending bits padded with zeros to a multiple of 8 (none if nothing is pending, else exactly
one), leaves nothing pending and the writer open, and answers OK; on a closed writer it only answers
IllegalState. (R89) -/
def Obligations.WAlignPadsPartialByte : Prop :=
  ∀ (arg : Word64) (s : State), State.Inv s →
    decode ⟨0x3000#16, arg⟩ = .ok .wAlign ∧
    (s.wState = .closed → exec .wAlign s = .next (withResponse 6 0 false s)) ∧
    (s.wState = .opened → ∃ bytes : List Byte,
      bytes.length = (if s.wCnt = 0 then 0 else 1) ∧
      bitsOfBytes bytes = qw s ++ zeros ((8 - s.wCnt.toNat) % 8) ∧
      exec .wAlign s = .next { s with status := 0, res := 0, resv := false, wAcc := 0, wCnt := 0,
                                      sink := s.sink ++ bytes.map SinkEvent.byte })

/-- The word 0x4000 decodes to W_CLOSE. On an open writer, in a state that meets the invariant, it sends the pending
bits padded with zeros, then Close if the writer owns the sink, and leaves the writer closed, owning nothing,
its accumulator empty; on a closed writer it changes nothing but the response. It always answers OK without a
result. (R90) -/
def Obligations.WCloseFlushesAndReleases : Prop :=
  ∀ (arg : Word64) (s : State), State.Inv s →
    decode ⟨0x4000#16, arg⟩ = .ok .wClose ∧
    (s.wState = .closed → exec .wClose s = .next (withResponse 0 0 false s)) ∧
    (s.wState = .opened → ∃ bytes : List Byte,
      bytes.length = (if s.wCnt = 0 then 0 else 1) ∧
      bitsOfBytes bytes = qw s ++ zeros ((8 - s.wCnt.toNat) % 8) ∧
      exec .wClose s = .next { s with
        status := 0, res := 0, resv := false, wState := .closed, wOwn := false, wAcc := 0, wCnt := 0,
        sink := s.sink ++ bytes.map SinkEvent.byte ++ (if s.wOwn then [SinkEvent.close] else []) })

/-- For every open writer that meets the invariant and every bit string S there are bytes whose bits are QW ++ S ++
zeros(p) with p < 8, such that for every split of S into pieces of 1 to 64 bits the W_BITS commands of the
pieces followed by W_ALIGN append exactly these bytes to SINK. (R98) -/
def Obligations.SplitInvariance : Prop :=
  ∀ (s : State) (S : Bits), State.Inv s → s.wState = .opened →
    ∃ (bytes : List Byte) (p : Nat), p < 8 ∧ bitsOfBytes bytes = qw s ++ S ++ zeros p ∧
      ∀ pieces : List Bits, pieces.flatten = S → (∀ P ∈ pieces, 1 ≤ P.length ∧ P.length ≤ 64) →
        ∃ t, runAll (pieces.map writeBitsInstr ++ [.wAlign]) s = some t ∧
          t.sink = s.sink ++ bytes.map SinkEvent.byte

/-- The words 0x9000 and 0x9001 decode to R_OPEN with OWN 0 and 1. On a closed reader R_OPEN sets R_STATE = OPEN,
R_OWN = OWN, RACC = 0, RCNT = 0 and answers OK without a result, changing nothing else (SRC_POS among it); on an
open or faulted reader it only answers IllegalState. (R91) -/
def Obligations.ROpenCreatesEmptyReader : Prop :=
  ∀ (own : Bool) (arg : Word64) (s : State),
    decode ⟨0x9000#16 + (if own then 1 else 0), arg⟩ = .ok (.rOpen own) ∧
    (s.rState = .closed → exec (.rOpen own) s = .next { s with
      status := 0, res := 0, resv := false, rState := .opened, rOwn := own, rAcc := 0, rCnt := 0 }) ∧
    (s.rState = .opened ∨ s.rState = .faulted → exec (.rOpen own) s = .next (withResponse 6 0 false s))

/-- For n in 1..64 the word 0xA000 + n decodes to R_BITS n. On an open reader with SRC_POS within SRC: if n bits are
ahead, RES is their value zero-extended, they are consumed, exactly ⌈max(0, n − RCNT) / 8⌉ bytes are pulled and
nothing else changes; if not, all the source is pulled, STATUS = 2, QR is emptied and the reader is FAULTED. On a
closed or faulted reader it only answers IllegalState. With NB outside 1..64 it only answers IllegalCommand. (This
last clause, about a term that no legal word stands for, is the model's reading of R79 and R153, DEDUCED, log entry
4.) (R94, R79, R153) -/
def Obligations.RBitsReadsOrTruncates : Prop :=
  ∀ (nb : BitVec 7) (arg : Word64) (s : State),
    (1 ≤ nb.toNat ∧ nb.toNat ≤ 64 →
      decode ⟨0xA000#16 + nb.setWidth 16, arg⟩ = .ok (.rBits nb) ∧
      (s.rState ≠ .opened → exec (.rBits nb) s = .next (withResponse 6 0 false s)) ∧
      (s.rState = .opened → nb.toNat ≤ (ahead s).length → ∃ t, exec (.rBits nb) s = .next t ∧
        Consumed s t nb.toNat ∧ ReaderFrame (BitVec.ofNat 64 (val ((ahead s).take nb.toNat))) s t) ∧
      (s.rState = .opened → (ahead s).length < nb.toNat → s.srcPos ≤ s.src.length →
        exec (.rBits nb) s = .next (faultedAfter 2 (s.src.length - s.srcPos) s))) ∧
    (nb.toNat = 0 ∨ 64 < nb.toNat → exec (.rBits nb) s = .next (withResponse 5 0 false s))

/-- The word 0xB000 decodes to R_PEEK. On an open reader: with bits buffered RES is RACC[63] and nothing else
changes; with none buffered and a byte b left, RES is bit 7 of b, b is pulled into QR and RCNT = 8; with none
buffered and the source at its end, StreamTruncated. On a closed or faulted reader it only answers IllegalState.
(R95) -/
def Obligations.RPeekLooksWithoutConsuming : Prop :=
  ∀ (arg : Word64) (s : State),
    decode ⟨0xB000#16, arg⟩ = .ok .rPeek ∧
    (s.rState ≠ .opened → exec .rPeek s = .next (withResponse 6 0 false s)) ∧
    (s.rState = .opened → s.rCnt ≠ 0 →
      exec .rPeek s = .next (withResponse 0 (if s.rAcc.getLsbD 63 then 1 else 0) true s)) ∧
    (∀ b : Byte, s.rState = .opened → s.rCnt = 0 → s.src[s.srcPos]? = some b →
      exec .rPeek s = .next { s with
        status := 0, res := (if b.getLsbD 7 then 1 else 0), resv := true, rAcc := b.setWidth 64 <<< 56, rCnt := 8,
        srcPos := s.srcPos + 1, srcLog := s.srcLog ++ [.pull b] }) ∧
    (s.rState = .opened → s.rCnt = 0 → s.srcPos = s.src.length → exec .rPeek s = .next (faultedAfter 2 0 s))

/-- The word 0xC000 decodes to R_ALIGN. On an open reader that meets the invariant: with RCNT in 1..7 QR is emptied,
with RCNT 0 or 8 nothing is discarded, and nothing else changes but the response (OK, no result); on a closed or
faulted reader it only answers IllegalState. (R96) -/
def Obligations.RAlignDiscardsPartialByte : Prop :=
  ∀ (arg : Word64) (s : State), State.Inv s →
    decode ⟨0xC000#16, arg⟩ = .ok .rAlign ∧
    (s.rState ≠ .opened → exec .rAlign s = .next (withResponse 6 0 false s)) ∧
    (s.rState = .opened → s.rCnt = 0 ∨ s.rCnt = 8 → exec .rAlign s = .next (withResponse 0 0 false s)) ∧
    (s.rState = .opened → 1 ≤ s.rCnt.toNat → s.rCnt.toNat ≤ 7 →
      exec .rAlign s = .next { s with status := 0, res := 0, resv := false, rAcc := 0, rCnt := 0 })

/-- The word 0xD000 decodes to R_CLOSE. On an open or faulted reader it empties QR, appends Release to SRCLOG if the
reader owns the source, and leaves the reader closed, owning nothing, SRC_POS unchanged; on a closed reader it
changes nothing but the response. It always answers OK without a result. (R97) -/
def Obligations.RCloseReleasesAndRecovers : Prop :=
  ∀ (arg : Word64) (s : State),
    decode ⟨0xD000#16, arg⟩ = .ok .rClose ∧
    (s.rState = .closed → exec .rClose s = .next (withResponse 0 0 false s)) ∧
    (s.rState = .opened ∨ s.rState = .faulted → exec .rClose s = .next { s with
      status := 0, res := 0, resv := false, rState := .closed, rOwn := false, rAcc := 0, rCnt := 0,
      srcLog := s.srcLog ++ (if s.rOwn then [SrcEvent.release] else []) })

/-- While the reader is FAULTED, R_OPEN and every well-formed reader command but R_CLOSE only answers IllegalState;
R_CLOSE then R_OPEN gives an open reader with nothing buffered whose bits ahead are those of SRC from SRC_POS
on, SRC_POS unchanged, with Release recorded if the source was owned. (R157) -/
def Obligations.FaultedReaderRecovery : Prop :=
  ∀ (s : State) (own : Bool), s.rState = .faulted →
    (∀ i : Instr, i.wellFormed = true → sideOf i = .reader → i ≠ .rClose →
      exec i s = .next (withResponse 6 0 false s)) ∧
    ∃ t, runAll [.rClose, .rOpen own] s = some t ∧ t.status = 0 ∧ t.rState = .opened ∧ t.rOwn = own ∧ qr t = [] ∧
      t.src = s.src ∧ t.srcPos = s.srcPos ∧ ahead t = bitsOfBytes (s.src.drop s.srcPos) ∧
      t.srcLog = s.srcLog ++ (if s.rOwn then [SrcEvent.release] else [])

/-- The word 0x7000 + LB decodes to CFG_TA LB for every LB. In every channel state, LB in 1..6 sets TA_LB = LB and
answers OK without a result, changing nothing else; LB 0 or 7 answers ConfigurationInvalid and leaves TA_LB and
everything else as it was. (R107) -/
def Obligations.CfgTaSetsWidth : Prop :=
  ∀ (lb : BitVec 3) (arg : Word64) (s : State),
    decode ⟨0x7000#16 + lb.setWidth 16, arg⟩ = .ok (.cfgTa lb) ∧
    (1 ≤ lb.toNat ∧ lb.toNat ≤ 6 →
      exec (.cfgTa lb) s = .next { s with status := 0, res := 0, resv := false, taLb := lb }) ∧
    (lb = 0 ∨ lb = 7 → exec (.cfgTa lb) s = .next (withResponse 4 0 false s))

/-- The word decodes to the instruction with v = ARG. On a closed writer it only answers IllegalState; on an open
one with v above MaxValue only ValueOutOfRange; with v in range the bits appended to the writer are the code
word of v (units of a flag bit and 7 group bits whose groups satisfy v = (sum of (g_i + 1) · 128^i) − 1; the
flag of the last unit is 1 for vlq and 0 for ivlq, of the others the inverse), only WACC, WCNT, SINK and the
response (OK, no result) change. (R115, R116, R118, R119, R104) -/
def Obligations.WEncVlqAndIvlq : Prop :=
  EncoderSpec .vlq .wEncVlq 0x5000 (fun _ => 18446744073709551614) ∧ EncoderSpec .ivlq .wEncIvlq 0x5001 (fun _ => 18446744073709551614)

/-- The word decodes to the instruction with v = ARG. On a closed writer it only answers IllegalState; on an open
one with v above MaxValue only ValueOutOfRange; with v in range the bits appended to the writer are the code
word of v (GammaWord: one zero fewer than v + 1 has bits, then v + 1 in binary), only WACC, WCNT, SINK and the
response (OK, no result) change. (R125, R126, R104) -/
def Obligations.WEncGamma : Prop :=
  EncoderSpec .gamma .wEncGamma 0x5002 (fun _ => 18446744073709551614)

/-- The word decodes to the instruction with v = ARG. On a closed writer it only answers IllegalState; on an open
one with v above MaxValue only ValueOutOfRange; with v in range the bits appended to the writer are the code
word of v (the un-offset gamma code of n + 1, then v + 1 without its leading 1, n its number), only WACC, WCNT,
SINK and the response (OK, no result) change. (R129, R130, R104) -/
def Obligations.WEncDelta : Prop :=
  EncoderSpec .delta .wEncDelta 0x5003 (fun _ => 18446744073709551614)

/-- The word decodes to the instruction with v = ARG. On a closed writer it only answers IllegalState; on an open
one with v above MaxValue only ValueOutOfRange; with v in range the bits appended to the writer are the code
word of v (the chain of groups of v + 1, outermost first, then 0), only WACC, WCNT, SINK and the response (OK,
no result) change. (R133, R134, R104) -/
def Obligations.WEncOmega : Prop :=
  EncoderSpec .omega .wEncOmega 0x5004 (fun _ => 18446744073709551614)

/-- The word decodes to the instruction with v = ARG. On a closed writer it only answers IllegalState; on an open
one with v above MaxValue only ValueOutOfRange; with v in range the bits appended to the writer are the code
word of v (non-consecutive Fibonacci numbers summing to v + 1, one bit each, smallest first, then a terminating
1), only WACC, WCNT, SINK and the response (OK, no result) change. (R138, R139, R104) -/
def Obligations.WEncFib : Prop :=
  EncoderSpec .fib .wEncFib 0x5005 (fun _ => 18446744073709551614)

/-- The word decodes to the instruction with v = ARG. On a closed writer it only answers IllegalState; on an open one
with v above MaxValue only ValueOutOfRange; with v in range the bits appended to the writer are the code word of v
(the number L of bits after the leading 1 of v + 1 in TA_LB bits, then those L bits; MaxValue is 2^(2^TA_LB) − 2),
only WACC, WCNT, SINK and the response (OK, no result) change. (What happens with TA_LB 0 or 7, values it never
holds, is the model's choice, DESIGN CHOICE, log entry 7.) (R142, R143, R144, R104) -/
def Obligations.WEncTa : Prop :=
  EncoderSpec .ta .wEncTa 0x5006 (fun lb => 2 ^ 2 ^ lb - 2)

/-- The word 0x5007 decodes to W_ENC.raw with v = ARG. On a closed writer it only answers IllegalState; on an open
one it appends the 64-bit binary form of v for every v, changes only WACC, WCNT, SINK and the response (OK, no
result), and its effect equals W_BITS 64, v. (R148) -/
def Obligations.WEncRaw : Prop :=
  ∀ (v : Word64) (s : State),
    decode ⟨0x5007#16, v⟩ = .ok (.wEncRaw v) ∧
    (s.wState = .closed → exec (.wEncRaw v) s = .next (withResponse 6 0 false s)) ∧
    (s.wState = .opened → ∃ t, exec (.wEncRaw v) s = .next t ∧ Appended s t (bin 64 v.toNat) ∧ WriterFrame s t ∧
      exec (.wBits 64#7 v) s = .next t)

/-- The word decodes to the instruction with v = ARG, in every channel state. With v above MaxValue the answer is
None (STATUS = 0, RES = 0, RESV = 0); otherwise STATUS = 0, RESV = 1 and RES = 8k, where k in 1..10 is the
number of units, that is the k with T_k ≤ v < T_(k+1), T_k = (sum of 128^i for i < k) − 1; nothing else changes.
(R122, R123, R124, R106) -/
def Obligations.PredictVlqAndIvlqLengths : Prop :=
  PredictSpec .predictVlq 0x6000 (fun _ => 18446744073709551614) (fun _ => VlqLength) ∧
    PredictSpec .predictIvlq 0x6001 (fun _ => 18446744073709551614) (fun _ => VlqLength)

/-- The word decodes to the instruction with v = ARG, in every channel state. With v above MaxValue the answer is
None (STATUS = 0, RES = 0, RESV = 0); otherwise STATUS = 0, RESV = 1 and RES = 2L + 1, where v + 1 has L + 1
bits; nothing else changes. (R128, R106) -/
def Obligations.PredictGammaLength : Prop :=
  PredictSpec .predictGamma 0x6002 (fun _ => 18446744073709551614)
    fun _ v n => ∃ L, 2 ^ L ≤ v + 1 ∧ v + 1 < 2 ^ (L + 1) ∧ n = 2 * L + 1

/-- The word decodes to the instruction with v = ARG, in every channel state. With v above MaxValue the answer is
None (STATUS = 0, RES = 0, RESV = 0); otherwise STATUS = 0, RESV = 1 and RES = 2K + 1 + n, where v + 1 has n + 1
bits and n + 1 has K + 1 bits; nothing else changes. (R132, R106) -/
def Obligations.PredictDeltaLength : Prop :=
  PredictSpec .predictDelta 0x6003 (fun _ => 18446744073709551614) fun _ v n => ∃ m K,
      2 ^ m ≤ v + 1 ∧ v + 1 < 2 ^ (m + 1) ∧ 2 ^ K ≤ m + 1 ∧ m + 1 < 2 ^ (K + 1) ∧ n = (2 * K + 1) + m

/-- The word decodes to the instruction with v = ARG, in every channel state. With v above MaxValue the answer is
None (STATUS = 0, RES = 0, RESV = 0); otherwise STATUS = 0, RESV = 1 and RES = the number of bits of the chain
of groups of v + 1, plus 1; nothing else changes. (R136, R106) -/
def Obligations.PredictOmegaLength : Prop :=
  PredictSpec .predictOmega 0x6004 (fun _ => 18446744073709551614)
    fun _ v n => ∃ P, OmegaChain (v + 1) P ∧ n = P.length + 1

/-- The word decodes to the instruction with v = ARG, in every channel state. With v above MaxValue the answer is
None (STATUS = 0, RES = 0, RESV = 0); otherwise STATUS = 0, RESV = 1 and RES = k + 2, where the Fibonacci number
of index k (1, 2, 3, 5, ... from index 0) is at most v + 1 and the next is above it; nothing else changes.
(R141, R106) -/
def Obligations.PredictFibLength : Prop :=
  PredictSpec .predictFib 0x6005 (fun _ => 18446744073709551614)
    fun _ v n => ∃ k, Nat.fib (k + 2) ≤ v + 1 ∧ v + 1 < Nat.fib (k + 3) ∧ n = k + 2

/-- PREDICT.ta (0x6006): None for v above 2^(2^TA_LB) − 2, else RES = TA_LB + L where v + 1 has L + 1 bits. PREDICT.raw
(0x6007): RES = 64 for every ARG. Both in every channel state, STATUS = 0, nothing but the response changes. (What
happens with TA_LB 0 or 7, values it never holds, is the model's choice, DESIGN CHOICE, log entry 7.) (R146, R150,
R106) -/
def Obligations.PredictTaAndRawLengths : Prop :=
  PredictSpec .predictTa 0x6006 (fun lb => 2 ^ 2 ^ lb - 2)
      (fun lb v n => ∃ L, 2 ^ L ≤ v + 1 ∧ v + 1 < 2 ^ (L + 1) ∧ n = lb + L) ∧
    ∀ (v : Word64) (s : State), decode ⟨0x6007#16, v⟩ = .ok (.predictRaw v) ∧
      exec (.predictRaw v) s = .next (withResponse 0 64 true s)

/-- For every codec, symbol and state with an open writer: PREDICT.c gives RESV = 1 exactly when W_ENC.c ends with
OK, and then RES is the length of the code word that W_ENC.c appends, so that 8 times the bytes sent plus the
new WCNT is the old WCNT plus RES. (R114) -/
def Obligations.PredictionExactness : Prop :=
  ∀ (c : Codec) (v : Word64) (s t u : State), s.wState = .opened →
    exec (encodeInstr c v) s = .next t → exec (predictInstr c v) s = .next u →
    (u.resv = true ↔ t.status = 0) ∧
    (t.status = 0 → ∃ S, CodeWord c s.taLb.toNat v.toNat S ∧ Appended s t S ∧ u.res.toNat = S.length ∧
      8 * (t.sink.length - s.sink.length) + t.wCnt.toNat = s.wCnt.toNat + u.res.toNat)

/-- The word decodes to the instruction, whatever ARG is. On a closed or faulted reader it only answers
IllegalState. On an open reader whose bits ahead begin with the VLQ or Inverted-VLQ code word of a symbol v in
range, followed by anything, RES = v, RESV = 1, STATUS = 0, exactly the bits of the code word are consumed, no
byte beyond them is pulled, and nothing else changes. (R112, R120, R121, R105, R108) -/
def Obligations.RDecVlqAndIvlq : Prop :=
  DecoderSpec .vlq .rDecVlq 0xE000 (fun _ => 18446744073709551614) ∧ DecoderSpec .ivlq .rDecIvlq 0xE001 (fun _ => 18446744073709551614)

/-- The word decodes to the instruction, whatever ARG is. On a closed or faulted reader it only answers
IllegalState. On an open reader whose bits ahead begin with the Elias Gamma code word of a symbol v in range,
followed by anything, RES = v, RESV = 1, STATUS = 0, exactly the bits of the code word are consumed, no byte
beyond them is pulled, and nothing else changes. (R112, R127, R105, R108) -/
def Obligations.RDecGamma : Prop :=
  DecoderSpec .gamma .rDecGamma 0xE002 (fun _ => 18446744073709551614)

/-- The word decodes to the instruction, whatever ARG is. On a closed or faulted reader it only answers
IllegalState. On an open reader whose bits ahead begin with the Elias Delta code word of a symbol v in range,
followed by anything, RES = v, RESV = 1, STATUS = 0, exactly the bits of the code word are consumed, no byte
beyond them is pulled, and nothing else changes. (R112, R131, R105, R108) -/
def Obligations.RDecDelta : Prop :=
  DecoderSpec .delta .rDecDelta 0xE003 (fun _ => 18446744073709551614)

/-- The word decodes to the instruction, whatever ARG is. On a closed or faulted reader it only answers
IllegalState. On an open reader whose bits ahead begin with the Elias Omega code word of a symbol v in range,
followed by anything, RES = v, RESV = 1, STATUS = 0, exactly the bits of the code word are consumed, no byte
beyond them is pulled, and nothing else changes. (R112, R135, R105, R108) -/
def Obligations.RDecOmega : Prop :=
  DecoderSpec .omega .rDecOmega 0xE004 (fun _ => 18446744073709551614)

/-- The word decodes to the instruction, whatever ARG is. On a closed or faulted reader it only answers
IllegalState. On an open reader whose bits ahead begin with the Fibonacci code word of a symbol v in range,
followed by anything, RES = v, RESV = 1, STATUS = 0, exactly the bits of the code word are consumed, no byte
beyond them is pulled, and nothing else changes. (R112, R140, R105, R108) -/
def Obligations.RDecFib : Prop :=
  DecoderSpec .fib .rDecFib 0xE005 (fun _ => 18446744073709551614)

/-- The word decodes to the instruction, whatever ARG is. On a closed or faulted reader it only answers IllegalState. On
an open reader whose bits ahead begin with the Thompson-Alpha code word of a symbol v in range, followed by
anything, RES = v, RESV = 1, STATUS = 0, exactly the bits of the code word are consumed, no byte beyond them is
pulled, and nothing else changes. (What happens with TA_LB 0 or 7, values it never holds, is the model's choice,
DESIGN CHOICE, log entry 7.) (R112, R145, R105, R108) -/
def Obligations.RDecTa : Prop :=
  DecoderSpec .ta .rDecTa 0xE006 (fun lb => 2 ^ 2 ^ lb - 2)

/-- The word decodes to the instruction, whatever ARG is. On a closed or faulted reader it only answers
IllegalState. On an open reader whose bits ahead begin with the Raw code word of a symbol v in range, followed
by anything, RES = v, RESV = 1, STATUS = 0, exactly the bits of the code word are consumed, no byte beyond them
is pulled, and nothing else changes. Its effect equals R_BITS 64 in every state. (R112, R149, R105, R108) -/
def Obligations.RDecRaw : Prop :=
  DecoderSpec .raw .rDecRaw 0xE007 (fun _ => 18446744073709551615) ∧
    ∀ s : State, exec .rDecRaw s = exec (.rBits 64#7) s

/-- For every codec, on an open reader with TA_LB in 1..6: if R_DEC.c ends with STATUS = 0, then RES is at most
MaxValue(c), RESV = 1, and the bits ahead began with a code word S of RES, of which exactly |S| bits were
consumed. (R105, R108, R110) -/
def Obligations.DecodedSymbolIsExact : Prop :=
  ∀ (c : Codec) (s t : State), s.rState = .opened → 1 ≤ s.taLb.toNat → s.taLb.toNat ≤ 6 →
    exec (decodeInstr c) s = .next t → t.status = 0 →
    t.res.toNat ≤ maxValue c s.taLb.toNat ∧
    ∃ S, CodeWord c s.taLb.toNat t.res.toNat S ∧ S <+: ahead s ∧ Consumed s t S.length ∧ ReaderFrame t.res s t

/-- On an open reader: where the bits ahead begin with bits P that end at a detection point of the decoder (non-final
units with a sum up to 2^64 − 1, then one unit with which the sum passes 2^64 − 1), R_DEC ends there with
SymbolOverflow whatever follows: STATUS = 3, RES = 0, RESV = 0, QR emptied, the reader FAULTED, exactly ⌈max(0, |P|
− RCNT) / 8⌉ bytes pulled and recorded, nothing else changed. Conversely a decode that ends with SymbolOverflow does
so at such a P, and the bits seen contain no code word of a symbol up to 2^64 − 2 at their start and are not the
beginning of one. (R110, R111, R120, R121) -/
def Obligations.VlqOverflowIsExact : Prop :=
  OverflowExact .vlq 18446744073709551614 ∧ OverflowExact .ivlq 18446744073709551614

/-- On an open reader: where the bits ahead begin with bits P that end at a detection point of the decoder (gamma and
delta: the 64th leading zero; delta: a prefix with a value above 64; omega: the leading 1 of a group after a value N
≥ 64), R_DEC ends there with SymbolOverflow whatever follows: STATUS = 3, RES = 0, RESV = 0, QR emptied, the reader
FAULTED, exactly ⌈max(0, |P| − RCNT) / 8⌉ bytes pulled and recorded, nothing else changed. Conversely a decode that
ends with SymbolOverflow does so at such a P, and the bits seen contain no code word of a symbol up to 2^64 − 2 at
their start and are not the beginning of one. (R110, R111, R127, R131, R135) -/
def Obligations.EliasOverflowIsExact : Prop :=
  OverflowExact .gamma 18446744073709551614 ∧ OverflowExact .delta 18446744073709551614 ∧ OverflowExact .omega 18446744073709551614

/-- On an open reader: where the bits ahead begin with bits P that end at a detection point of the decoder (no
terminator so far, and a 1 with which the sum passes 2^64 − 1 or any bit at position 92), R_DEC ends there with
SymbolOverflow whatever follows: STATUS = 3, RES = 0, RESV = 0, QR emptied, the reader FAULTED, exactly ⌈max(0, |P|
− RCNT) / 8⌉ bytes pulled and recorded, nothing else changed. Conversely a decode that ends with SymbolOverflow does
so at such a P, and the bits seen contain no code word of a symbol up to 2^64 − 2 at their start and are not the
beginning of one. (R110, R111, R140) -/
def Obligations.FibOverflowIsExact : Prop :=
  OverflowExact .fib 18446744073709551614

/-- If any command in a state with SRC_POS within SRC ends with StreamTruncated, then SRC_POS has reached |SRC|,
every byte left was pulled and recorded, the reader is FAULTED and RES and RESV are 0. (R51, R52, R109) -/
def Obligations.TruncationOnlyAtEndOfStream : Prop :=
  ∀ (i : Instr) (s t : State), s.srcPos ≤ s.src.length → exec i s = .next t → t.status = 2 →
    t = faultedAfter 2 (s.src.length - s.srcPos) s ∧ t.srcPos = t.src.length

/-- For every list of codecs with symbols in range, one TA_LB in 1..6, an open empty writer and an open empty
reader: the W_ENC commands followed by W_ALIGN succeed and append some bytes to SINK; if the reader's source
holds exactly these bytes, the R_DEC commands return the symbols in order, the source is used up, and fewer than
8 zero bits stay buffered. (R113, R112) -/
def Obligations.SymbolSequenceRoundTrip : Prop :=
  ∀ (items : List (Codec × Word64)) (w r : State), 1 ≤ w.taLb.toNat → w.taLb.toNat ≤ 6 → r.taLb = w.taLb →
    (∀ x ∈ items, x.2.toNat ≤ maxValue x.1 w.taLb.toNat) →
    w.wState = .opened → w.wCnt = 0 → r.rState = .opened → r.rCnt = 0 →
    ∃ (w' : State) (bytes : List Byte),
      runAll (items.map (fun x => encodeInstr x.1 x.2) ++ [.wAlign]) w = some w' ∧
      w'.sink = w.sink ++ bytes.map SinkEvent.byte ∧
      (r.src.drop r.srcPos = bytes → ∃ r' p,
        decodeAll (items.map (·.1)) r = some (items.map (·.2), r') ∧ p < 8 ∧ ahead r' = zeros p ∧ qr r' = zeros p)
end

