-- ==== Sys2Proof/Laws/Bits.lean ====
section
/-! SUPPORT. Bit strings: lengths, the two inverses `val (bin L x)` and `bin |S| (val S)`, bytes, and the queue views of a
carry register (R16, R32, R37, R54). -/

namespace Sys2Proof.Machine

@[simp] theorem bin_length (L x : Nat) : (bin L x).length = L := by
  induction L with
  | zero => rfl
  | succ L ih => simp [bin, ih]

@[simp] theorem bin_zero (x : Nat) : bin 0 x = [] := rfl

@[simp] theorem zeros_length (k : Nat) : (zeros k).length = k := List.length_replicate

theorem valFrom_eq (S : Bits) (acc : Nat) : valFrom acc S = acc * 2 ^ S.length + val S := by
  induction S generalizing acc with
  | nil => simp [valFrom, val]
  | cons b S ih =>
    simp only [valFrom, val, List.length_cons]
    rw [ih, ih (2 * 0 + b.toNat)]
    ring

@[simp] theorem val_nil : val [] = 0 := rfl

theorem val_cons (b : Bool) (S : Bits) : val (b :: S) = b.toNat * 2 ^ S.length + val S := by
  show valFrom (2 * 0 + b.toNat) S = _
  rw [valFrom_eq]; simp

theorem val_lt (S : Bits) : val S < 2 ^ S.length := by
  induction S with
  | nil => simp
  | cons b S ih =>
    rw [val_cons, List.length_cons, pow_succ]
    cases b <;> simp <;> omega

theorem val_append (S T : Bits) : val (S ++ T) = val S * 2 ^ T.length + val T := by
  induction S with
  | nil => simp
  | cons b S ih =>
    rw [List.cons_append, val_cons, ih, val_cons, List.length_append]
    ring

theorem val_bin (L x : Nat) : val (bin L x) = x % 2 ^ L := by
  induction L with
  | zero => simp [bin, Nat.mod_one]
  | succ L ih =>
    rw [bin, val_cons, ih, bin_length, Nat.mod_pow_succ, Nat.toNat_testBit, Nat.add_comm, Nat.mul_comm]

theorem val_bin_of_lt {L x : Nat} (h : x < 2 ^ L) : val (bin L x) = x := by
  rw [val_bin, Nat.mod_eq_of_lt h]

theorem bin_add_high (L x y : Nat) : bin L (2 ^ L * y + x) = bin L x := by
  have key : ∀ M, M ≤ L → bin M (2 ^ L * y + x) = bin M x := by
    intro M
    induction M with
    | zero => intro _; rfl
    | succ M ih =>
      intro hM
      have hbit : (2 ^ L * y + x).testBit M = x.testBit M := by
        have h1 : (2 ^ L * y + x) % 2 ^ L = x % 2 ^ L := by simp [Nat.add_mod]
        have h2 := congrArg (·.testBit M) h1
        simp only [Nat.testBit_mod_two_pow, show M < L by omega, decide_true, Bool.true_and] at h2
        exact h2
      rw [bin, bin, hbit, ih (by omega)]
  exact key L le_rfl

@[simp] theorem bin_mod (L x : Nat) : bin L (x % 2 ^ L) = bin L x := by
  conv_rhs => rw [← Nat.div_add_mod x (2 ^ L)]
  rw [bin_add_high]

theorem bin_val (S : Bits) : bin S.length (val S) = S := by
  induction S with
  | nil => rfl
  | cons b S ih =>
    have hlt := val_lt S
    have hbit : (val (b :: S)).testBit S.length = b := by
      rw [val_cons, Nat.mul_comm, Nat.testBit_two_pow_mul_add _ hlt]
      cases b <;> simp
    have htail : bin S.length (val (b :: S)) = S := by
      rw [val_cons, Nat.mul_comm, bin_add_high, ih]
    rw [List.length_cons, bin, hbit, htail]

theorem bin_of_val {L : Nat} (S : Bits) (h : S.length = L) : bin L (val S) = S := by
  subst h; exact bin_val S

theorem bin_append (a b x : Nat) : bin (a + b) x = bin a (x / 2 ^ b) ++ bin b x := by
  induction a with
  | zero => simp
  | succ a ih =>
    rw [show a + 1 + b = (a + b) + 1 by omega, bin, ih, bin, List.cons_append]
    simp [Nat.testBit_div_two_pow, Nat.add_comm]

/-- Two bit strings of one length with one value are equal. -/
theorem val_injective {S T : Bits} (hl : S.length = T.length) (h : val S = val T) : S = T := by
  rw [← bin_val S, ← bin_val T, hl, h]

/-! ### Bytes -/

@[simp] theorem bitsOfByte_length (b : Byte) : (bitsOfByte b).length = 8 := bin_length _ _

theorem bitsOfByte_byteOf {S : Bits} (h : S.length = 8) : bitsOfByte (byteOf S) = S := by
  have hlt := val_lt S
  rw [h] at hlt
  simp only [bitsOfByte, byteOf, BitVec.toNat_ofNat]
  rw [Nat.mod_eq_of_lt hlt, bin_of_val S h]

theorem byteOf_bitsOfByte (b : Byte) : byteOf (bitsOfByte b) = b := by
  have := b.isLt
  simp only [bitsOfByte, byteOf, val_bin_of_lt this]
  exact BitVec.ofNat_toNat ..

@[simp] theorem bitsOfBytes_nil : bitsOfBytes [] = [] := rfl

@[simp] theorem bitsOfBytes_cons (b : Byte) (bs : List Byte) :
    bitsOfBytes (b :: bs) = bitsOfByte b ++ bitsOfBytes bs := rfl

@[simp] theorem bitsOfBytes_append (as bs : List Byte) :
    bitsOfBytes (as ++ bs) = bitsOfBytes as ++ bitsOfBytes bs := List.flatMap_append

@[simp] theorem bitsOfBytes_length (bs : List Byte) : (bitsOfBytes bs).length = 8 * bs.length := by
  induction bs with
  | nil => rfl
  | cons b bs ih => simp [ih]; omega

theorem bitsOfByte_injective {a b : Byte} (h : bitsOfByte a = bitsOfByte b) : a = b := by
  rw [← byteOf_bitsOfByte a, ← byteOf_bitsOfByte b, h]

theorem bitsOfBytes_injective {as bs : List Byte} (h : bitsOfBytes as = bitsOfBytes bs) : as = bs := by
  induction as generalizing bs with
  | nil =>
    cases bs with
    | nil => rfl
    | cons b bs => have := congrArg List.length h; simp at this; omega
  | cons a as ih =>
    cases bs with
    | nil => have := congrArg List.length h; simp at this
    | cons b bs =>
      obtain ⟨h1, h2⟩ := List.append_inj h (by simp)
      rw [bitsOfByte_injective h1, ih h2]

@[simp] theorem flushBytes_length (k : Nat) (T : Bits) : (flushBytes k T).length = k := by
  induction k generalizing T with
  | zero => rfl
  | succ k ih => simp [flushBytes, ih]

theorem bitsOfBytes_flushBytes {k : Nat} {T : Bits} (h : 8 * k ≤ T.length) :
    bitsOfBytes (flushBytes k T) = T.take (8 * k) := by
  induction k generalizing T with
  | zero => simp [flushBytes]
  | succ k ih =>
    have h8 : (T.take 8).length = 8 := by simp; omega
    rw [flushBytes, bitsOfBytes_cons, bitsOfByte_byteOf h8, ih (by simp; omega),
      show 8 * (k + 1) = 8 + 8 * k by omega, List.take_add]

/-! ### Queue views -/

@[simp] theorem queueBits_length (acc : Word64) (cnt : BitVec 4) : (queueBits acc cnt).length = cnt.toNat := by
  have := cnt.isLt
  simp only [queueBits, List.length_take, bin_length]
  omega

theorem queueBits_zero (acc : Word64) : queueBits acc 0 = [] := by simp [queueBits]

@[simp] theorem packBits_nil : packBits [] = 0 := by simp [packBits]

theorem packBits_toNat {S : Bits} (h : S.length ≤ 64) : (packBits S).toNat = val S * 2 ^ (64 - S.length) := by
  have hlt := val_lt S
  rw [packBits, BitVec.toNat_ofNat, Nat.mod_eq_of_lt]
  calc val S * 2 ^ (64 - S.length) < 2 ^ S.length * 2 ^ (64 - S.length) :=
        Nat.mul_lt_mul_of_pos_right hlt (by positivity)
    _ = 2 ^ 64 := by rw [← pow_add]; congr 1; omega

/-- The view of a packed register is the string packed (R32, R37). -/
theorem queueBits_packBits {S : Bits} (h : S.length ≤ 15) :
    queueBits (packBits S) (BitVec.ofNat 4 S.length) = S := by
  have hc : (BitVec.ofNat 4 S.length).toNat = S.length := by simp; omega
  rw [queueBits, hc, packBits_toNat (by omega)]
  have h64 : (64 : Nat) = S.length + (64 - S.length) := by omega
  conv_lhs => rw [h64, bin_append]
  rw [show 64 - S.length = S.length + (64 - S.length) - S.length by omega] at *
  simp only [Nat.add_sub_cancel_left]
  rw [Nat.mul_div_cancel _ (by positivity), bin_val, List.take_left']
  rfl

/-- A packed register holds nothing below its valid bits (R30, R35). -/
theorem packBits_low {S : Bits} (h : S.length ≤ 15) :
    (packBits S).toNat % 2 ^ (64 - (BitVec.ofNat 4 S.length).toNat) = 0 := by
  have hc : (BitVec.ofNat 4 S.length).toNat = S.length := by simp; omega
  rw [hc, packBits_toNat (by omega), Nat.mul_mod_left]

/-- A register that holds nothing below its valid bits is the packing of its view. -/
theorem packBits_queueBits {acc : Word64} {cnt : BitVec 4} (h : acc.toNat % 2 ^ (64 - cnt.toNat) = 0) :
    packBits (queueBits acc cnt) = acc := by
  have hc := cnt.isLt
  have ha := acc.isLt
  apply BitVec.eq_of_toNat_eq
  rw [packBits_toNat (by simp; omega), queueBits_length]
  have hq : queueBits acc cnt = bin cnt.toNat (acc.toNat / 2 ^ (64 - cnt.toNat)) := by
    have h64 : bin 64 acc.toNat =
        bin cnt.toNat (acc.toNat / 2 ^ (64 - cnt.toNat)) ++ bin (64 - cnt.toNat) acc.toNat := by
      rw [← bin_append]; congr 1; omega
    rw [queueBits, h64, List.take_left' (by simp)]
  rw [hq, val_bin_of_lt, Nat.div_mul_cancel (Nat.dvd_of_mod_eq_zero h)]
  rw [Nat.div_lt_iff_lt_mul (by positivity), ← pow_add, show cnt.toNat + (64 - cnt.toNat) = 64 by omega]
  exact ha

end Sys2Proof.Machine
end

