-- ==== Sys2Proof/Laws/Codes.lean ====
section
/-! SUPPORT. The code functions of the codecs, each related to the rule's own description of its code words, and the lengths
that `PREDICT` computes. -/

namespace Sys2Proof.Machine

/-! ### Bits of a number -/

theorem countUsed_pos {x : Nat} (h : 0 < x) : 0 < countUsed x := by
  simp [countUsed, Nat.pos_iff_ne_zero.mp h]

/-- `CountUsed(x)` bits are enough for `x`, and one fewer is not (R18). -/
theorem countUsed_spec {x : Nat} (h : 0 < x) : 2 ^ (countUsed x - 1) ≤ x ∧ x < 2 ^ countUsed x := by
  have h0 := Nat.pos_iff_ne_zero.mp h
  rw [countUsed, if_neg h0]
  exact ⟨by simpa using Nat.log2_self_le h0, Nat.lt_log2_self⟩

/-- The number of bits is determined by the power of two below. -/
theorem countUsed_eq {x L : Nat} (h1 : 2 ^ L ≤ x) (h2 : x < 2 ^ (L + 1)) : countUsed x = L + 1 := by
  have h0 : x ≠ 0 := by have := Nat.two_pow_pos L; omega
  rw [countUsed, if_neg h0, Nat.log2_eq_iff h0 |>.mpr ⟨h1, h2⟩]

/-- The form in which the code words are described: `x` has `L + 1` bits. -/
theorem exists_bits {x : Nat} (h : 0 < x) : ∃ L, countUsed x = L + 1 ∧ 2 ^ L ≤ x ∧ x < 2 ^ (L + 1) := by
  obtain ⟨h1, h2⟩ := countUsed_spec h
  have := countUsed_pos h
  exact ⟨countUsed x - 1, by omega, h1, by rwa [Nat.sub_add_cancel this]⟩

/-! ### Gamma, Delta, Thompson-Alpha, Omega -/

theorem gammaBits_word {x : Nat} (h : 0 < x) : GammaWord x (gammaBits x) := by
  obtain ⟨L, hc, h1, h2⟩ := exists_bits h
  exact ⟨L, h1, h2, by rw [gammaBits, hc, Nat.add_sub_cancel]⟩

theorem gammaBits_length {x : Nat} (h : 0 < x) : (gammaBits x).length = 2 * countUsed x - 1 := by
  have := countUsed_pos h
  simp [gammaBits]; omega

theorem codeDelta_word (v : Nat) : DeltaWord (v + 1) (codeDelta v) := by
  obtain ⟨n, hc, h1, h2⟩ := exists_bits (Nat.succ_pos v)
  refine ⟨n, _, h1, h2, gammaBits_word (Nat.succ_pos n), ?_⟩
  simp only [codeDelta, Nat.succ_eq_add_one] at hc ⊢
  rw [hc, Nat.add_sub_cancel]

theorem codeDelta_length (v : Nat) : (codeDelta v).length = lenDelta v := by
  simp only [codeDelta, lenDelta, List.length_append, bin_length, gammaBits_length (Nat.succ_pos _)]

theorem codeTa_word {lb v : Nat} (h : v ≤ maxTa lb) : TaWord lb (v + 1) (codeTa lb v) := by
  obtain ⟨L, hc, h1, h2⟩ := exists_bits (Nat.succ_pos v)
  refine ⟨L, h1, h2, ?_, ?_⟩
  · have hlt : 2 ^ L < 2 ^ 2 ^ lb := by
      have h2lb : 2 ≤ 2 ^ 2 ^ lb := by
        calc 2 = 2 ^ 1 := rfl
          _ ≤ 2 ^ 2 ^ lb := Nat.pow_le_pow_right (by omega) Nat.one_le_two_pow
      have hm : maxTa lb = 2 ^ 2 ^ lb - 2 := rfl
      omega
    exact (Nat.pow_lt_pow_iff_right (by omega)).mp hlt
  · simp only [codeTa, Nat.succ_eq_add_one] at hc ⊢
    rw [hc, Nat.add_sub_cancel]

theorem codeTa_length (lb v : Nat) : (codeTa lb v).length = lenTa lb v := by
  have := countUsed_pos (Nat.succ_pos v)
  simp only [codeTa, lenTa, List.length_append, bin_length, Nat.succ_eq_add_one] at *
  omega

/-- The encoding loop prepends the chain of groups of `N` (R133). -/
theorem omegaGroups_chain {fuel N : Nat} (h : 0 < N) (hf : N ≤ fuel ∨ countUsed N ≤ fuel) (S : Bits) :
    ∃ P, OmegaChain N P ∧ omegaGroups fuel N S = P ++ S := by
  induction fuel generalizing N S with
  | zero => have := countUsed_pos h; omega
  | succ fuel ih =>
    by_cases h1 : N > 1
    · obtain ⟨L, hc, h2, h3⟩ := exists_bits h
      have hL : 1 ≤ L := by
        by_contra hL
        have : L = 0 := by omega
        subst this
        omega
      have hLN : L < N := lt_of_lt_of_le Nat.lt_two_pow_self h2
      obtain ⟨P, hP, hS⟩ := ih (N := L) hL (.inl (by omega)) (bin (L + 1) N ++ S)
      refine ⟨P ++ bin (L + 1) N, .group hL h2 h3 hP, ?_⟩
      rw [omegaGroups, if_pos h1, hc, Nat.add_sub_cancel, hS, List.append_assoc]
    · have : N = 1 := by omega
      subst this
      exact ⟨[], .one, by simp [omegaGroups]⟩

theorem codeOmega_word {v : Nat} (h : v < 2 ^ 64 - 1) : ∃ P, OmegaChain (v + 1) P ∧ codeOmega v = P ++ [false] := by
  refine omegaGroups_chain (Nat.succ_pos v) (.inr ?_) _
  obtain ⟨L, hc, h1, -⟩ := exists_bits (Nat.succ_pos v)
  rw [hc]
  have : 2 ^ L < 2 ^ 64 := by omega
  exact (Nat.pow_lt_pow_iff_right (by omega)).mp this

/-- The length loop counts what the encoding loop writes (R136). -/
theorem omegaLength_eq (fuel N t : Nat) (S : Bits) (h : S.length = t) :
    (omegaGroups fuel N S).length = omegaLength fuel N t := by
  induction fuel generalizing N t S with
  | zero => exact h
  | succ fuel ih =>
    rw [omegaGroups, omegaLength]
    split
    · exact ih _ _ _ (by simp [h]; omega)
    · exact h

/-! ### VLQ and Inverted-VLQ -/

theorem vlqUnit_eq (flag : Bool) {g : Nat} (h : g < 128) : vlqUnit flag g = flag :: bin 7 g := by
  have hb : (flag.toNat * 128 + g).testBit 7 = flag := by
    rw [show flag.toNat * 128 = 2 ^ 7 * flag.toNat by omega, Nat.testBit_two_pow_mul_add _ h]
    cases flag <;> simp
  rw [vlqUnit, bin, hb, show flag.toNat * 128 = 2 ^ 7 * flag.toNat by omega, bin_add_high]

/-- `Groups(v)`: at least one group, every group below 128, the sum of R115; and enough fuel for `v < 128^(fuel+1)`. -/
theorem groupsFuel_spec {fuel v : Nat} (h : v < 128 ^ (fuel + 1)) :
    groupsFuel fuel v ≠ [] ∧ (∀ x ∈ groupsFuel fuel v, x < 128) ∧ v + 1 = groupSum (groupsFuel fuel v) := by
  induction fuel generalizing v with
  | zero => simp [groupsFuel, groupSum] at *; omega
  | succ fuel ih =>
    rw [groupsFuel]
    split
    · next h1 =>
      obtain ⟨-, hb, hs⟩ := ih (v := v / 128 - 1) (by rw [pow_succ] at h; omega)
      refine ⟨by simp, ?_, ?_⟩
      · intro x hx
        rcases List.mem_cons.mp hx with rfl | hx
        · omega
        · exact hb x hx
      · rw [groupSum, ← hs]; omega
    · next h1 => simp [groupSum]; omega

theorem groups_spec {v : Nat} (h : v < 2 ^ 64) :
    groups v ≠ [] ∧ (∀ x ∈ groups v, x < 128) ∧ v + 1 = groupSum (groups v) :=
  groupsFuel_spec (lt_trans h (by norm_num))

/-- The units of a group sequence: the flag `final` stands on the last one only (R116). -/
theorem vlqUnits_eq (final : Bool) (G : List Nat) (g : Nat) (h : ∀ x ∈ G ++ [g], x < 128) :
    vlqUnits final (G ++ [g]) = (G.flatMap fun x => (!final) :: bin 7 x) ++ final :: bin 7 g := by
  induction G with
  | nil => exact vlqUnit_eq final (h g (by simp))
  | cons x G ih =>
    have hx : x < 128 := h x (by simp)
    have := ih fun y hy => h y (by simp only [List.cons_append, List.mem_cons]; exact .inr hy)
    cases hG : G ++ [g] with
    | nil => simp at hG
    | cons y G' =>
      rw [List.cons_append, hG, vlqUnits, ← hG, this, vlqUnit_eq _ hx, List.flatMap_cons, List.append_assoc]

theorem vlqUnits_word (final : Bool) {v : Nat} (h : v < 2 ^ 64) : VlqWord final v (vlqUnits final (groups v)) := by
  obtain ⟨h0, hb, hs⟩ := groups_spec h
  refine ⟨(groups v).dropLast, (groups v).getLast h0, ?_, ?_, ?_⟩
  · rwa [List.dropLast_append_getLast h0]
  · rwa [List.dropLast_append_getLast h0]
  · have := vlqUnits_eq final (groups v).dropLast ((groups v).getLast h0)
    rw [List.dropLast_append_getLast h0] at this
    exact this hb

theorem vlqUnits_length (final : Bool) (G : List Nat) : (vlqUnits final G).length = 8 * G.length := by
  induction G with
  | nil => rfl
  | cons g G ih =>
    cases G with
    | nil => simp [vlqUnits, vlqUnit]
    | cons g' G =>
      rw [vlqUnits, List.length_append, ih]
      simp [vlqUnit]; omega

/-! ### Fibonacci -/

theorem fibSequence_eq (n k : Nat) :
    fibSequence n (Nat.fib (k + 2)) (Nat.fib (k + 3)) = (List.range n).map fun i => Nat.fib (k + i + 2) := by
  induction n generalizing k with
  | zero => rfl
  | succ n ih =>
    have hf : Nat.fib (k + 2) + Nat.fib (k + 3) = Nat.fib (k + 1 + 3) := (Nat.fib_add_two (n := k + 2)).symm
    rw [fibSequence, hf, show k + 3 = k + 1 + 2 by omega, ih, List.range_succ_eq_map, List.map_cons, List.map_map]
    refine congrArg _ (List.map_congr_left fun i _ => ?_)
    simp only [Function.comp]
    congr 1
    omega

/-- `Fib[i]` is the Fibonacci number 1, 2, 3, 5, … (R137). -/
theorem fibEntry_eq {i : Nat} (h : i < 92) : fibEntry i = Nat.fib (i + 2) := by
  have ht : fibTable = (List.range 92).map fun i => Nat.fib (0 + i + 2) := fibSequence_eq 92 0
  rw [fibEntry, ht, List.getD_eq_getElem?_getD, List.getElem?_map, List.getElem?_range h]
  simp

/-- `Fib[91]` is the last entry below `2^64`, and `Fib[92]` would be above it (R137). -/
theorem fib_bounds : Nat.fib 93 < 2 ^ 64 ∧ 2 ^ 64 < Nat.fib 94 := by
  constructor <;> norm_num

/-- The largest index among the first `n` whose entry is at most `x` (R138). -/
theorem fibTop_fold {x : Nat} (hx : 1 ≤ x) (n : Nat) (hn : n ≤ 92) :
    let k := (List.range n).foldl (fun k i => if fibEntry i ≤ x then i else k) 0
    (n = 0 ∨ k < n) ∧ Nat.fib (k + 2) ≤ x ∧ ∀ i, k < i → i < n → x < Nat.fib (i + 2) := by
  induction n with
  | zero => exact ⟨.inl rfl, hx, fun i _ h => absurd h (Nat.not_lt_zero i)⟩
  | succ n ih =>
    obtain ⟨h1, h2, h3⟩ := ih (by omega)
    rw [List.range_succ, List.foldl_append]
    simp only [List.foldl_cons, List.foldl_nil]
    rw [fibEntry_eq (by omega)]
    split
    · next h => exact ⟨.inr (Nat.lt_succ_self n), h, fun i hi hi' => by omega⟩
    · next h =>
      refine ⟨.inr (by rcases h1 with rfl | h1 <;> [exact Nat.zero_lt_one; omega]), h2, fun i hi hi' => ?_⟩
      by_cases hin : i = n
      · subst hin; omega
      · exact h3 i hi (by omega)

/-- The top index: its Fibonacci number is at most `x`, the next is above `x` (R138, R141). -/
theorem fibTop_spec {x : Nat} (h1 : 1 ≤ x) (h2 : x < 2 ^ 64) :
    fibTop x < 92 ∧ Nat.fib (fibTop x + 2) ≤ x ∧ x < Nat.fib (fibTop x + 3) := by
  obtain ⟨h3, h4, h5⟩ := fibTop_fold h1 92 le_rfl
  have hlt : fibTop x < 92 := by
    rcases h3 with h | h
    · exact absurd h (by decide)
    · exact h
  refine ⟨hlt, h4, ?_⟩
  by_cases htop : fibTop x = 91
  · rw [htop]; exact lt_trans h2 fib_bounds.2
  · exact h5 (fibTop x + 1) (Nat.lt_succ_self _) (by omega)

theorem fibValue_append (i : Nat) (A B : Bits) :
    fibValue i (A ++ B) = fibValue i A + fibValue (i + A.length) B := by
  induction A generalizing i with
  | nil => simp [fibValue]
  | cons a A ih =>
    simp only [List.cons_append, fibValue, ih, List.length_cons]
    rw [show i + 1 + A.length = i + (A.length + 1) by omega]
    omega

theorem fibGreedy_length (n x : Nat) : (fibGreedy n x).length = n := by
  induction n generalizing x with
  | zero => rfl
  | succ n ih => rw [fibGreedy]; split <;> simp [ih]

/-- The greedy bits add up to `x` (R138). -/
theorem fibGreedy_value {n x : Nat} (hn : n ≤ 92) (h : x < Nat.fib (n + 2)) : fibValue 0 (fibGreedy n x) = x := by
  induction n generalizing x with
  | zero => simp [fibGreedy, fibValue] at *; omega
  | succ n ih =>
    have hf : Nat.fib (n + 1 + 2) = Nat.fib (n + 1) + Nat.fib (n + 2) := Nat.fib_add_two
    have hm : Nat.fib (n + 1) ≤ Nat.fib (n + 2) := Nat.fib_le_fib_succ
    rw [fibGreedy, fibEntry_eq (by omega)]
    split
    · next h1 =>
      rw [fibValue_append, ih (by omega) (by omega), fibGreedy_length]
      simp [fibValue]; omega
    · next h1 =>
      rw [fibValue_append, ih (by omega) (by omega)]
      simp [fibValue]

/-- A number below the last term does not use it. -/
theorem fibGreedy_last {n x : Nat} (hn : n < 92) (h : x < Nat.fib (n + 2)) :
    fibGreedy (n + 1) x = fibGreedy n x ++ [false] := by
  rw [fibGreedy, fibEntry_eq hn, if_neg (by omega)]

theorem noPair_append_false {A : Bits} (h : ¬ [true, true] <:+: A) : ¬ [true, true] <:+: A ++ [false] := by
  rintro ⟨P, Q, hPQ⟩
  cases Q using List.reverseRecOn with
  | nil =>
    rw [List.append_nil] at hPQ
    have := congrArg List.getLast? hPQ
    simp at this
  | append_singleton Q q =>
    rw [← List.append_assoc] at hPQ
    exact h ⟨P, Q, (List.append_inj' hPQ rfl).1⟩

theorem noPair_append_true {A : Bits} (h : ¬ [true, true] <:+: A) : ¬ [true, true] <:+: (A ++ [false]) ++ [true] := by
  rintro ⟨P, Q, hPQ⟩
  cases Q using List.reverseRecOn with
  | nil =>
    rw [List.append_nil, show [true, true] = [true] ++ [true] by rfl, ← List.append_assoc] at hPQ
    have := congrArg List.getLast? (List.append_inj' hPQ rfl).1
    simp at this
  | append_singleton Q q =>
    rw [← List.append_assoc] at hPQ
    exact noPair_append_false h ⟨P, Q, (List.append_inj' hPQ rfl).1⟩

/-- The greedy bits never hold two 1s next to each other (R138). -/
theorem fibGreedy_noPair {n x : Nat} (hn : n ≤ 92) (h : x < Nat.fib (n + 2)) :
    ¬ [true, true] <:+: fibGreedy n x := by
  induction n using Nat.strong_induction_on generalizing x with
  | _ n ih =>
    match n with
    | 0 => simp [fibGreedy]
    | 1 =>
      rw [fibGreedy]
      split <;> rw [fibGreedy] <;> decide
    | n + 2 =>
      have hf : Nat.fib (n + 2 + 2) = Nat.fib (n + 2) + Nat.fib (n + 3) := Nat.fib_add_two
      have he : n + 1 + 2 = n + 3 := rfl
      by_cases h1 : x < Nat.fib (n + 3)
      · rw [fibGreedy_last (by omega) h1]
        exact noPair_append_false (ih (n + 1) (by omega) (by omega) h1)
      · rw [fibGreedy, fibEntry_eq (by omega), he, if_pos (by omega),
          fibGreedy_last (by omega) (by omega)]
        exact noPair_append_true (ih n (by omega) (by omega) (by omega))

theorem codeFib_word {v : Nat} (h : v + 1 < 2 ^ 64) : FibWord (v + 1) (codeFib v) := by
  obtain ⟨h1, h2, h3⟩ := fibTop_spec (x := v + 1) (by omega) h
  have hg : fibGreedy (fibTop (v + 1) + 1) (v + 1) =
      fibGreedy (fibTop (v + 1)) (v + 1 - Nat.fib (fibTop (v + 1) + 2)) ++ [true] := by
    rw [fibGreedy, fibEntry_eq h1, if_pos h2]
  refine ⟨_, ?_, ?_, by rw [codeFib, hg]⟩
  · rw [← hg]; exact fibGreedy_noPair (by omega) h3
  · rw [← hg]; exact fibGreedy_value (by omega) h3

theorem codeFib_length (v : Nat) : (codeFib v).length = lenFib v := by
  rw [codeFib, lenFib, List.length_append, fibGreedy_length]
  rfl

end Sys2Proof.Machine
end

