-- ==== Sys2Proof/Laws/Decode.lean ====
section
/-! SUPPORT. The decoder, one lemma per operation field and per format (R69 to R73, R77). The operand stays a variable and
the command word may be a numeral: nothing here needs the operand to be evaluated. -/

namespace Sys2Proof

theorem decode_op1 {w : CmdWord} (a : Word64) (h : opField w = 0x1) : decode ⟨w, a⟩ = decodeO .wOpen w := by
  simp only [decode, h]

theorem decode_op2 {w : CmdWord} (a : Word64) (h : opField w = 0x2) :
    decode ⟨w, a⟩ = decodeB (fun nb => .wBits nb a) w := by
  simp only [decode, h]

theorem decode_op3 {w : CmdWord} (a : Word64) (h : opField w = 0x3) : decode ⟨w, a⟩ = decodeN .wAlign w := by
  simp only [decode, h]

theorem decode_op4 {w : CmdWord} (a : Word64) (h : opField w = 0x4) : decode ⟨w, a⟩ = decodeN .wClose w := by
  simp only [decode, h]

theorem decode_op5 {w : CmdWord} (a : Word64) (h : opField w = 0x5) :
    decode ⟨w, a⟩ = decodeC (fun k => encodeInstr k a) w := by
  simp only [decode, h]

theorem decode_op6 {w : CmdWord} (a : Word64) (h : opField w = 0x6) :
    decode ⟨w, a⟩ = decodeC (fun k => predictInstr k a) w := by
  simp only [decode, h]

theorem decode_op7 {w : CmdWord} (a : Word64) (h : opField w = 0x7) : decode ⟨w, a⟩ = decodeL .cfgTa w := by
  simp only [decode, h]

theorem decode_op9 {w : CmdWord} (a : Word64) (h : opField w = 0x9) : decode ⟨w, a⟩ = decodeO .rOpen w := by
  simp only [decode, h]

theorem decode_opA {w : CmdWord} (a : Word64) (h : opField w = 0xA) : decode ⟨w, a⟩ = decodeB .rBits w := by
  simp only [decode, h]

theorem decode_opB {w : CmdWord} (a : Word64) (h : opField w = 0xB) : decode ⟨w, a⟩ = decodeN .rPeek w := by
  simp only [decode, h]

theorem decode_opC {w : CmdWord} (a : Word64) (h : opField w = 0xC) : decode ⟨w, a⟩ = decodeN .rAlign w := by
  simp only [decode, h]

theorem decode_opD {w : CmdWord} (a : Word64) (h : opField w = 0xD) : decode ⟨w, a⟩ = decodeN .rClose w := by
  simp only [decode, h]

theorem decode_opE {w : CmdWord} (a : Word64) (h : opField w = 0xE) : decode ⟨w, a⟩ = decodeC decodeInstr w := by
  simp only [decode, h]

theorem decodeN_ok (i : Instr) {w : CmdWord} (h : w.extractLsb' 0 12 = 0) : decodeN i w = .ok i :=
  if_neg (not_not_intro h)

theorem decodeO_ok (mk : Bool → Instr) {w : CmdWord} (h : w.extractLsb' 1 11 = 0) :
    decodeO mk w = .ok (mk (w.getLsbD 0)) := if_neg (not_not_intro h)

theorem decodeB_ok (mk : BitVec 7 → Instr) {w : CmdWord} (h : w.extractLsb' 7 5 = 0)
    (hn : legalCount (w.extractLsb' 0 7)) : decodeB mk w = .ok (mk (w.extractLsb' 0 7)) := by
  rw [decodeB, if_neg (not_not_intro h), if_pos hn]

theorem decodeC_ok (mk : Codec → Instr) {w : CmdWord} (h : w.extractLsb' 3 9 = 0) :
    decodeC mk w = .ok (mk (codecOf (w.extractLsb' 0 3))) := if_neg (not_not_intro h)

theorem decodeL_ok (mk : BitVec 3 → Instr) {w : CmdWord} (h : w.extractLsb' 3 9 = 0) :
    decodeL mk w = .ok (mk (w.extractLsb' 0 3)) := if_neg (not_not_intro h)

/-- The selector value of a codec selects it (R76). -/
theorem codecOf_codecNumber (c : Codec) : codecOf (BitVec.ofNat 3 (codecNumber c)) = c := by
  cases c <;> decide

/-- Every selector value is the number of the codec it selects (R76). -/
theorem codecNumber_codecOf : ∀ n : BitVec 3, codecNumber (codecOf n) = n.toNat := by decide

end Sys2Proof
end

