-- ==== Sys2Proof/Laws/State.lean ====
section
/-! SUPPORT. One lemma per field per update of the state, each true by rfl. -/

namespace Sys2Proof.Machine

@[simp] theorem respond_taLb (s : State) (a : BitVec 3) (r : Word64) (v : Bool) : (s.respond a r v).taLb = s.taLb := rfl
@[simp] theorem respond_status (s : State) (a : BitVec 3) (r : Word64) (v : Bool) : (s.respond a r v).status = a := rfl
@[simp] theorem respond_res (s : State) (a : BitVec 3) (r : Word64) (v : Bool) : (s.respond a r v).res = r := rfl
@[simp] theorem respond_resv (s : State) (a : BitVec 3) (r : Word64) (v : Bool) : (s.respond a r v).resv = v := rfl
@[simp] theorem respond_wState (s : State) (a : BitVec 3) (r : Word64) (v : Bool) : (s.respond a r v).wState = s.wState := rfl
@[simp] theorem respond_wOwn (s : State) (a : BitVec 3) (r : Word64) (v : Bool) : (s.respond a r v).wOwn = s.wOwn := rfl
@[simp] theorem respond_wAcc (s : State) (a : BitVec 3) (r : Word64) (v : Bool) : (s.respond a r v).wAcc = s.wAcc := rfl
@[simp] theorem respond_wCnt (s : State) (a : BitVec 3) (r : Word64) (v : Bool) : (s.respond a r v).wCnt = s.wCnt := rfl
@[simp] theorem respond_rState (s : State) (a : BitVec 3) (r : Word64) (v : Bool) : (s.respond a r v).rState = s.rState := rfl
@[simp] theorem respond_rOwn (s : State) (a : BitVec 3) (r : Word64) (v : Bool) : (s.respond a r v).rOwn = s.rOwn := rfl
@[simp] theorem respond_rAcc (s : State) (a : BitVec 3) (r : Word64) (v : Bool) : (s.respond a r v).rAcc = s.rAcc := rfl
@[simp] theorem respond_rCnt (s : State) (a : BitVec 3) (r : Word64) (v : Bool) : (s.respond a r v).rCnt = s.rCnt := rfl
@[simp] theorem respond_sink (s : State) (a : BitVec 3) (r : Word64) (v : Bool) : (s.respond a r v).sink = s.sink := rfl
@[simp] theorem respond_src (s : State) (a : BitVec 3) (r : Word64) (v : Bool) : (s.respond a r v).src = s.src := rfl
@[simp] theorem respond_srcPos (s : State) (a : BitVec 3) (r : Word64) (v : Bool) : (s.respond a r v).srcPos = s.srcPos := rfl
@[simp] theorem respond_srcLog (s : State) (a : BitVec 3) (r : Word64) (v : Bool) : (s.respond a r v).srcLog = s.srcLog := rfl
@[simp] theorem respond_hostInputs (s : State) (a : BitVec 3) (r : Word64) (v : Bool) : (s.respond a r v).hostInputs = s.hostInputs := rfl

@[simp] theorem finish_taLb (s : State) (r : Word64) (v : Bool) : (finish r v s).taLb = s.taLb := rfl
@[simp] theorem finish_status (s : State) (r : Word64) (v : Bool) : (finish r v s).status = 0 := rfl
@[simp] theorem finish_res (s : State) (r : Word64) (v : Bool) : (finish r v s).res = r := rfl
@[simp] theorem finish_resv (s : State) (r : Word64) (v : Bool) : (finish r v s).resv = v := rfl
@[simp] theorem finish_wState (s : State) (r : Word64) (v : Bool) : (finish r v s).wState = s.wState := rfl
@[simp] theorem finish_wOwn (s : State) (r : Word64) (v : Bool) : (finish r v s).wOwn = s.wOwn := rfl
@[simp] theorem finish_wAcc (s : State) (r : Word64) (v : Bool) : (finish r v s).wAcc = s.wAcc := rfl
@[simp] theorem finish_wCnt (s : State) (r : Word64) (v : Bool) : (finish r v s).wCnt = s.wCnt := rfl
@[simp] theorem finish_rState (s : State) (r : Word64) (v : Bool) : (finish r v s).rState = s.rState := rfl
@[simp] theorem finish_rOwn (s : State) (r : Word64) (v : Bool) : (finish r v s).rOwn = s.rOwn := rfl
@[simp] theorem finish_rAcc (s : State) (r : Word64) (v : Bool) : (finish r v s).rAcc = s.rAcc := rfl
@[simp] theorem finish_rCnt (s : State) (r : Word64) (v : Bool) : (finish r v s).rCnt = s.rCnt := rfl
@[simp] theorem finish_sink (s : State) (r : Word64) (v : Bool) : (finish r v s).sink = s.sink := rfl
@[simp] theorem finish_src (s : State) (r : Word64) (v : Bool) : (finish r v s).src = s.src := rfl
@[simp] theorem finish_srcPos (s : State) (r : Word64) (v : Bool) : (finish r v s).srcPos = s.srcPos := rfl
@[simp] theorem finish_srcLog (s : State) (r : Word64) (v : Bool) : (finish r v s).srcLog = s.srcLog := rfl
@[simp] theorem finish_hostInputs (s : State) (r : Word64) (v : Bool) : (finish r v s).hostInputs = s.hostInputs := rfl

@[simp] theorem withResponse_taLb (s : State) (a : BitVec 3) (r : Word64) (v : Bool) : (withResponse a r v s).taLb = s.taLb := rfl
@[simp] theorem withResponse_status (s : State) (a : BitVec 3) (r : Word64) (v : Bool) : (withResponse a r v s).status = a := rfl
@[simp] theorem withResponse_res (s : State) (a : BitVec 3) (r : Word64) (v : Bool) : (withResponse a r v s).res = r := rfl
@[simp] theorem withResponse_resv (s : State) (a : BitVec 3) (r : Word64) (v : Bool) : (withResponse a r v s).resv = v := rfl
@[simp] theorem withResponse_wState (s : State) (a : BitVec 3) (r : Word64) (v : Bool) : (withResponse a r v s).wState = s.wState := rfl
@[simp] theorem withResponse_wOwn (s : State) (a : BitVec 3) (r : Word64) (v : Bool) : (withResponse a r v s).wOwn = s.wOwn := rfl
@[simp] theorem withResponse_wAcc (s : State) (a : BitVec 3) (r : Word64) (v : Bool) : (withResponse a r v s).wAcc = s.wAcc := rfl
@[simp] theorem withResponse_wCnt (s : State) (a : BitVec 3) (r : Word64) (v : Bool) : (withResponse a r v s).wCnt = s.wCnt := rfl
@[simp] theorem withResponse_rState (s : State) (a : BitVec 3) (r : Word64) (v : Bool) : (withResponse a r v s).rState = s.rState := rfl
@[simp] theorem withResponse_rOwn (s : State) (a : BitVec 3) (r : Word64) (v : Bool) : (withResponse a r v s).rOwn = s.rOwn := rfl
@[simp] theorem withResponse_rAcc (s : State) (a : BitVec 3) (r : Word64) (v : Bool) : (withResponse a r v s).rAcc = s.rAcc := rfl
@[simp] theorem withResponse_rCnt (s : State) (a : BitVec 3) (r : Word64) (v : Bool) : (withResponse a r v s).rCnt = s.rCnt := rfl
@[simp] theorem withResponse_sink (s : State) (a : BitVec 3) (r : Word64) (v : Bool) : (withResponse a r v s).sink = s.sink := rfl
@[simp] theorem withResponse_src (s : State) (a : BitVec 3) (r : Word64) (v : Bool) : (withResponse a r v s).src = s.src := rfl
@[simp] theorem withResponse_srcPos (s : State) (a : BitVec 3) (r : Word64) (v : Bool) : (withResponse a r v s).srcPos = s.srcPos := rfl
@[simp] theorem withResponse_srcLog (s : State) (a : BitVec 3) (r : Word64) (v : Bool) : (withResponse a r v s).srcLog = s.srcLog := rfl
@[simp] theorem withResponse_hostInputs (s : State) (a : BitVec 3) (r : Word64) (v : Bool) : (withResponse a r v s).hostInputs = s.hostInputs := rfl

@[simp] theorem setQw_taLb (s : State) (S : Bits) : (setQw S s).taLb = s.taLb := rfl
@[simp] theorem setQw_status (s : State) (S : Bits) : (setQw S s).status = s.status := rfl
@[simp] theorem setQw_res (s : State) (S : Bits) : (setQw S s).res = s.res := rfl
@[simp] theorem setQw_resv (s : State) (S : Bits) : (setQw S s).resv = s.resv := rfl
@[simp] theorem setQw_wState (s : State) (S : Bits) : (setQw S s).wState = s.wState := rfl
@[simp] theorem setQw_wOwn (s : State) (S : Bits) : (setQw S s).wOwn = s.wOwn := rfl
@[simp] theorem setQw_wAcc (s : State) (S : Bits) : (setQw S s).wAcc = packBits S := rfl
@[simp] theorem setQw_wCnt (s : State) (S : Bits) : (setQw S s).wCnt = BitVec.ofNat 4 S.length := rfl
@[simp] theorem setQw_rState (s : State) (S : Bits) : (setQw S s).rState = s.rState := rfl
@[simp] theorem setQw_rOwn (s : State) (S : Bits) : (setQw S s).rOwn = s.rOwn := rfl
@[simp] theorem setQw_rAcc (s : State) (S : Bits) : (setQw S s).rAcc = s.rAcc := rfl
@[simp] theorem setQw_rCnt (s : State) (S : Bits) : (setQw S s).rCnt = s.rCnt := rfl
@[simp] theorem setQw_sink (s : State) (S : Bits) : (setQw S s).sink = s.sink := rfl
@[simp] theorem setQw_src (s : State) (S : Bits) : (setQw S s).src = s.src := rfl
@[simp] theorem setQw_srcPos (s : State) (S : Bits) : (setQw S s).srcPos = s.srcPos := rfl
@[simp] theorem setQw_srcLog (s : State) (S : Bits) : (setQw S s).srcLog = s.srcLog := rfl
@[simp] theorem setQw_hostInputs (s : State) (S : Bits) : (setQw S s).hostInputs = s.hostInputs := rfl

@[simp] theorem setQr_taLb (s : State) (S : Bits) : (setQr S s).taLb = s.taLb := rfl
@[simp] theorem setQr_status (s : State) (S : Bits) : (setQr S s).status = s.status := rfl
@[simp] theorem setQr_res (s : State) (S : Bits) : (setQr S s).res = s.res := rfl
@[simp] theorem setQr_resv (s : State) (S : Bits) : (setQr S s).resv = s.resv := rfl
@[simp] theorem setQr_wState (s : State) (S : Bits) : (setQr S s).wState = s.wState := rfl
@[simp] theorem setQr_wOwn (s : State) (S : Bits) : (setQr S s).wOwn = s.wOwn := rfl
@[simp] theorem setQr_wAcc (s : State) (S : Bits) : (setQr S s).wAcc = s.wAcc := rfl
@[simp] theorem setQr_wCnt (s : State) (S : Bits) : (setQr S s).wCnt = s.wCnt := rfl
@[simp] theorem setQr_rState (s : State) (S : Bits) : (setQr S s).rState = s.rState := rfl
@[simp] theorem setQr_rOwn (s : State) (S : Bits) : (setQr S s).rOwn = s.rOwn := rfl
@[simp] theorem setQr_rAcc (s : State) (S : Bits) : (setQr S s).rAcc = packBits S := rfl
@[simp] theorem setQr_rCnt (s : State) (S : Bits) : (setQr S s).rCnt = BitVec.ofNat 4 S.length := rfl
@[simp] theorem setQr_sink (s : State) (S : Bits) : (setQr S s).sink = s.sink := rfl
@[simp] theorem setQr_src (s : State) (S : Bits) : (setQr S s).src = s.src := rfl
@[simp] theorem setQr_srcPos (s : State) (S : Bits) : (setQr S s).srcPos = s.srcPos := rfl
@[simp] theorem setQr_srcLog (s : State) (S : Bits) : (setQr S s).srcLog = s.srcLog := rfl
@[simp] theorem setQr_hostInputs (s : State) (S : Bits) : (setQr S s).hostInputs = s.hostInputs := rfl

@[simp] theorem sinkPut_taLb (s : State) (b : Byte) : (sinkPut b s).taLb = s.taLb := rfl
@[simp] theorem sinkPut_status (s : State) (b : Byte) : (sinkPut b s).status = s.status := rfl
@[simp] theorem sinkPut_res (s : State) (b : Byte) : (sinkPut b s).res = s.res := rfl
@[simp] theorem sinkPut_resv (s : State) (b : Byte) : (sinkPut b s).resv = s.resv := rfl
@[simp] theorem sinkPut_wState (s : State) (b : Byte) : (sinkPut b s).wState = s.wState := rfl
@[simp] theorem sinkPut_wOwn (s : State) (b : Byte) : (sinkPut b s).wOwn = s.wOwn := rfl
@[simp] theorem sinkPut_wAcc (s : State) (b : Byte) : (sinkPut b s).wAcc = s.wAcc := rfl
@[simp] theorem sinkPut_wCnt (s : State) (b : Byte) : (sinkPut b s).wCnt = s.wCnt := rfl
@[simp] theorem sinkPut_rState (s : State) (b : Byte) : (sinkPut b s).rState = s.rState := rfl
@[simp] theorem sinkPut_rOwn (s : State) (b : Byte) : (sinkPut b s).rOwn = s.rOwn := rfl
@[simp] theorem sinkPut_rAcc (s : State) (b : Byte) : (sinkPut b s).rAcc = s.rAcc := rfl
@[simp] theorem sinkPut_rCnt (s : State) (b : Byte) : (sinkPut b s).rCnt = s.rCnt := rfl
@[simp] theorem sinkPut_sink (s : State) (b : Byte) : (sinkPut b s).sink = s.sink ++ [.byte b] := rfl
@[simp] theorem sinkPut_src (s : State) (b : Byte) : (sinkPut b s).src = s.src := rfl
@[simp] theorem sinkPut_srcPos (s : State) (b : Byte) : (sinkPut b s).srcPos = s.srcPos := rfl
@[simp] theorem sinkPut_srcLog (s : State) (b : Byte) : (sinkPut b s).srcLog = s.srcLog := rfl
@[simp] theorem sinkPut_hostInputs (s : State) (b : Byte) : (sinkPut b s).hostInputs = s.hostInputs := rfl

@[simp] theorem sinkMark_taLb (s : State) : (sinkMark s).taLb = s.taLb := rfl
@[simp] theorem sinkMark_status (s : State) : (sinkMark s).status = s.status := rfl
@[simp] theorem sinkMark_res (s : State) : (sinkMark s).res = s.res := rfl
@[simp] theorem sinkMark_resv (s : State) : (sinkMark s).resv = s.resv := rfl
@[simp] theorem sinkMark_wState (s : State) : (sinkMark s).wState = s.wState := rfl
@[simp] theorem sinkMark_wOwn (s : State) : (sinkMark s).wOwn = s.wOwn := rfl
@[simp] theorem sinkMark_wAcc (s : State) : (sinkMark s).wAcc = s.wAcc := rfl
@[simp] theorem sinkMark_wCnt (s : State) : (sinkMark s).wCnt = s.wCnt := rfl
@[simp] theorem sinkMark_rState (s : State) : (sinkMark s).rState = s.rState := rfl
@[simp] theorem sinkMark_rOwn (s : State) : (sinkMark s).rOwn = s.rOwn := rfl
@[simp] theorem sinkMark_rAcc (s : State) : (sinkMark s).rAcc = s.rAcc := rfl
@[simp] theorem sinkMark_rCnt (s : State) : (sinkMark s).rCnt = s.rCnt := rfl
@[simp] theorem sinkMark_sink (s : State) : (sinkMark s).sink = s.sink ++ [.close] := rfl
@[simp] theorem sinkMark_src (s : State) : (sinkMark s).src = s.src := rfl
@[simp] theorem sinkMark_srcPos (s : State) : (sinkMark s).srcPos = s.srcPos := rfl
@[simp] theorem sinkMark_srcLog (s : State) : (sinkMark s).srcLog = s.srcLog := rfl
@[simp] theorem sinkMark_hostInputs (s : State) : (sinkMark s).hostInputs = s.hostInputs := rfl

@[simp] theorem srcMark_taLb (s : State) : (srcMark s).taLb = s.taLb := rfl
@[simp] theorem srcMark_status (s : State) : (srcMark s).status = s.status := rfl
@[simp] theorem srcMark_res (s : State) : (srcMark s).res = s.res := rfl
@[simp] theorem srcMark_resv (s : State) : (srcMark s).resv = s.resv := rfl
@[simp] theorem srcMark_wState (s : State) : (srcMark s).wState = s.wState := rfl
@[simp] theorem srcMark_wOwn (s : State) : (srcMark s).wOwn = s.wOwn := rfl
@[simp] theorem srcMark_wAcc (s : State) : (srcMark s).wAcc = s.wAcc := rfl
@[simp] theorem srcMark_wCnt (s : State) : (srcMark s).wCnt = s.wCnt := rfl
@[simp] theorem srcMark_rState (s : State) : (srcMark s).rState = s.rState := rfl
@[simp] theorem srcMark_rOwn (s : State) : (srcMark s).rOwn = s.rOwn := rfl
@[simp] theorem srcMark_rAcc (s : State) : (srcMark s).rAcc = s.rAcc := rfl
@[simp] theorem srcMark_rCnt (s : State) : (srcMark s).rCnt = s.rCnt := rfl
@[simp] theorem srcMark_sink (s : State) : (srcMark s).sink = s.sink := rfl
@[simp] theorem srcMark_src (s : State) : (srcMark s).src = s.src := rfl
@[simp] theorem srcMark_srcPos (s : State) : (srcMark s).srcPos = s.srcPos := rfl
@[simp] theorem srcMark_srcLog (s : State) : (srcMark s).srcLog = s.srcLog ++ [.release] := rfl
@[simp] theorem srcMark_hostInputs (s : State) : (srcMark s).hostInputs = s.hostInputs := rfl

@[simp] theorem resetBlock_taLb (s : State) : (resetBlock s).taLb = 6 := rfl
@[simp] theorem resetBlock_status (s : State) : (resetBlock s).status = 0 := rfl
@[simp] theorem resetBlock_res (s : State) : (resetBlock s).res = 0 := rfl
@[simp] theorem resetBlock_resv (s : State) : (resetBlock s).resv = false := rfl
@[simp] theorem resetBlock_wState (s : State) : (resetBlock s).wState = .closed := rfl
@[simp] theorem resetBlock_wOwn (s : State) : (resetBlock s).wOwn = false := rfl
@[simp] theorem resetBlock_wAcc (s : State) : (resetBlock s).wAcc = 0 := rfl
@[simp] theorem resetBlock_wCnt (s : State) : (resetBlock s).wCnt = 0 := rfl
@[simp] theorem resetBlock_rState (s : State) : (resetBlock s).rState = .closed := rfl
@[simp] theorem resetBlock_rOwn (s : State) : (resetBlock s).rOwn = false := rfl
@[simp] theorem resetBlock_rAcc (s : State) : (resetBlock s).rAcc = 0 := rfl
@[simp] theorem resetBlock_rCnt (s : State) : (resetBlock s).rCnt = 0 := rfl
@[simp] theorem resetBlock_sink (s : State) : (resetBlock s).sink = s.sink := rfl
@[simp] theorem resetBlock_src (s : State) : (resetBlock s).src = s.src := rfl
@[simp] theorem resetBlock_srcPos (s : State) : (resetBlock s).srcPos = s.srcPos := rfl
@[simp] theorem resetBlock_srcLog (s : State) : (resetBlock s).srcLog = s.srcLog := rfl
@[simp] theorem resetBlock_hostInputs (s : State) : (resetBlock s).hostInputs = s.hostInputs := rfl

@[simp] theorem present_taLb (s : State) (c : Command) : (present c s).taLb = s.taLb := rfl
@[simp] theorem present_status (s : State) (c : Command) : (present c s).status = s.status := rfl
@[simp] theorem present_res (s : State) (c : Command) : (present c s).res = s.res := rfl
@[simp] theorem present_resv (s : State) (c : Command) : (present c s).resv = s.resv := rfl
@[simp] theorem present_wState (s : State) (c : Command) : (present c s).wState = s.wState := rfl
@[simp] theorem present_wOwn (s : State) (c : Command) : (present c s).wOwn = s.wOwn := rfl
@[simp] theorem present_wAcc (s : State) (c : Command) : (present c s).wAcc = s.wAcc := rfl
@[simp] theorem present_wCnt (s : State) (c : Command) : (present c s).wCnt = s.wCnt := rfl
@[simp] theorem present_rState (s : State) (c : Command) : (present c s).rState = s.rState := rfl
@[simp] theorem present_rOwn (s : State) (c : Command) : (present c s).rOwn = s.rOwn := rfl
@[simp] theorem present_rAcc (s : State) (c : Command) : (present c s).rAcc = s.rAcc := rfl
@[simp] theorem present_rCnt (s : State) (c : Command) : (present c s).rCnt = s.rCnt := rfl
@[simp] theorem present_sink (s : State) (c : Command) : (present c s).sink = s.sink := rfl
@[simp] theorem present_src (s : State) (c : Command) : (present c s).src = s.src := rfl
@[simp] theorem present_srcPos (s : State) (c : Command) : (present c s).srcPos = s.srcPos := rfl
@[simp] theorem present_srcLog (s : State) (c : Command) : (present c s).srcLog = s.srcLog := rfl
@[simp] theorem present_hostInputs (s : State) (c : Command) : (present c s).hostInputs = .command c :: s.hostInputs := rfl

end Sys2Proof.Machine
end

