-- ==== Sys2Proof/Laws/Ops.lean ====
section
/-! SUPPORT. One lemma for each shared operation that says once everything it can do: the queue views, how a command ends,
`Emit` and the padding, and the reader primitives in terms of the bits ahead. Proofs cite these and unfold nothing. -/

namespace Sys2Proof.Machine

/-! ### Queue views -/

theorem qw_setQw {S : Bits} (h : S.length ≤ 15) (s : State) : qw (setQw S s) = S := queueBits_packBits h

theorem qr_setQr {S : Bits} (h : S.length ≤ 15) (s : State) : qr (setQr S s) = S := queueBits_packBits h

theorem setQw_low {S : Bits} (h : S.length ≤ 15) (s : State) : LowBitsZero (setQw S s).wAcc (setQw S s).wCnt :=
  packBits_low h

theorem setQr_low {S : Bits} (h : S.length ≤ 15) (s : State) : LowBitsZero (setQr S s).rAcc (setQr S s).rCnt :=
  packBits_low h

theorem setQw_wCnt_toNat {S : Bits} (h : S.length ≤ 15) (s : State) : (setQw S s).wCnt.toNat = S.length := by
  simp [setQw]; omega

theorem setQr_rCnt_toNat {S : Bits} (h : S.length ≤ 15) (s : State) : (setQr S s).rCnt.toNat = S.length := by
  simp [setQr]; omega

@[simp] theorem qw_length (s : State) : (qw s).length = s.wCnt.toNat := queueBits_length ..

@[simp] theorem qr_length (s : State) : (qr s).length = s.rCnt.toNat := queueBits_length ..

theorem qw_eq_nil {s : State} : qw s = [] ↔ s.wCnt = 0 := by
  rw [← List.length_eq_zero_iff, qw_length, ← BitVec.toNat_inj]; rfl

theorem qr_eq_nil {s : State} : qr s = [] ↔ s.rCnt = 0 := by
  rw [← List.length_eq_zero_iff, qr_length, ← BitVec.toNat_inj]; rfl

theorem setQw_nil (s : State) : setQw [] s = { s with wAcc := 0, wCnt := 0 } := by simp [setQw]

theorem setQr_nil (s : State) : setQr [] s = { s with rAcc := 0, rCnt := 0 } := by simp [setQr]

/-- Writing back the view of a register with the layout of R35 changes nothing. -/
theorem setQr_qr {s : State} (h : LowBitsZero s.rAcc s.rCnt) : setQr (qr s) s = s := by
  have h1 : packBits (qr s) = s.rAcc := packBits_queueBits h
  have h2 : BitVec.ofNat 4 (qr s).length = s.rCnt := by rw [qr_length]; exact BitVec.ofNat_toNat ..
  simp only [setQr, h1, h2]

/-! ### How a command ends -/

/-- `finish` writes the response and nothing else (R85). -/
theorem finish_eq (r : Word64) (v : Bool) (s : State) : finish r v s = withResponse 0 r v s := rfl

/-- Errors 1, 4, 5 and 6 write the response and nothing else (R152). -/
theorem raise_plain {e : ErrorKind} (h : e.faultsReader = false) (s : State) :
    raise e s = withResponse e.code 0 false s := by
  simp only [raise, h]; rfl

/-- Errors 2 and 3 also empty `QR` and make the reader FAULTED (R152). -/
theorem raise_stream {e : ErrorKind} (h : e.faultsReader = true) (s : State) :
    raise e s = faultedAfter e.code 0 s := by
  simp only [raise, h, if_true, setQr_nil, State.respond, faultedAfter, Nat.add_zero, List.take_zero, List.map_nil,
    List.append_nil]

/-- The codes of the two stream errors (R151, R152). -/
theorem code_of_faultsReader {e : ErrorKind} (h : e.faultsReader = true) : e.code = 2 ∨ e.code = 3 := by
  cases e <;> simp_all [ErrorKind.faultsReader, ErrorKind.code]

/-! ### Writer side -/

/-- `sinkPuts` appends the bytes' events to `SINK` and does nothing else (R49). -/
theorem sinkPuts_eq (bs : List Byte) (s : State) :
    sinkPuts bs s = { s with sink := s.sink ++ bs.map SinkEvent.byte } := by
  induction bs generalizing s with
  | nil => simp [sinkPuts]
  | cons b bs ih => simp [sinkPuts, ih, sinkPut]

/-- `Emit` touches `WACC`, `WCNT` and `SINK` only (R87). -/
theorem emit_frame (S : Bits) (s : State) :
    emit S s = { s with wAcc := (emit S s).wAcc, wCnt := (emit S s).wCnt, sink := (emit S s).sink } := by
  simp only [emit, setQw, sinkPuts_eq]

/-- What is left pending after `Emit`, and what it sent (R87). -/
theorem emit_parts (S : Bits) (s : State) :
    qw (emit S s) = (qw s ++ S).drop (8 * ((qw s ++ S).length / 8)) ∧
      (emit S s).sink =
        s.sink ++ (flushBytes ((qw s ++ S).length / 8) (qw s ++ S)).map SinkEvent.byte := by
  constructor
  · exact qw_setQw (by simp only [List.length_drop]; omega) _
  · simp only [emit, setQw, sinkPuts_eq]

/-- `Emit(S)` appends exactly `S` to what the writer accepted (R87). -/
theorem emit_appended (S : Bits) (s : State) : Appended s (emit S s) S := by
  obtain ⟨h1, h2⟩ := emit_parts S s
  have hlen : ((qw s ++ S).drop (8 * ((qw s ++ S).length / 8))).length ≤ 7 := by
    simp only [List.length_drop]; omega
  refine ⟨⟨_, h2, ?_⟩, ?_, ?_⟩
  · rw [h1, bitsOfBytes_flushBytes (by omega), List.take_append_drop]
  · rw [← qw_length, h1]; exact hlen
  · exact setQw_low (by omega) _

/-- `Emit` sends `⌊(WCNT + |S|) / 8⌋` bytes (R88). -/
theorem emit_sink_length (S : Bits) (s : State) :
    (emit S s).sink.length = s.sink.length + (s.wCnt.toNat + S.length) / 8 := by
  rw [(emit_parts S s).2]; simp

/-- The padding of a partial byte: one zero-padded byte if a bit is pending, nothing else; `QW` is empty after it (R89). -/
theorem padWriter_spec {s : State} (hc : s.wCnt.toNat ≤ 7) (hl : LowBitsZero s.wAcc s.wCnt) :
    ∃ bytes : List Byte,
      bytes.length = (if s.wCnt = 0 then 0 else 1) ∧
      bitsOfBytes bytes = qw s ++ zeros ((8 - s.wCnt.toNat) % 8) ∧
      padWriter s = { s with wAcc := 0, wCnt := 0, sink := s.sink ++ bytes.map SinkEvent.byte } := by
  by_cases h0 : s.wCnt = 0
  · refine ⟨[], by simp [h0], ?_, ?_⟩
    · rw [qw_eq_nil.mpr h0]; simp [h0, zeros]
    · have hw : s.wAcc = 0 := by
        have := packBits_queueBits hl
        rw [h0, queueBits_zero, packBits_nil] at this
        exact this.symm
      simp only [padWriter, h0, ne_eq, not_true_eq_false, if_false, List.map_nil, List.append_nil]
      rw [← hw, ← h0]
  · have hpos : s.wCnt.toNat ≠ 0 := fun h => h0 (BitVec.eq_of_toNat_eq h)
    have hT : (qw s ++ zeros (8 - s.wCnt.toNat)).length = 8 := by simp; omega
    refine ⟨flushBytes 1 (qw s ++ zeros (8 - s.wCnt.toNat)), by rw [if_neg h0, flushBytes_length], ?_, ?_⟩
    · rw [bitsOfBytes_flushBytes (by omega), List.take_of_length_le (by omega), Nat.mod_eq_of_lt (by omega)]
    · simp only [padWriter, h0, ne_eq, not_false_eq_true, if_true, emit, hT, sinkPuts_eq]
      rw [List.drop_of_length_le (by omega), setQw_nil]

/-! ### Reader side: what was read -/

/-- Only `RACC`, `RCNT`, `SRC_POS` and `SRCLOG` differ. -/
def ReadFrame (s t : State) : Prop :=
  t = { s with rAcc := t.rAcc, rCnt := t.rCnt, srcPos := t.srcPos, srcLog := t.srcLog }

/-- From `s` to `t` a decoder took the next `n` bits, which are there, and did nothing else. -/
structure Reads (s t : State) (n : Nat) : Prop where
  enough : n ≤ (ahead s).length
  consumed : Consumed s t n
  frame : ReadFrame s t

theorem ReadFrame.src {s t : State} (h : ReadFrame s t) : t.src = s.src := by rw [h]

theorem ahead_length (s : State) : (ahead s).length = s.rCnt.toNat + 8 * (s.src.length - s.srcPos) := by
  simp [ahead]

theorem Reads.refl (s : State) : Reads s s 0 := by
  refine ⟨Nat.zero_le _, ⟨by simp, ?_, by omega, by simp, fun h => h⟩, rfl⟩
  have : (0 - s.rCnt.toNat + 7) / 8 = 0 := by omega
  rw [this]; rfl

theorem Reads.trans {s t u : State} {m n : Nat} (h1 : Reads s t m) (h2 : Reads t u n) : Reads s u (m + n) := by
  obtain ⟨e1, ⟨a1, p1, c1, l1, z1⟩, f1⟩ := h1
  obtain ⟨e2, ⟨a2, p2, c2, l2, z2⟩, f2⟩ := h2
  have hsrc := f1.src
  refine ⟨?_, ⟨?_, ?_, by omega, ?_, fun h => z2 (z1 h)⟩, ?_⟩
  · rw [a1, List.length_drop] at e2; omega
  · rw [a2, a1, List.drop_drop]
  · omega
  · have hle : s.srcPos ≤ t.srcPos := by omega
    have hle' : t.srcPos ≤ u.srcPos := by omega
    rw [l2, l1, hsrc, List.append_assoc, ← List.map_append,
      show u.srcPos - s.srcPos = (t.srcPos - s.srcPos) + (u.srcPos - t.srcPos) by omega, List.take_add,
      List.drop_drop, show s.srcPos + (t.srcPos - s.srcPos) = t.srcPos by omega]
  · rw [ReadFrame, f2, f1]

/-- An error raised after some bits were read (R152): those bytes stay pulled. -/
theorem raise_after_reads {e : ErrorKind} (he : e.faultsReader = true) {s t : State} {n : Nat} (h : Reads s t n) :
    raise e t = faultedAfter e.code (t.srcPos - s.srcPos) s := by
  obtain ⟨-, ⟨-, p, -, l, -⟩, f⟩ := h
  rw [raise_stream he]
  have hp : s.srcPos + (t.srcPos - s.srcPos) = t.srcPos := by omega
  simp only [faultedAfter, Nat.add_zero, List.take_zero, List.map_nil, List.append_nil, hp, ← l]
  rw [f]

/-- A command that read `n` bits and ends with OK (R85, R105). -/
theorem finish_after_reads {s t : State} {n : Nat} (h : Reads s t n) (res : Word64) :
    Consumed s (finish res true t) n ∧ ReaderFrame res s (finish res true t) := by
  obtain ⟨-, c, f⟩ := h
  refine ⟨c, ?_⟩
  rw [ReaderFrame, finish_eq, withResponse]
  conv_lhs => rw [f]

/-! ### Reader side: the primitives -/

/-- With no bit buffered, `fillReader` pulls the next byte whole (R52, R92). -/
theorem fillReader_pull {s : State} (h0 : s.rCnt = 0) {b : Byte} (hb : s.src[s.srcPos]? = some b) :
    fillReader s = .got () (setQr (bitsOfByte b)
      { s with srcPos := s.srcPos + 1, srcLog := s.srcLog ++ [.pull b] }) := by
  simp [fillReader, h0, srcPull, hb, ReadResult.bind]

/-- With a bit buffered it does nothing (R92). -/
theorem fillReader_buffered {s : State} (h0 : s.rCnt ≠ 0) : fillReader s = .got () s := if_neg h0

/-- At the end of the stream with no bit buffered it raises StreamTruncated and changes nothing (R52, R109). -/
theorem fillReader_end {s : State} (h : ahead s = []) : fillReader s = .raised .streamTruncated s := by
  have hl := congrArg List.length h
  rw [ahead_length, List.length_nil] at hl
  have h0 : s.rCnt = 0 := BitVec.eq_of_toNat_eq (by simp; omega)
  have hn : s.src[s.srcPos]? = none := List.getElem?_eq_none (by omega)
  simp [fillReader, h0, srcPull, hn, ReadResult.bind]

/-- `fillReader` where a bit is ahead: the bits ahead stay the same, at least one is buffered (R92, R93). -/
theorem fillReader_got {s : State} {b : Bool} {rest : Bits} (h : ahead s = b :: rest) :
    ∃ t, fillReader s = .got () t ∧ ahead t = ahead s ∧ t.rCnt ≠ 0 ∧ ReadFrame s t ∧
      t.srcPos = s.srcPos + (1 - s.rCnt.toNat + 7) / 8 ∧
      8 * t.srcPos + s.rCnt.toNat = 8 * s.srcPos + t.rCnt.toNat ∧
      t.srcLog = s.srcLog ++ ((s.src.drop s.srcPos).take (t.srcPos - s.srcPos)).map SrcEvent.pull ∧
      (LowBitsZero s.rAcc s.rCnt → LowBitsZero t.rAcc t.rCnt) := by
  by_cases h0 : s.rCnt = 0
  · have hq : qr s = [] := qr_eq_nil.mpr h0
    have hlt : s.srcPos < s.src.length := by
      have hl := congrArg List.length h
      rw [ahead_length, h0] at hl
      simp at hl; omega
    have hb : s.src[s.srcPos]? = some s.src[s.srcPos] := List.getElem?_eq_getElem hlt
    have h8 : (bitsOfByte s.src[s.srcPos]).length ≤ 15 := by simp
    have hc := setQr_rCnt_toNat h8 { s with srcPos := s.srcPos + 1, srcLog := s.srcLog ++ [.pull s.src[s.srcPos]] }
    rw [bitsOfByte_length] at hc
    refine ⟨_, fillReader_pull h0 hb, ?_, ?_, rfl, ?_, ?_, ?_, fun _ => setQr_low h8 _⟩
    · rw [ahead, qr_setQr h8, ahead, hq, List.drop_eq_getElem_cons hlt]; rfl
    · intro hz; rw [hz] at hc; simp at hc
    · rw [h0]; rfl
    · rw [hc, h0]; simp [setQr]; omega
    · simp only [setQr, Nat.add_sub_cancel_left]
      rw [List.drop_eq_getElem_cons hlt]
      rfl
  · have hne : s.rCnt.toNat ≠ 0 := fun hz => h0 (BitVec.eq_of_toNat_eq hz)
    refine ⟨s, fillReader_buffered h0, rfl, h0, rfl, by omega, by omega, by simp, fun hl => hl⟩

/-- With bits buffered, `ahead` starts with the first of them. -/
theorem qr_of_ahead {s : State} {b : Bool} {rest : Bits} (h : ahead s = b :: rest) (h0 : s.rCnt ≠ 0) :
    ∃ T, qr s = b :: T ∧ T ++ bitsOfBytes (s.src.drop s.srcPos) = rest := by
  cases hq : qr s with
  | nil => exact absurd (qr_eq_nil.mp hq) h0
  | cons c T =>
    rw [ahead, hq, List.cons_append] at h
    obtain ⟨rfl, h2⟩ := List.cons.inj h
    exact ⟨T, rfl, h2⟩

/-- `NextBit` takes the next bit ahead, pulling a byte only if none is buffered (R92). -/
theorem nextBit_got {s : State} {b : Bool} {rest : Bits} (h : ahead s = b :: rest) :
    ∃ t, nextBit s = .got b t ∧ ahead t = rest ∧ Reads s t 1 := by
  obtain ⟨u, hu, ha, hne, hf, hp, hc, hl, hz⟩ := fillReader_got h
  obtain ⟨T, hq, hT⟩ := qr_of_ahead (ha.trans h) hne
  have hlen : T.length + 1 = u.rCnt.toNat := by rw [← qr_length, hq]; rfl
  have h15 : T.length ≤ 15 := by have := u.rCnt.isLt; omega
  have hcnt := setQr_rCnt_toNat h15 u
  have haT : ahead (setQr T u) = rest := by rw [ahead, qr_setQr h15]; exact hT
  refine ⟨setQr T u, ?_, haT, ?_, ⟨?_, hp, ?_, hl, fun _ => setQr_low h15 _⟩, ?_⟩
  · simp [nextBit, hu, ReadResult.bind, hq]
  · rw [h]; simp
  · rw [haT, h]; rfl
  · rw [hcnt]; simp only [setQr_srcPos]; omega
  · rw [ReadFrame, setQr]
    conv_lhs => rw [hf]

/-- `NextBit` at the end of the stream (R92, R109). -/
theorem nextBit_end {s : State} (h : ahead s = []) : nextBit s = .raised .streamTruncated s := by
  simp [nextBit, fillReader_end h, ReadResult.bind]

/-- `PeekBit` gives the next bit ahead and consumes nothing (R93). -/
theorem peekBit_got {s : State} {b : Bool} {rest : Bits} (h : ahead s = b :: rest) :
    ∃ t, fillReader s = .got () t ∧ peekBit s = .got b t ∧ ahead t = ahead s ∧ ReadFrame s t := by
  obtain ⟨u, hu, ha, hne, hf, -⟩ := fillReader_got h
  obtain ⟨T, hq, -⟩ := qr_of_ahead (ha.trans h) hne
  exact ⟨u, hu, by simp [peekBit, hu, ReadResult.bind, hq], ha, hf⟩

/-- `PeekBit` at the end of the stream (R93, R109). -/
theorem peekBit_end {s : State} (h : ahead s = []) : peekBit s = .raised .streamTruncated s := by
  simp [peekBit, fillReader_end h, ReadResult.bind]

/-- `n` bits where `n` are ahead (R94). -/
theorem readBits_got {n : Nat} {s : State} (h : n ≤ (ahead s).length) :
    ∃ t, readBits n s = .got ((ahead s).take n) t ∧ Reads s t n := by
  induction n generalizing s with
  | zero => exact ⟨s, by simp [readBits], .refl s⟩
  | succ n ih =>
    cases ha : ahead s with
    | nil => rw [ha] at h; simp at h
    | cons b rest =>
      obtain ⟨t, ht, hat, hr⟩ := nextBit_got ha
      obtain ⟨u, hu, hr'⟩ := ih (s := t) (by rw [hat]; rw [ha] at h; simpa using h)
      refine ⟨u, ?_, Nat.add_comm n 1 ▸ hr.trans hr'⟩
      simp [readBits, ht, ReadResult.bind, hu, hat]

/-- `n` bits where fewer are ahead: all of them are taken, then StreamTruncated (R94, R109). -/
theorem readBits_raised {n : Nat} {s : State} (h : (ahead s).length < n) :
    ∃ t, readBits n s = .raised .streamTruncated t ∧ Reads s t (ahead s).length := by
  induction n generalizing s with
  | zero => omega
  | succ n ih =>
    cases ha : ahead s with
    | nil => exact ⟨s, by simp [readBits, nextBit_end ha, ReadResult.bind], .refl s⟩
    | cons b rest =>
      obtain ⟨t, ht, hat, hr⟩ := nextBit_got ha
      obtain ⟨u, hu, hr'⟩ := ih (s := t) (by rw [hat]; rw [ha] at h; simpa using h)
      refine ⟨u, by simp [readBits, ht, ReadResult.bind, hu], ?_⟩
      rw [hat] at hr'
      rw [List.length_cons, Nat.add_comm]
      exact hr.trans hr'

/-- `readNat` is `readBits` followed by taking the value. -/
theorem readNat_eq (n x : Nat) (s : State) :
    readNat n x s = (readBits n s).bind fun S t => .got (valFrom x S) t := by
  induction n generalizing x s with
  | zero => rfl
  | succ n ih =>
    simp only [readNat, readBits]
    cases nextBit s with
    | raised e t => rfl
    | got b t =>
      simp only [ReadResult.bind, ih]
      cases readBits n t <;> rfl

/-- `n` bits as a number, where `n` are ahead. -/
theorem readNat_got {n : Nat} {s : State} (x : Nat) (h : n ≤ (ahead s).length) :
    ∃ t, readNat n x s = .got (x * 2 ^ n + val ((ahead s).take n)) t ∧ Reads s t n := by
  obtain ⟨t, ht, hr⟩ := readBits_got h
  refine ⟨t, ?_, hr⟩
  rw [readNat_eq, ht]
  simp only [ReadResult.bind, valFrom_eq, List.length_take, Nat.min_eq_left h]

/-- `n` bits as a number, where fewer are ahead. -/
theorem readNat_raised {n : Nat} {s : State} (x : Nat) (h : (ahead s).length < n) :
    ∃ t, readNat n x s = .raised .streamTruncated t ∧ Reads s t (ahead s).length := by
  obtain ⟨t, ht, hr⟩ := readBits_raised h
  exact ⟨t, by rw [readNat_eq, ht]; rfl, hr⟩

/-! ### Any decoder -/

/-- Whatever a reader procedure does, it only reads: a value or a stream error, after some bits that were there. -/
def ReadsOnly {α : Type} (s : State) : ReadResult α → Prop
  | .got _ t => ∃ n, Reads s t n
  | .raised e t => e.faultsReader = true ∧ ∃ n, Reads s t n

theorem ReadsOnly.bind {α β : Type} {s : State} {r : ReadResult α} {f : α → State → ReadResult β}
    (hr : ReadsOnly s r) (hf : ∀ a t, ReadsOnly t (f a t)) : ReadsOnly s (r.bind f) := by
  cases r with
  | raised e t => exact hr
  | got a t =>
    obtain ⟨m, hm⟩ := hr
    have := hf a t
    simp only [ReadResult.bind]
    cases hft : f a t with
    | raised e u =>
      rw [hft] at this
      obtain ⟨he, n, hn⟩ := this
      exact ⟨he, _, hm.trans hn⟩
    | got b u =>
      rw [hft] at this
      obtain ⟨n, hn⟩ := this
      exact ⟨_, hm.trans hn⟩

theorem readsOnly_got {α : Type} (a : α) (s : State) : ReadsOnly s (.got a s) := ⟨0, .refl s⟩

theorem readsOnly_overflow {α : Type} (s : State) : ReadsOnly s (.raised .symbolOverflow s : ReadResult α) :=
  ⟨rfl, 0, .refl s⟩

theorem readsOnly_nextBit (s : State) : ReadsOnly s (nextBit s) := by
  cases ha : ahead s with
  | nil => rw [nextBit_end ha]; exact ⟨rfl, 0, .refl s⟩
  | cons b rest =>
    obtain ⟨t, ht, -, hr⟩ := nextBit_got ha
    rw [ht]; exact ⟨1, hr⟩

theorem readsOnly_readBits (n : Nat) (s : State) : ReadsOnly s (readBits n s) := by
  by_cases h : n ≤ (ahead s).length
  · obtain ⟨t, ht, hr⟩ := readBits_got h
    rw [ht]; exact ⟨n, hr⟩
  · obtain ⟨t, ht, hr⟩ := readBits_raised (Nat.lt_of_not_le h)
    rw [ht]; exact ⟨rfl, _, hr⟩

theorem readsOnly_readNat (n x : Nat) (s : State) : ReadsOnly s (readNat n x s) := by
  rw [readNat_eq]
  exact (readsOnly_readBits n s).bind fun _ _ => readsOnly_got _ _

theorem readsOnly_vlqLoop (final : Bool) (fuel S i : Nat) (s : State) : ReadsOnly s (vlqLoop final fuel S i s) := by
  induction fuel generalizing S i s with
  | zero => exact readsOnly_overflow s
  | succ fuel ih =>
    refine (readsOnly_readBits 8 s).bind fun U t => ?_
    dsimp only
    split
    · exact readsOnly_overflow t
    · split
      · exact readsOnly_got _ _
      · exact ih _ _ _

theorem readsOnly_gammaZeros (room z : Nat) (s : State) : ReadsOnly s (gammaZeros room z s) := by
  induction room generalizing z s with
  | zero => exact readsOnly_overflow s
  | succ room ih =>
    refine (readsOnly_nextBit s).bind fun b t => ?_
    split
    · exact readsOnly_got _ _
    · exact ih _ _

theorem readsOnly_gammaRead (s : State) : ReadsOnly s (gammaRead s) :=
  (readsOnly_gammaZeros 64 0 s).bind fun z t => readsOnly_readNat z 1 t

theorem readsOnly_decGamma (s : State) : ReadsOnly s (decGamma s) :=
  (readsOnly_gammaRead s).bind fun _ _ => readsOnly_got _ _

theorem readsOnly_decDelta (s : State) : ReadsOnly s (decDelta s) := by
  refine (readsOnly_gammaRead s).bind fun L t => ?_
  split
  · exact readsOnly_overflow t
  · exact (readsOnly_readNat _ _ _).bind fun _ _ => readsOnly_got _ _

theorem readsOnly_omegaLoop (fuel N : Nat) (s : State) : ReadsOnly s (omegaLoop fuel N s) := by
  induction fuel generalizing N s with
  | zero => exact readsOnly_overflow s
  | succ fuel ih =>
    refine (readsOnly_nextBit s).bind fun b t => ?_
    split
    · exact readsOnly_got _ _
    · split
      · exact readsOnly_overflow t
      · exact (readsOnly_readNat _ _ _).bind fun _ _ => ih _ _

theorem readsOnly_fibLoop (terms : List Nat) (p : Bool) (S : Nat) (s : State) :
    ReadsOnly s (fibLoop terms p S s) := by
  induction terms generalizing p S s with
  | nil =>
    refine (readsOnly_nextBit s).bind fun b t => ?_
    split
    · exact readsOnly_got _ _
    · exact readsOnly_overflow t
  | cons f terms ih =>
    refine (readsOnly_nextBit s).bind fun b t => ?_
    split
    · exact readsOnly_got _ _
    · split
      · exact readsOnly_overflow t
      · exact ih _ _ _

theorem readsOnly_decTa (lb : Nat) (s : State) : ReadsOnly s (decTa lb s) :=
  (readsOnly_readNat _ _ _).bind fun _ _ => (readsOnly_readNat _ _ _).bind fun _ _ => readsOnly_got _ _

theorem readsOnly_decRaw (s : State) : ReadsOnly s (decRaw s) := readsOnly_readNat _ _ _

/-- How a command that only reads can end: with a value after `n` bits, or with a stream error after `n` bits. -/
theorem endRead_cases {α : Type} {s : State} {r : ReadResult α} (h : ReadsOnly s r) (toRes : α → Word64) :
    (∃ a t n, r = .got a t ∧ Reads s t n ∧ endRead toRes r = finish (toRes a) true t) ∨
    (∃ e t n, r = .raised e t ∧ e.faultsReader = true ∧ Reads s t n ∧
      endRead toRes r = faultedAfter e.code (t.srcPos - s.srcPos) s) := by
  cases r with
  | got a t =>
    obtain ⟨n, hn⟩ := h
    exact .inl ⟨a, t, n, rfl, hn, rfl⟩
  | raised e t =>
    obtain ⟨he, n, hn⟩ := h
    exact .inr ⟨e, t, n, rfl, he, hn, raise_after_reads he hn⟩

end Sys2Proof.Machine
end

