-- ==== Sys2Proof/Laws/Step.lean ====
section
/-! SUPPORT. What a step can do, said once; and the frames of the codec commands case by case (R104 to R106, R154). -/

namespace Sys2Proof.Machine

/-- The step without an input, with a reset, with an illegal word, with a command (R153, R165, R166). -/
theorem step_eq (s : State) :
    step s = match s.hostInputs with
      | [] => .next s
      | .reset :: rest => .next (resetBlock { s with hostInputs := rest })
      | .command c :: rest =>
        match decode c with
        | .error _ => .next (withResponse 5 0 false { s with hostInputs := rest })
        | .ok i => exec i { s with hostInputs := rest } := by
  unfold step nextInput
  split
  · next h => split at h <;> simp_all [holdState]
  · next h => split at h <;> simp_all
  · next c u h =>
    split at h
    · simp at h
    · next x rest hx =>
      obtain ⟨rfl, rfl⟩ := Prod.mk.inj (Option.some.inj h)
      rw [hx]
      split <;> rename_i hd <;> simp only [hd]
      rfl

/-- Every way a step can answer a next state. -/
theorem step_cases {s t : State} (h : step s = .next t) :
    (s.hostInputs = [] ∧ t = s) ∨
    (∃ rest, s.hostInputs = .reset :: rest ∧ t = resetBlock { s with hostInputs := rest }) ∨
    (∃ c rest e, s.hostInputs = .command c :: rest ∧ decode c = .error e ∧
      t = withResponse 5 0 false { s with hostInputs := rest }) ∨
    (∃ c rest i, s.hostInputs = .command c :: rest ∧ decode c = .ok i ∧
      exec i { s with hostInputs := rest } = .next t) := by
  rw [step_eq] at h
  cases hx : s.hostInputs with
  | nil => rw [hx] at h; exact .inl ⟨rfl, (Host.Outcome.next.inj h).symm⟩
  | cons x rest =>
    rw [hx] at h
    cases x with
    | reset => exact .inr (.inl ⟨rest, rfl, (Host.Outcome.next.inj h).symm⟩)
    | command c =>
      dsimp only at h
      cases hd : decode c with
      | error e =>
        rw [hd] at h
        exact .inr (.inr (.inl ⟨c, rest, e, rfl, hd, (Host.Outcome.next.inj h).symm⟩))
      | ok i =>
        rw [hd] at h
        exact .inr (.inr (.inr ⟨c, rest, i, rfl, hd, h⟩))

/-- Admission to an open writer (R154). -/
theorem withOpenWriter_closed {s : State} (h : s.wState = .closed) (body : State → State) :
    withOpenWriter s body = withResponse 6 0 false s := by
  rw [withOpenWriter, h, if_neg (by decide)]
  exact raise_plain rfl s

theorem withOpenWriter_open {s : State} (h : s.wState = .opened) (body : State → State) :
    withOpenWriter s body = body s := if_pos h

/-- Admission to an open reader (R154, R157). -/
theorem withOpenReader_notOpen {s : State} (h : s.rState ≠ .opened) (body : State → State) :
    withOpenReader s body = withResponse 6 0 false s := by
  rw [withOpenReader, if_neg h]
  exact raise_plain rfl s

theorem withOpenReader_open {s : State} (h : s.rState = .opened) (body : State → State) :
    withOpenReader s body = body s := if_pos h

/-- `W_ENC` out of range (R104). -/
theorem encodeFrame_outOfRange {s : State} (h : s.wState = .opened) {max : Nat} {v : Word64} (hv : max < v.toNat)
    (code : Nat → Bits) : encodeFrame max code v s = withResponse 1 0 false s := by
  rw [encodeFrame, withOpenWriter_open h, symbol, if_pos hv]
  exact raise_plain rfl s

/-- `W_ENC` in range: the code word is appended, and only the accumulator, `SINK` and the response change (R104). -/
theorem encodeFrame_inRange {s : State} (h : s.wState = .opened) {max : Nat} {v : Word64} (hv : v.toNat ≤ max)
    (code : Nat → Bits) :
    encodeFrame max code v s = withResponse 0 0 false (emit (code v.toNat) s) ∧
      Appended s (encodeFrame max code v s) (code v.toNat) ∧ WriterFrame s (encodeFrame max code v s) := by
  have he : encodeFrame max code v s = withResponse 0 0 false (emit (code v.toNat) s) := by
    rw [encodeFrame, withOpenWriter_open h, symbol, if_neg (by omega)]
    rfl
  refine ⟨he, ?_, ?_⟩
  · rw [he]; exact emit_appended _ s
  · rw [he, WriterFrame, withResponse]
    conv_lhs => rw [emit_frame]

/-- `PREDICT` out of range: None (R106). -/
theorem predictFrame_outOfRange {max : Nat} {v : Word64} (hv : max < v.toNat) (len : Nat → Nat) (s : State) :
    predictFrame max len v s = withResponse 0 0 false s := by
  rw [predictFrame, symbol, if_pos hv]
  rfl

/-- `PREDICT` in range (R106). -/
theorem predictFrame_inRange {max : Nat} {v : Word64} (hv : v.toNat ≤ max) (len : Nat → Nat) (s : State) :
    predictFrame max len v s = withResponse 0 (BitVec.ofNat 64 (len v.toNat)) true s := by
  rw [predictFrame, symbol, if_neg (by omega)]
  rfl

/-- `R_DEC` on an open reader: a symbol after `n` bits, or a stream error after `n` bits (R105, R152). -/
theorem decodeFrame_open {s : State} (h : s.rState = .opened) {dec : State → ReadResult Nat}
    (hd : ReadsOnly s (dec s)) :
    (∃ a t n, dec s = .got a t ∧ Reads s t n ∧ decodeFrame dec s = finish (BitVec.ofNat 64 a) true t) ∨
    (∃ e t n, dec s = .raised e t ∧ e.faultsReader = true ∧ Reads s t n ∧
      decodeFrame dec s = faultedAfter e.code (t.srcPos - s.srcPos) s) := by
  rw [decodeFrame, withOpenReader_open h]
  exact endRead_cases hd _

end Sys2Proof.Machine
end

