-- ==== Sys2Proof/Laws/Decoders.lean ====
section
/-! SUPPORT. What the shared parts of the decoders do, in terms of the bits ahead: the run of zeros and the un-offset code
word that Gamma and Delta read (R127, R131), one unit of VLQ (R120, R121), and how a stream error ends the command. -/

namespace Sys2Proof.Machine

/-- A stream error raised after `n` bits ends the command with the bytes pulled that hold these bits (R92, R99, R152). -/
theorem decodeFrame_raised {s t : State} {n : Nat} (h : s.rState = .opened) {dec : State → ReadResult Nat} {e : ErrorKind}
    (he : e.faultsReader = true) (hd : dec s = .raised e t) (hr : Reads s t n) :
    decodeFrame dec s = faultedAfter e.code ((n - s.rCnt.toNat + 7) / 8) s := by
  rw [decodeFrame, withOpenReader_open h, hd]
  show raise e t = _
  rw [raise_after_reads he hr, hr.consumed.2.1, Nat.add_sub_cancel_left]

/-- A symbol returned after `n` bits ends the command with OK (R105). -/
theorem decodeFrame_got {s t : State} {n a : Nat} (h : s.rState = .opened) {dec : State → ReadResult Nat}
    (hd : dec s = .got a t) (hr : Reads s t n) :
    Consumed s (decodeFrame dec s) n ∧ ReaderFrame (BitVec.ofNat 64 a) s (decodeFrame dec s) := by
  rw [decodeFrame, withOpenReader_open h, hd]
  exact finish_after_reads hr _

/-- `n` bits that stand ahead are read, and what follows them is ahead then. -/
theorem readBits_ahead {s : State} {S rest : Bits} (h : ahead s = S ++ rest) :
    ∃ t, readBits S.length s = .got S t ∧ ahead t = rest ∧ Reads s t S.length := by
  obtain ⟨t, ht, hr⟩ := readBits_got (s := s) (n := S.length) (by rw [h]; simp)
  refine ⟨t, ?_, ?_, hr⟩
  · rw [ht, h, List.take_left' rfl]
  · rw [hr.consumed.1, h, List.drop_left' rfl]

/-- The same as a number, on top of the bits already in `x`. -/
theorem readNat_ahead {s : State} {S rest : Bits} (x : Nat) (h : ahead s = S ++ rest) :
    ∃ t, readNat S.length x s = .got (x * 2 ^ S.length + val S) t ∧ ahead t = rest ∧ Reads s t S.length := by
  obtain ⟨t, ht, ha, hr⟩ := readBits_ahead h
  refine ⟨t, ?_, ha, hr⟩
  rw [readNat_eq, ht]
  simp only [ReadResult.bind, valFrom_eq]

/-- Fewer zeros than there is room for, then a 1 (R127). -/
theorem gammaZeros_got {room k z : Nat} {s : State} {rest : Bits} (hk : k < room)
    (h : ahead s = zeros k ++ true :: rest) :
    ∃ t, gammaZeros room z s = .got (z + k) t ∧ ahead t = rest ∧ Reads s t (k + 1) := by
  induction room generalizing k z s with
  | zero => omega
  | succ room ih =>
    cases k with
    | zero =>
      obtain ⟨t, ht, ha, hr⟩ := nextBit_got (b := true) (rest := rest) h
      exact ⟨t, by simp [gammaZeros, ht, ReadResult.bind], ha, hr⟩
    | succ k =>
      obtain ⟨t, ht, ha, hr⟩ := nextBit_got (b := false) (rest := zeros k ++ true :: rest) h
      obtain ⟨u, hu, ha', hr'⟩ := ih (z := z + 1) (by omega) ha
      refine ⟨u, ?_, ha', Nat.add_comm 1 (k + 1) ▸ hr.trans hr'⟩
      simp only [gammaZeros, ht, ReadResult.bind, hu, Bool.false_eq_true, if_false]
      rw [Nat.add_assoc, Nat.add_comm 1 k]

/-- As many zeros as there is room for: SymbolOverflow right after the last of them (R127). -/
theorem gammaZeros_overflow {room z : Nat} {s : State} {rest : Bits} (h : ahead s = zeros room ++ rest) :
    ∃ t, gammaZeros room z s = .raised .symbolOverflow t ∧ Reads s t room := by
  induction room generalizing z s with
  | zero => exact ⟨s, rfl, .refl s⟩
  | succ room ih =>
    obtain ⟨t, ht, ha, hr⟩ := nextBit_got (b := false) (rest := zeros room ++ rest) h
    obtain ⟨u, hu, hr'⟩ := ih (z := z + 1) ha
    exact ⟨u, by simp [gammaZeros, ht, ReadResult.bind, hu], Nat.add_comm 1 room ▸ hr.trans hr'⟩

/-- `GammaRead` on an un-offset gamma code word of a value below `2^64` returns the value and reads just that word (R127). -/
theorem gammaRead_got {x : Nat} {s : State} {S rest : Bits} (hx : x < 2 ^ 64) (hS : GammaWord x S)
    (h : ahead s = S ++ rest) :
    ∃ t, gammaRead s = .got x t ∧ ahead t = rest ∧ Reads s t S.length := by
  obtain ⟨L, h1, h2, rfl⟩ := hS
  have hL : L < 64 := (Nat.pow_lt_pow_iff_right (by omega)).mp (lt_of_le_of_lt h1 hx)
  have hlead : bin (L + 1) x = true :: bin L (x - 2 ^ L) := by
    have hx' : x = 2 ^ L * 1 + (x - 2 ^ L) := by omega
    have hlt : x - 2 ^ L < 2 ^ L := by rw [pow_succ] at h2; omega
    rw [bin]
    congr 1
    · rw [hx', Nat.testBit_two_pow_mul_add _ hlt]; simp
    · conv_lhs => rw [hx', bin_add_high]
  rw [hlead, List.append_assoc, List.cons_append] at h
  obtain ⟨t, ht, ha, hr⟩ := gammaZeros_got (z := 0) hL h
  obtain ⟨u, hu, ha', hr'⟩ := readNat_ahead 1 ha
  have hval : 1 * 2 ^ (bin L (x - 2 ^ L)).length + val (bin L (x - 2 ^ L)) = x := by
    rw [bin_length, val_bin_of_lt (by rw [pow_succ] at h2; omega)]; omega
  rw [hval] at hu
  rw [bin_length] at hu hr'
  refine ⟨u, ?_, ha', ?_⟩
  · simp only [gammaRead, ht, ReadResult.bind, Nat.zero_add, hu]
  · rw [show (zeros L ++ bin (L + 1) x).length = L + 1 + L by simp; omega]
    exact hr.trans hr'

/-- `GammaRead` on 64 zeros raises SymbolOverflow right after them (R127). -/
theorem gammaRead_overflow {s : State} {rest : Bits} (h : ahead s = zeros 64 ++ rest) :
    ∃ t, gammaRead s = .raised .symbolOverflow t ∧ Reads s t 64 := by
  obtain ⟨t, ht, hr⟩ := gammaZeros_overflow (z := 0) h
  exact ⟨t, by rw [gammaRead, ht]; rfl, hr⟩

/-- One round of the VLQ decoding loop, with a whole unit ahead (R120, R121). -/
theorem vlqLoop_unit (final : Bool) (fuel S i : Nat) {f : Bool} {g : Nat} (hg : g < 128) {s : State} {rest : Bits}
    (h : ahead s = f :: bin 7 g ++ rest) :
    ∃ t, ahead t = rest ∧ Reads s t 8 ∧
      vlqLoop final (fuel + 1) S i s =
        if S + (g + 1) * 2 ^ (7 * i) > 2 ^ 64 - 1 then .raised .symbolOverflow t
        else if f = final then .got (S + (g + 1) * 2 ^ (7 * i) - 1) t
        else vlqLoop final fuel (S + (g + 1) * 2 ^ (7 * i)) (i + 1) t := by
  obtain ⟨t, ht, ha, hr⟩ := readBits_ahead (S := f :: bin 7 g) h
  rw [List.length_cons, bin_length] at ht hr
  refine ⟨t, ha, hr, ?_⟩
  simp only [vlqLoop, ht, ReadResult.bind, List.tail_cons, List.headD_cons, val_bin_of_lt (show g < 2 ^ 7 from hg)]

end Sys2Proof.Machine
end

