-- ==== Sys2Proof/Laws/PerInstr.lean ====
section
/-! SUPPORT. The family of per-instruction laws: the encoded word of every well-formed instruction matches the `match` and
`mask` of its row of `opcode_table.json`, copied here row by row. -/

namespace Sys2Proof.Laws

/-- The `mask` and `match` of an instruction's row in `opcode_table.json`. -/
def tableRow : Instr → CmdWord × CmdWord
  | .wOpen _ => (0xFFFE#16, 0x1000#16)
  | .wBits _ _ => (0xFF80#16, 0x2000#16)
  | .wAlign => (0xFFFF#16, 0x3000#16)
  | .wClose => (0xFFFF#16, 0x4000#16)
  | .wEncVlq _ => (0xFFFF#16, 0x5000#16)
  | .wEncIvlq _ => (0xFFFF#16, 0x5001#16)
  | .wEncGamma _ => (0xFFFF#16, 0x5002#16)
  | .wEncDelta _ => (0xFFFF#16, 0x5003#16)
  | .wEncOmega _ => (0xFFFF#16, 0x5004#16)
  | .wEncFib _ => (0xFFFF#16, 0x5005#16)
  | .wEncTa _ => (0xFFFF#16, 0x5006#16)
  | .wEncRaw _ => (0xFFFF#16, 0x5007#16)
  | .predictVlq _ => (0xFFFF#16, 0x6000#16)
  | .predictIvlq _ => (0xFFFF#16, 0x6001#16)
  | .predictGamma _ => (0xFFFF#16, 0x6002#16)
  | .predictDelta _ => (0xFFFF#16, 0x6003#16)
  | .predictOmega _ => (0xFFFF#16, 0x6004#16)
  | .predictFib _ => (0xFFFF#16, 0x6005#16)
  | .predictTa _ => (0xFFFF#16, 0x6006#16)
  | .predictRaw _ => (0xFFFF#16, 0x6007#16)
  | .cfgTa _ => (0xFFF8#16, 0x7000#16)
  | .rOpen _ => (0xFFFE#16, 0x9000#16)
  | .rBits _ => (0xFF80#16, 0xA000#16)
  | .rPeek => (0xFFFF#16, 0xB000#16)
  | .rAlign => (0xFFFF#16, 0xC000#16)
  | .rClose => (0xFFFF#16, 0xD000#16)
  | .rDecVlq => (0xFFFF#16, 0xE000#16)
  | .rDecIvlq => (0xFFFF#16, 0xE001#16)
  | .rDecGamma => (0xFFFF#16, 0xE002#16)
  | .rDecDelta => (0xFFFF#16, 0xE003#16)
  | .rDecOmega => (0xFFFF#16, 0xE004#16)
  | .rDecFib => (0xFFFF#16, 0xE005#16)
  | .rDecTa => (0xFFFF#16, 0xE006#16)
  | .rDecRaw => (0xFFFF#16, 0xE007#16)

/-- The encoded word has the fixed bits of its row. -/
def MatchesTable.Statement (i : Instr) : Prop :=
  i.wellFormed = true → (encode i).cmd &&& (tableRow i).1 = (tableRow i).2

theorem MatchesTable.wOpen (own : Bool) : MatchesTable.Statement (.wOpen own) := by
  intro _
  cases own <;> decide

/-- A command word that is fixed whole matches its row. -/
theorem fixedWord {c : Command} {r : CmdWord × CmdWord} (w : CmdWord) (h1 : c.cmd = w) (h2 : r = (0xFFFF#16, w))
    (h3 : w &&& 0xFFFF#16 = w) : c.cmd &&& r.1 = r.2 := by
  rw [h1, h2, h3]

/-- A 7-bit count stays out of the fixed bits of format B (R71). -/
theorem countWord_masked : ∀ nb : BitVec 7,
    (0x2000#16 ||| nb.setWidth 16) &&& 0xFF80#16 = 0x2000#16 ∧
      (0xA000#16 ||| nb.setWidth 16) &&& 0xFF80#16 = 0xA000#16 := by
  decide

theorem MatchesTable.wBits (nb : BitVec 7) (v : Word64) : MatchesTable.Statement (.wBits nb v) := by
  intro _
  exact (countWord_masked nb).1

theorem MatchesTable.wAlign : MatchesTable.Statement (.wAlign) := by
  intro _
  exact fixedWord 0x3000#16 rfl rfl (by decide)

theorem MatchesTable.wClose : MatchesTable.Statement (.wClose) := by
  intro _
  exact fixedWord 0x4000#16 rfl rfl (by decide)

theorem MatchesTable.wEncVlq (v : Word64) : MatchesTable.Statement (.wEncVlq v) := by
  intro _
  exact fixedWord 0x5000#16 rfl rfl (by decide)

theorem MatchesTable.wEncIvlq (v : Word64) : MatchesTable.Statement (.wEncIvlq v) := by
  intro _
  exact fixedWord 0x5001#16 rfl rfl (by decide)

theorem MatchesTable.wEncGamma (v : Word64) : MatchesTable.Statement (.wEncGamma v) := by
  intro _
  exact fixedWord 0x5002#16 rfl rfl (by decide)

theorem MatchesTable.wEncDelta (v : Word64) : MatchesTable.Statement (.wEncDelta v) := by
  intro _
  exact fixedWord 0x5003#16 rfl rfl (by decide)

theorem MatchesTable.wEncOmega (v : Word64) : MatchesTable.Statement (.wEncOmega v) := by
  intro _
  exact fixedWord 0x5004#16 rfl rfl (by decide)

theorem MatchesTable.wEncFib (v : Word64) : MatchesTable.Statement (.wEncFib v) := by
  intro _
  exact fixedWord 0x5005#16 rfl rfl (by decide)

theorem MatchesTable.wEncTa (v : Word64) : MatchesTable.Statement (.wEncTa v) := by
  intro _
  exact fixedWord 0x5006#16 rfl rfl (by decide)

theorem MatchesTable.wEncRaw (v : Word64) : MatchesTable.Statement (.wEncRaw v) := by
  intro _
  exact fixedWord 0x5007#16 rfl rfl (by decide)

theorem MatchesTable.predictVlq (v : Word64) : MatchesTable.Statement (.predictVlq v) := by
  intro _
  exact fixedWord 0x6000#16 rfl rfl (by decide)

theorem MatchesTable.predictIvlq (v : Word64) : MatchesTable.Statement (.predictIvlq v) := by
  intro _
  exact fixedWord 0x6001#16 rfl rfl (by decide)

theorem MatchesTable.predictGamma (v : Word64) : MatchesTable.Statement (.predictGamma v) := by
  intro _
  exact fixedWord 0x6002#16 rfl rfl (by decide)

theorem MatchesTable.predictDelta (v : Word64) : MatchesTable.Statement (.predictDelta v) := by
  intro _
  exact fixedWord 0x6003#16 rfl rfl (by decide)

theorem MatchesTable.predictOmega (v : Word64) : MatchesTable.Statement (.predictOmega v) := by
  intro _
  exact fixedWord 0x6004#16 rfl rfl (by decide)

theorem MatchesTable.predictFib (v : Word64) : MatchesTable.Statement (.predictFib v) := by
  intro _
  exact fixedWord 0x6005#16 rfl rfl (by decide)

theorem MatchesTable.predictTa (v : Word64) : MatchesTable.Statement (.predictTa v) := by
  intro _
  exact fixedWord 0x6006#16 rfl rfl (by decide)

theorem MatchesTable.predictRaw (v : Word64) : MatchesTable.Statement (.predictRaw v) := by
  intro _
  exact fixedWord 0x6007#16 rfl rfl (by decide)

theorem MatchesTable.cfgTa (lb : BitVec 3) : MatchesTable.Statement (.cfgTa lb) := by
  intro _
  simp only [encode, tableRow]
  revert lb
  decide

theorem MatchesTable.rOpen (own : Bool) : MatchesTable.Statement (.rOpen own) := by
  intro _
  cases own <;> decide

theorem MatchesTable.rBits (nb : BitVec 7) : MatchesTable.Statement (.rBits nb) := by
  intro _
  exact (countWord_masked nb).2

theorem MatchesTable.rPeek : MatchesTable.Statement (.rPeek) := by
  intro _
  exact fixedWord 0xB000#16 rfl rfl (by decide)

theorem MatchesTable.rAlign : MatchesTable.Statement (.rAlign) := by
  intro _
  exact fixedWord 0xC000#16 rfl rfl (by decide)

theorem MatchesTable.rClose : MatchesTable.Statement (.rClose) := by
  intro _
  exact fixedWord 0xD000#16 rfl rfl (by decide)

theorem MatchesTable.rDecVlq : MatchesTable.Statement (.rDecVlq) := by
  intro _
  exact fixedWord 0xE000#16 rfl rfl (by decide)

theorem MatchesTable.rDecIvlq : MatchesTable.Statement (.rDecIvlq) := by
  intro _
  exact fixedWord 0xE001#16 rfl rfl (by decide)

theorem MatchesTable.rDecGamma : MatchesTable.Statement (.rDecGamma) := by
  intro _
  exact fixedWord 0xE002#16 rfl rfl (by decide)

theorem MatchesTable.rDecDelta : MatchesTable.Statement (.rDecDelta) := by
  intro _
  exact fixedWord 0xE003#16 rfl rfl (by decide)

theorem MatchesTable.rDecOmega : MatchesTable.Statement (.rDecOmega) := by
  intro _
  exact fixedWord 0xE004#16 rfl rfl (by decide)

theorem MatchesTable.rDecFib : MatchesTable.Statement (.rDecFib) := by
  intro _
  exact fixedWord 0xE005#16 rfl rfl (by decide)

theorem MatchesTable.rDecTa : MatchesTable.Statement (.rDecTa) := by
  intro _
  exact fixedWord 0xE006#16 rfl rfl (by decide)

theorem MatchesTable.rDecRaw : MatchesTable.Statement (.rDecRaw) := by
  intro _
  exact fixedWord 0xE007#16 rfl rfl (by decide)

end Sys2Proof.Laws
end

