-- ==== Sys2Proof/Tests/Slice0.lean ====
section
/-! SUPPORT. Tests of the model: well-formedness, decoding of words written out from the encodings of spec/, one-step tests
with the expected values of `95_test_vectors.md` (each names its row), and for every statement with hypotheses a state and
operands that meet them. -/

namespace Sys2Proof.Tests

open Sys2Proof.Machine

/-! ### Helpers -/

/-- The state `exec` answers. -/
def after (i : Instr) (s : State) : State :=
  match exec i s with
  | .next t => t
  | .fault _ => s
  | .refused _ => s

/-- Whether an outcome is a next state. -/
def isNext : Host.Outcome State Fault Refusal → Bool
  | .next _ => true
  | .fault _ => false
  | .refused _ => false

theorem exec_after {i : Instr} {s : State} (h : isNext (exec i s) = true) : exec i s = .next (after i s) := by
  cases ho : exec i s with
  | next t => rw [after, ho]
  | fault r => rw [ho] at h; simp [isNext] at h
  | refused r => rw [ho] at h; simp [isNext] at h

/-- The state `step` answers. -/
def stepped (s : State) : State :=
  match step s with
  | .next t => t
  | .fault _ => s
  | .refused _ => s

/-- Bits written as 0 and 1. -/
def b (l : List Nat) : Bits := l.map (· == 1)

/-- The bytes sent, without the `Close` events. -/
def sent (s : State) : List Byte := s.sink.filterMap fun e => match e with
  | .byte x => some x
  | .close => none

/-- An open writer with the given carry register. -/
def writer (own : Bool) (cnt : BitVec 4) (acc : Word64) : State :=
  { State.launch [] with wState := .opened, wOwn := own, wCnt := cnt, wAcc := acc }

/-- An open, empty writer. -/
def freshWriter : State := writer false 0 0

/-- A fresh reader on a source (`95_test_vectors.md`, Notation). -/
def reader (src : List Byte) : State := { State.launch src with rState := .opened }

/-- A reader that has pulled the one byte of its source and holds `cnt` bits of it. -/
def readerMid (own : Bool) (cnt : BitVec 4) (acc : Word64) (last : Byte) : State :=
  { State.launch [last] with rState := .opened, rOwn := own, rCnt := cnt, rAcc := acc, srcPos := 1, srcLog := [.pull last] }

/-- A faulted reader that owns its source, at the end of one byte. -/
def faultedReader : State :=
  { State.launch [0x11#8, 0x22#8] with rState := .faulted, rOwn := true, srcPos := 1, srcLog := [.pull 0x11#8] }

/-- The response, and what a writer command added. -/
def wrote (i : Instr) (s : State) : BitVec 3 × List Byte × Bits :=
  ((after i s).status, sent (after i s), qw (after i s))

/-- The response, the position in the source and the buffered bits after a reader command. -/
def got (i : Instr) (s : State) : (BitVec 3 × Word64 × Bool) × Nat × Bits :=
  ((after i s).response, (after i s).srcPos, qr (after i s))

/-! ### Well-formedness: the smoke test (R74, R79) -/

theorem test_wf_wBits_refuses_0 : (Instr.wBits 0#7 5#64).wellFormed = false := by decide
theorem test_wf_wBits_refuses_65 : (Instr.wBits 65#7 5#64).wellFormed = false := by decide
theorem test_wf_wBits_refuses_127 : (Instr.wBits 127#7 5#64).wellFormed = false := by decide
theorem test_wf_wBits_accepts_1_and_64 : (Instr.wBits 1#7 5#64).wellFormed && (Instr.wBits 64#7 5#64).wellFormed := by
  decide
theorem test_wf_rBits_refuses_0 : (Instr.rBits 0#7).wellFormed = false := by decide
theorem test_wf_rBits_refuses_65 : (Instr.rBits 65#7).wellFormed = false := by decide
theorem test_wf_rBits_refuses_127 : (Instr.rBits 127#7).wellFormed = false := by decide
theorem test_wf_rBits_accepts_1_and_64 : (Instr.rBits 1#7).wellFormed && (Instr.rBits 64#7).wellFormed := by decide

/-! ### Decoding: one word for every constructor, written out from R69 to R77 -/

theorem test_decode_wOpen_own : decode ⟨0b0001_0000_0000_0001#16, 0#64⟩ = .ok (.wOpen true) := by decide
theorem test_decode_wOpen_shared : decode ⟨0b0001_0000_0000_0000#16, 7#64⟩ = .ok (.wOpen false) := by decide
theorem test_decode_wBits_5 : decode ⟨0b0010_0000_0000_0101#16, 0x13#64⟩ = .ok (.wBits 5#7 0x13#64) := by decide
theorem test_decode_wBits_64 : decode ⟨0b0010_0000_0100_0000#16, 0xFFFFFFFFFFFFFFFF#64⟩ = .ok (.wBits 64#7 0xFFFFFFFFFFFFFFFF#64) := by decide
theorem test_decode_wAlign : decode ⟨0b0011_0000_0000_0000#16, 9#64⟩ = .ok (.wAlign) := by decide
theorem test_decode_wClose : decode ⟨0b0100_0000_0000_0000#16, 0#64⟩ = .ok (.wClose) := by decide
theorem test_decode_wEncVlq : decode ⟨0b0101_0000_0000_0000#16, 1000#64⟩ = .ok (.wEncVlq 1000#64) := by decide
theorem test_decode_wEncIvlq : decode ⟨0b0101_0000_0000_0001#16, 1000#64⟩ = .ok (.wEncIvlq 1000#64) := by decide
theorem test_decode_wEncGamma : decode ⟨0b0101_0000_0000_0010#16, 1000#64⟩ = .ok (.wEncGamma 1000#64) := by decide
theorem test_decode_wEncDelta : decode ⟨0b0101_0000_0000_0011#16, 1000#64⟩ = .ok (.wEncDelta 1000#64) := by decide
theorem test_decode_wEncOmega : decode ⟨0b0101_0000_0000_0100#16, 1000#64⟩ = .ok (.wEncOmega 1000#64) := by decide
theorem test_decode_wEncFib : decode ⟨0b0101_0000_0000_0101#16, 1000#64⟩ = .ok (.wEncFib 1000#64) := by decide
theorem test_decode_wEncTa : decode ⟨0b0101_0000_0000_0110#16, 1000#64⟩ = .ok (.wEncTa 1000#64) := by decide
theorem test_decode_wEncRaw : decode ⟨0b0101_0000_0000_0111#16, 1000#64⟩ = .ok (.wEncRaw 1000#64) := by decide
theorem test_decode_predictVlq : decode ⟨0b0110_0000_0000_0000#16, 1000#64⟩ = .ok (.predictVlq 1000#64) := by decide
theorem test_decode_predictIvlq : decode ⟨0b0110_0000_0000_0001#16, 1000#64⟩ = .ok (.predictIvlq 1000#64) := by decide
theorem test_decode_predictGamma : decode ⟨0b0110_0000_0000_0010#16, 1000#64⟩ = .ok (.predictGamma 1000#64) := by decide
theorem test_decode_predictDelta : decode ⟨0b0110_0000_0000_0011#16, 1000#64⟩ = .ok (.predictDelta 1000#64) := by decide
theorem test_decode_predictOmega : decode ⟨0b0110_0000_0000_0100#16, 1000#64⟩ = .ok (.predictOmega 1000#64) := by decide
theorem test_decode_predictFib : decode ⟨0b0110_0000_0000_0101#16, 1000#64⟩ = .ok (.predictFib 1000#64) := by decide
theorem test_decode_predictTa : decode ⟨0b0110_0000_0000_0110#16, 1000#64⟩ = .ok (.predictTa 1000#64) := by decide
theorem test_decode_predictRaw : decode ⟨0b0110_0000_0000_0111#16, 1000#64⟩ = .ok (.predictRaw 1000#64) := by decide
theorem test_decode_cfgTa_3 : decode ⟨0b0111_0000_0000_0011#16, 0#64⟩ = .ok (.cfgTa 3#3) := by decide
theorem test_decode_cfgTa_7 : decode ⟨0b0111_0000_0000_0111#16, 0#64⟩ = .ok (.cfgTa 7#3) := by decide
theorem test_decode_rOpen : decode ⟨0b1001_0000_0000_0001#16, 0#64⟩ = .ok (.rOpen true) := by decide
theorem test_decode_rBits_12 : decode ⟨0b1010_0000_0000_1100#16, 0#64⟩ = .ok (.rBits 12#7) := by decide
theorem test_decode_rPeek : decode ⟨0b1011_0000_0000_0000#16, 0#64⟩ = .ok (.rPeek) := by decide
theorem test_decode_rAlign : decode ⟨0b1100_0000_0000_0000#16, 0#64⟩ = .ok (.rAlign) := by decide
theorem test_decode_rClose : decode ⟨0b1101_0000_0000_0000#16, 0#64⟩ = .ok (.rClose) := by decide
theorem test_decode_rDecVlq : decode ⟨0b1110_0000_0000_0000#16, 5#64⟩ = .ok (.rDecVlq) := by decide
theorem test_decode_rDecIvlq : decode ⟨0b1110_0000_0000_0001#16, 5#64⟩ = .ok (.rDecIvlq) := by decide
theorem test_decode_rDecGamma : decode ⟨0b1110_0000_0000_0010#16, 5#64⟩ = .ok (.rDecGamma) := by decide
theorem test_decode_rDecDelta : decode ⟨0b1110_0000_0000_0011#16, 5#64⟩ = .ok (.rDecDelta) := by decide
theorem test_decode_rDecOmega : decode ⟨0b1110_0000_0000_0100#16, 5#64⟩ = .ok (.rDecOmega) := by decide
theorem test_decode_rDecFib : decode ⟨0b1110_0000_0000_0101#16, 5#64⟩ = .ok (.rDecFib) := by decide
theorem test_decode_rDecTa : decode ⟨0b1110_0000_0000_0110#16, 5#64⟩ = .ok (.rDecTa) := by decide
theorem test_decode_rDecRaw : decode ⟨0b1110_0000_0000_0111#16, 5#64⟩ = .ok (.rDecRaw) := by decide

/-- `95_test_vectors.md` V1 to V15: the reserved operations, the reserved bits of each format, the bit counts. -/
theorem test_decode_reserved_op :
    ([0x0000#16, 0x8000#16, 0xF000#16, 0xF00F#16, 0x0FFF#16, 0x8FFF#16].all fun w =>
      decide (decode ⟨w, 0#64⟩ = .error .reservedOp)) = true := by decide

theorem test_decode_reserved_bits :
    ([0x1002#16, 0x9800#16, 0x20C1#16, 0xA081#16, 0x3001#16, 0x4800#16, 0xB001#16, 0xC001#16, 0xD001#16, 0x5008#16, 0x6010#16,
      0xE008#16, 0x7008#16].all fun w => decide (decode ⟨w, 0#64⟩ = .error .reservedBits)) = true := by decide

theorem test_decode_bad_count :
    ([0x2000#16, 0x2041#16, 0x207F#16, 0xA000#16, 0xA041#16, 0xA07F#16].all fun w =>
      decide (decode ⟨w, 5#64⟩ = .error .badBitCount)) = true := by decide

/-- The host's numbering: the operand follows the command word. -/
theorem test_decodeTableWord_operand : decodeTableWord 80 (0x13 * 2 ^ 16 + 0x2005) = some (.wBits 5#7 0x13#64) := by decide

/-- `95_test_vectors.md` W11, in the assembler's syntax (R83); out-of-range numbers are refused. -/
theorem test_assemble : assemble (.wBits 13 0x1C3A) = some ⟨0x200D#16, 0x1C3A#64⟩ ∧ assemble (.wBits 0 1) = none ∧
    assemble (.wBits 65 1) = none ∧ assemble (.rOpen 2) = none ∧ assemble (.cfgTa 8) = none ∧
    assemble (.rDec .ta) = some ⟨0xE006#16, 0#64⟩ := by decide

/-- R84: `w.byte` is `w.bits 8`, `r.skip 5` is `r.bits 5`. -/
theorem test_pseudo : assemble (expandPseudo (.wByte 0xA5)) = some ⟨0x2008#16, 0xA5#64⟩ ∧
    assemble (expandPseudo (.rSkip 5)) = some ⟨0xA005#16, 0#64⟩ := by decide

/-! ### Writer channel (`95_test_vectors.md` 2.2) -/

/-- V16. -/
theorem test_wOpen :
    (after (.wOpen true) State.reset).wState = .opened ∧ (after (.wOpen true) State.reset).wOwn = true := by decide

/-- V17. -/
theorem test_wOpen_twice : (after (.wOpen false) freshWriter).response = (6, 0, false) := by decide

/-- V23. -/
theorem test_wBits_71_bits_merged :
    wrote (.wBits 64#7 0x0123456789ABCDEF#64) (writer false 7 0xFE00000000000000#64) =
      (0, [0xFE#8, 0x02#8, 0x46#8, 0x8A#8, 0xCF#8, 0x13#8, 0x57#8, 0x9B#8], b [1, 1, 0, 1, 1, 1, 1]) := by decide

/-- V21. -/
theorem test_wBits_low_bits_only :
    wrote (.wBits 4#7 0xFFFFFFFFFFFFFFF5#64) freshWriter = (0, [], b [0, 1, 0, 1]) := by decide

/-- V26. -/
theorem test_wAlign : wrote .wAlign (writer false 6 0xE400000000000000#64) = (0, [0xE4#8], []) := by decide

/-- V27. -/
theorem test_wAlign_nothing_pending : wrote .wAlign freshWriter = (0, [], []) := by decide

/-- V30. -/
theorem test_wClose_owned :
    (after .wClose (writer true 5 0x5800000000000000#64)).sink = [.byte 0x58#8, .close] := by decide

/-- V31. -/
theorem test_wClose_shared : (after .wClose (writer false 5 0x5800000000000000#64)).sink = [.byte 0x58#8] := by decide

/-! ### Reader channel (`95_test_vectors.md` 2.3) -/

/-- V35. -/
theorem test_rOpen :
    (after (.rOpen true) (State.launch [0x3C#8])).rState = .opened ∧ (after (.rOpen true) (State.launch [0x3C#8])).rOwn = true := by decide

/-- V65. -/
theorem test_rOpen_faulted : (after (.rOpen false) faultedReader).response = (6, 0, false) := by decide

/-- V40: 5 bits buffered, one byte pulled. -/
theorem test_rBits_across_bytes :
    got (.rBits 12#7) { readerMid false 5 0xE000000000000000#64 0x3C#8 with src := [0x3C#8, 0x0F#8] } =
      ((0, 0xE07, true), 2, b [1]) := by decide

/-- V46: 4 bits buffered, the source ends. -/
theorem test_rBits_truncated :
    got (.rBits 8#7) (readerMid false 4 0xF000000000000000#64 0xFF#8) = ((2, 0, false), 1, []) ∧
      (after (.rBits 8#7) (readerMid false 4 0xF000000000000000#64 0xFF#8)).rState = .faulted := by decide

/-- V47. -/
theorem test_rPeek_pulls : got .rPeek (reader [0xA5#8]) = ((0, 1, true), 1, b [1, 0, 1, 0, 0, 1, 0, 1]) := by decide

/-- V49. -/
theorem test_rPeek_buffered :
    got .rPeek (readerMid false 6 0x9400000000000000#64 0xA5#8) = ((0, 1, true), 1, b [1, 0, 0, 1, 0, 1]) := by decide

/-- R96: five bits are discarded. -/
theorem test_rAlign_partial :
    got .rAlign (readerMid false 5 0xE000000000000000#64 0x3C#8) = ((0, 0, false), 1, []) := by decide

/-- R96: RCNT = 8, nothing is discarded. -/
theorem test_rAlign_whole_byte :
    got .rAlign (readerMid false 8 0xA500000000000000#64 0xA5#8) = ((0, 0, false), 1, b [1, 0, 1, 0, 0, 1, 0, 1]) := by decide

/-- V67. -/
theorem test_rClose_recovers :
    (after .rClose faultedReader).srcLog = [.pull 0x11#8, .release] ∧ (after .rClose faultedReader).rState = .closed := by decide

/-- R97: a closed reader keeps its state. -/
theorem test_rClose_closed : after .rClose State.reset = State.reset := by decide

/-! ### Codecs (`95_test_vectors.md` 2.5 to 2.13) -/

/-- The encode table of Vlq. -/
theorem test_wEncVlq_1000 : wrote (.wEncVlq 1000#64) freshWriter = (0, [0x68#8, 0x86#8], []) := by decide

/-- The encode table of Vlq, its largest symbol. -/
theorem test_wEncVlq_largest :
    wrote (.wEncVlq 18446744073709551614#64) freshWriter =
      (0, [0x7E#8, 0x7E#8, 0x7E#8, 0x7E#8, 0x7E#8, 0x7E#8, 0x7E#8, 0x7E#8, 0x7E#8, 0x80#8], []) := by decide

/-- The encode table of Ivlq. -/
theorem test_wEncIvlq_16512 : wrote (.wEncIvlq 16512#64) freshWriter = (0, [0x80#8, 0x80#8, 0x00#8], []) := by decide

/-- The encode table of Ivlq, its largest symbol. -/
theorem test_wEncIvlq_largest :
    wrote (.wEncIvlq 18446744073709551614#64) freshWriter =
      (0, [0xFE#8, 0xFE#8, 0xFE#8, 0xFE#8, 0xFE#8, 0xFE#8, 0xFE#8, 0xFE#8, 0xFE#8, 0x00#8], []) := by decide

/-- The encode table of Gamma. -/
theorem test_wEncGamma_1000 : wrote (.wEncGamma 1000#64) freshWriter = (0, [0x00#8, 0x7D#8], b [0, 0, 1]) := by decide

/-- The encode table of Gamma, its largest symbol. -/
theorem test_wEncGamma_largest :
    wrote (.wEncGamma 18446744073709551614#64) freshWriter =
      (0, [0x00#8, 0x00#8, 0x00#8, 0x00#8, 0x00#8, 0x00#8, 0x00#8, 0x01#8, 0xFF#8, 0xFF#8, 0xFF#8, 0xFF#8, 0xFF#8, 0xFF#8, 0xFF#8], b [1, 1, 1, 1, 1, 1, 1]) := by decide +kernel

/-- The encode table of Delta. -/
theorem test_wEncDelta_15 : wrote (.wEncDelta 15#64) freshWriter = (0, [0x28#8], b [0]) := by decide

/-- The encode table of Delta, its largest symbol. -/
theorem test_wEncDelta_largest :
    wrote (.wEncDelta 18446744073709551614#64) freshWriter =
      (0, [0x02#8, 0x07#8, 0xFF#8, 0xFF#8, 0xFF#8, 0xFF#8, 0xFF#8, 0xFF#8, 0xFF#8], b [1, 1, 1, 1]) := by decide

/-- The encode table of Omega. -/
theorem test_wEncOmega_100 : wrote (.wEncOmega 100#64) freshWriter = (0, [0xB6#8], b [0, 1, 0, 1, 0]) := by decide

/-- The encode table of Omega, its largest symbol. -/
theorem test_wEncOmega_largest :
    wrote (.wEncOmega 18446744073709551614#64) freshWriter =
      (0, [0xAF#8, 0xFF#8, 0xFF#8, 0xFF#8, 0xFF#8, 0xFF#8, 0xFF#8, 0xFF#8, 0xFF#8], b [1, 1, 1, 0]) := by decide

/-- The encode table of Fib. -/
theorem test_wEncFib_100 : wrote (.wEncFib 100#64) freshWriter = (0, [0xA8#8], b [0, 1, 1]) := by decide

/-- The encode table of Fib, its largest symbol. -/
theorem test_wEncFib_largest :
    wrote (.wEncFib 18446744073709551614#64) freshWriter =
      (0, [0x50#8, 0x51#8, 0x41#8, 0x15#8, 0x12#8, 0x24#8, 0x02#8, 0x44#8, 0x88#8, 0xA0#8, 0x8A#8], b [0, 1, 0, 1, 1]) := by decide +kernel

/-- The encode table of Ta. -/
theorem test_wEncTa_1000 : wrote (.wEncTa 1000#64) freshWriter = (0, [0x27#8], b [1, 1, 0, 1, 0, 0, 1]) := by decide

/-- The encode table of Ta, its largest symbol. -/
theorem test_wEncTa_largest :
    wrote (.wEncTa 18446744073709551614#64) freshWriter =
      (0, [0xFF#8, 0xFF#8, 0xFF#8, 0xFF#8, 0xFF#8, 0xFF#8, 0xFF#8, 0xFF#8], b [1, 1, 1, 1, 1]) := by decide

/-- The encode table of Raw. -/
theorem test_wEncRaw_72623859790382856 :
    wrote (.wEncRaw 72623859790382856#64) freshWriter = (0, [0x01#8, 0x02#8, 0x03#8, 0x04#8, 0x05#8, 0x06#8, 0x07#8, 0x08#8], []) := by decide

/-- The encode table of Raw, its largest symbol. -/
theorem test_wEncRaw_largest :
    wrote (.wEncRaw 18446744073709551615#64) freshWriter =
      (0, [0xFF#8, 0xFF#8, 0xFF#8, 0xFF#8, 0xFF#8, 0xFF#8, 0xFF#8, 0xFF#8], []) := by decide

/-- The PREDICT column of Vlq: a length and None. -/
theorem test_predictVlq :
    (after (.predictVlq 16512#64) State.reset).response = (0, 24, true) ∧
      (after (.predictVlq 18446744073709551615#64) State.reset).response = (0, 0, false) := by decide

/-- The PREDICT column of Ivlq: a length and None. -/
theorem test_predictIvlq :
    (after (.predictIvlq 16511#64) State.reset).response = (0, 16, true) ∧
      (after (.predictIvlq 18446744073709551615#64) State.reset).response = (0, 0, false) := by decide

/-- The PREDICT column of Gamma: a length and None. -/
theorem test_predictGamma :
    (after (.predictGamma 4294967295#64) State.reset).response = (0, 65, true) ∧
      (after (.predictGamma 18446744073709551615#64) State.reset).response = (0, 0, false) := by decide

/-- The PREDICT column of Delta: a length and None. -/
theorem test_predictDelta :
    (after (.predictDelta 4294967295#64) State.reset).response = (0, 43, true) ∧
      (after (.predictDelta 18446744073709551615#64) State.reset).response = (0, 0, false) := by decide

/-- The PREDICT column of Omega: a length and None. -/
theorem test_predictOmega :
    (after (.predictOmega 4294967295#64) State.reset).response = (0, 45, true) ∧
      (after (.predictOmega 18446744073709551615#64) State.reset).response = (0, 0, false) := by decide

/-- The PREDICT column of Fib: a length and None. -/
theorem test_predictFib :
    (after (.predictFib 12200160415121876737#64) State.reset).response = (0, 93, true) ∧
      (after (.predictFib 18446744073709551615#64) State.reset).response = (0, 0, false) := by decide

/-- The PREDICT column of Ta: a length and None. -/
theorem test_predictTa :
    (after (.predictTa 9223372036854775807#64) State.reset).response = (0, 69, true) ∧
      (after (.predictTa 18446744073709551615#64) State.reset).response = (0, 0, false) := by decide

/-- V78. -/
theorem test_predictRaw :
    (after (.predictRaw 18446744073709551615#64) State.reset).response = (0, 0x40, true) := by decide

/-- V80. -/
theorem test_cfgTa :
    (after (.cfgTa 1#3) State.reset).taLb = 1 ∧ (after (.cfgTa 1#3) State.reset).response = (0, 0, false) := by decide

/-- V83. -/
theorem test_cfgTa_refused :
    after (.cfgTa 7#3) { State.reset with taLb := 3 } = { State.reset with taLb := 3, status := 4 } := by decide

/-- The decode table of Vlq. -/
theorem test_rDecVlq : got .rDecVlq (reader [0x7F#8, 0x7F#8, 0x80#8]) =
      ((0, 32895, true), 3, []) := by decide

/-- The decode table of Vlq: the end in an error. -/
theorem test_rDecVlq_overflow :
    got .rDecVlq (reader [0x00#8, 0x00#8, 0x00#8, 0x00#8, 0x00#8, 0x00#8, 0x00#8, 0x00#8, 0x00#8, 0x81#8]) =
      ((3, 0, false), 10, []) := by decide

/-- The decode table of Ivlq. -/
theorem test_rDecIvlq :
    got .rDecIvlq (reader [0xFE#8, 0xFE#8, 0xFE#8, 0xFE#8, 0xFE#8, 0xFE#8, 0xFE#8, 0xFE#8, 0xFE#8, 0x00#8]) =
      ((0, 18446744073709551614, true), 10, []) := by decide

/-- The decode table of Ivlq: the end in an error. -/
theorem test_rDecIvlq_overflow :
    got .rDecIvlq (reader [0x80#8, 0x80#8, 0x80#8, 0x80#8, 0x80#8, 0x80#8, 0x80#8, 0x80#8, 0x80#8, 0x80#8, 0x80#8]) =
      ((3, 0, false), 11, []) := by decide

/-- The decode table of Gamma. -/
theorem test_rDecGamma :
    got .rDecGamma (reader [0x00#8, 0x7D#8, 0x20#8]) =
      ((0, 1000, true), 3, b [0, 0, 0, 0, 0]) := by decide

/-- The decode table of Gamma: the end in an error. -/
theorem test_rDecGamma_overflow :
    got .rDecGamma (reader [0x00#8, 0x00#8, 0x00#8, 0x00#8, 0x00#8, 0x00#8, 0x00#8, 0x00#8, 0x80#8]) =
      ((3, 0, false), 8, []) := by decide

/-- The decode table of Delta. -/
theorem test_rDecDelta :
    got .rDecDelta (reader [0x02#8, 0x07#8, 0xFF#8, 0xFF#8, 0xFF#8, 0xFF#8, 0xFF#8, 0xFF#8, 0xFF#8, 0xF0#8]) =
      ((0, 18446744073709551614, true), 10, b [0, 0, 0, 0]) := by decide +kernel

/-- The decode table of Delta: the end in an error. -/
theorem test_rDecDelta_overflow : got .rDecDelta (reader [0x02#8, 0x08#8]) =
      ((3, 0, false), 2, []) := by decide

/-- The decode table of Omega. -/
theorem test_rDecOmega :
    got .rDecOmega (reader [0xE7#8, 0xE9#8, 0x00#8]) =
      ((0, 1000, true), 3, b [0, 0, 0, 0, 0, 0, 0]) := by decide

/-- The decode table of Omega: the end in an error. -/
theorem test_rDecOmega_overflow :
    got .rDecOmega (reader [0xAF#8, 0xFF#8, 0xFF#8, 0xFF#8, 0xFF#8, 0xFF#8, 0xFF#8, 0xFF#8, 0xFF#8, 0xF0#8]) =
      ((3, 0, false), 10, []) := by decide +kernel

/-- The decode table of Fib. -/
theorem test_rDecFib :
    got .rDecFib (reader [0xA8#8, 0x60#8]) =
      ((0, 100, true), 2, b [0, 0, 0, 0, 0]) := by decide

/-- The decode table of Fib: the end in an error. -/
theorem test_rDecFib_overflow :
    got .rDecFib (reader [0x55#8, 0x55#8, 0x55#8, 0x55#8, 0x55#8, 0x55#8, 0x55#8, 0x55#8, 0x55#8, 0x55#8, 0x55#8, 0x58#8]) =
      ((3, 0, false), 12, []) := by decide

/-- The decode table of Ta. -/
theorem test_rDecTa : got .rDecTa (reader [0x27#8, 0xD2#8]) =
      ((0, 1000, true), 2, b [0]) := by decide

/-- The decode table of Ta: the end in an error. -/
theorem test_rDecTa_truncated : got .rDecTa (reader [0xFC#8]) =
      ((2, 0, false), 1, []) := by decide

/-- The decode table of Raw. -/
theorem test_rDecRaw :
    got .rDecRaw (reader [0x01#8, 0x02#8, 0x03#8, 0x04#8, 0x05#8, 0x06#8, 0x07#8, 0x08#8]) =
      ((0, 72623859790382856, true), 8, []) := by decide +kernel

/-- The decode table of Raw: the end in an error. -/
theorem test_rDecRaw_truncated :
    got .rDecRaw (reader [0x01#8, 0x02#8, 0x03#8, 0x04#8, 0x05#8, 0x06#8, 0x07#8]) =
      ((2, 0, false), 7, []) := by decide

/-- R137. -/
theorem test_fib_table :
    fibEntry 0 = 1 ∧ fibEntry 1 = 2 ∧ fibEntry 91 = 12200160415121876738 ∧ fibTable.length = 92 := by decide

/-! ### Steps: an illegal word and a reset (R153, R166) -/

/-- V15: an illegal word changes no channel state. -/
theorem test_step_illegal_word :
    stepped ((writer false 3 0xA000000000000000#64).withFetchWord 16 0xF00F) =
      { writer false 3 0xA000000000000000#64 with status := 5 } := by decide

/-- R166: a reset input closes both channels, sends nothing and keeps the records. -/
theorem test_step_reset :
    stepped { faultedReader with wState := .opened, taLb := 3, hostInputs := [.reset] } =
      { State.launch [0x11#8, 0x22#8] with srcPos := 1, srcLog := [.pull 0x11#8] } := by decide

/-- The first command after reset runs: `w.open 1` (R77, R86). -/
theorem test_step_from_reset :
    stepped (State.reset.withFetchWord 16 0x1001) = { State.reset with wState := .opened, wOwn := true } := by
  decide

/-! ### Witnesses: states and operands that meet the hypotheses of the statements, clause by clause -/

/-- A writer with 7 bits pending, and the same with a command or a reset to come. -/
def writer7 : State := writer true 7 0xFE00000000000000#64

def writer7Input (x : HostInput) : State := { writer7 with hostInputs := [x] }

/-- A reader with `0xA5` pulled and its last 1, 7 or 8 bits buffered. -/
def reader1 : State := readerMid true 1 0x8000000000000000#64 0xA5#8

def reader7 : State := readerMid true 7 0x4A00000000000000#64 0xA5#8

def reader8 : State := readerMid true 8 0xA500000000000000#64 0xA5#8

theorem step_stepped {s : State} (h : isNext (step s) = true) : step s = .next (stepped s) := by
  cases ho : step s with
  | next t => rw [stepped, ho]
  | fault r => rw [ho] at h; simp [isNext] at h
  | refused r => rw [ho] at h; simp [isNext] at h

/-- DecodeOfEncodeIsInstruction: the counts at the ends of their range. -/
theorem test_witness_encode : (Instr.wBits 64#7 5#64).wellFormed = true ∧ encode (.wBits 64#7 5#64) = ⟨0x2040#16, 5#64⟩ ∧
    (Instr.rBits 1#7).wellFormed = true ∧ encode (.rBits 1#7) = ⟨0xA001#16, 0#64⟩ := by decide

/-- EncodeOfDecodeIsWord: an `ARG` that is kept and one that is ignored. -/
theorem test_witness_decode : decode ⟨0x2040#16, 5#64⟩ = .ok (.wBits 64#7 5#64) ∧
    decode ⟨0x3000#16, 9#64⟩ = .ok .wAlign := by decide

/-- DecodeRefusesExactlyIllegalWords and StepRefusesIllegalWord: the ends of every illegal range. -/
theorem test_witness_illegalWord :
    IllegalWord 0x0000 ∧ IllegalWord 0x0FFF ∧ IllegalWord 0x8000 ∧ IllegalWord 0x8FFF ∧ IllegalWord 0xF000 ∧
    IllegalWord 0xFFFF ∧ IllegalWord 0x1002 ∧ IllegalWord 0x1FFF ∧ IllegalWord 0x9002 ∧ IllegalWord 0x2000 ∧
    IllegalWord 0x2041 ∧ IllegalWord 0xA000 ∧ IllegalWord 0xA041 ∧ IllegalWord 0xAFFF ∧ IllegalWord 0x3001 ∧
    IllegalWord 0x4FFF ∧ IllegalWord 0xB001 ∧ IllegalWord 0xC001 ∧ IllegalWord 0xD001 ∧ IllegalWord 0x5008 ∧
    IllegalWord 0x6008 ∧ IllegalWord 0x7008 ∧ IllegalWord 0xE008 ∧ IllegalWord 0xEFFF := by
  simp [IllegalWord]

/-- DecodeRefusesExactlyIllegalWords: the legal words next to them. -/
theorem test_witness_legalWord :
    ¬ IllegalWord 0x1001 ∧ ¬ IllegalWord 0x9001 ∧ ¬ IllegalWord 0x2001 ∧ ¬ IllegalWord 0x2040 ∧ ¬ IllegalWord 0xA001 ∧
    ¬ IllegalWord 0xA040 ∧ ¬ IllegalWord 0x3000 ∧ ¬ IllegalWord 0xD000 ∧ ¬ IllegalWord 0x5007 ∧ ¬ IllegalWord 0x7007 ∧
    ¬ IllegalWord 0xE000 := by
  simp [IllegalWord]

/-- AssemblerAgreesWithEncoder: lines in range at the ends of their ranges, the lines just outside, a well-formed
instruction, the operands of the pseudo-instructions. -/
theorem test_witness_assemble :
    assemble (.rBits 64) = some ⟨0xA040#16, 0#64⟩ ∧
    assemble (.wEnc .raw 18446744073709551615) = some ⟨0x5007#16, 0xFFFFFFFFFFFFFFFF#64⟩ ∧
    (Instr.rBits 64#7).wellFormed = true ∧ (18446744073709551615 : Nat) < 2 ^ 64 ∧ 1 ≤ 64 ∧ 64 ≤ 64 := by decide

theorem test_witness_asmLegal :
    AsmLegal (.wOpen 1) ∧ ¬ AsmLegal (.wOpen 2) ∧ AsmLegal (.wBits 64 18446744073709551615) ∧ ¬ AsmLegal (.wBits 65 0) ∧
    ¬ AsmLegal (.rBits 0) ∧ ¬ AsmLegal (.wEnc .ta 18446744073709551616) ∧ AsmLegal (.cfgTa 7) ∧ ¬ AsmLegal (.cfgTa 8) := by
  simp [AsmLegal]

/-- `w.align` and `w.close`, `w.enc` and `pred` stand for different words (R83). -/
theorem test_asm_lines : assemble .wAlign = some ⟨0x3000#16, 0#64⟩ ∧ asmInstr .wAlign = .wAlign ∧
    assemble .wClose = some ⟨0x4000#16, 0#64⟩ ∧ asmInstr .wClose = .wClose ∧
    assemble (.pred .ivlq 5) = some ⟨0x6001#16, 5#64⟩ ∧ asmInstr (.pred .ivlq 5) = .predictIvlq 5#64 := by decide

/-- StepRunsDecodedCommand. -/
theorem test_witness_step_command :
    (writer7Input (.command ⟨0x3000#16, 9#64⟩)).hostInputs = .command ⟨0x3000#16, 9#64⟩ :: [] ∧
      decode ⟨0x3000#16, 9#64⟩ = .ok .wAlign := by decide

/-- StepRefusesIllegalWord. -/
theorem test_witness_step_illegal :
    (writer7Input (.command ⟨0x2041#16, 9#64⟩)).hostInputs = .command ⟨0x2041#16, 9#64⟩ :: [] ∧
      IllegalWord (0x2041#16).toNat := ⟨rfl, by simp [IllegalWord]⟩

/-- StepResetInput and StepWithoutInputHoldsState. -/
theorem test_witness_step_reset_and_idle :
    (writer7Input .reset).hostInputs = .reset :: [] ∧ writer7.hostInputs = [] := by decide

/-- The invariant holds of an open writer, of readers with 0, 1, 7 and 8 bits, of a faulted reader. -/
theorem test_witness_inv_writer : State.Inv writer7 := by constructor <;> decide
theorem test_witness_inv_freshWriter : State.Inv freshWriter := by constructor <;> decide
theorem test_witness_inv_reader0 : State.Inv (reader [0xA5#8]) := by constructor <;> decide
theorem test_witness_inv_reader1 : State.Inv reader1 := by constructor <;> decide
theorem test_witness_inv_reader7 : State.Inv reader7 := by constructor <;> decide
theorem test_witness_inv_reader8 : State.Inv reader8 := by constructor <;> decide
theorem test_witness_inv_faulted : State.Inv faultedReader := by constructor <;> decide
theorem test_witness_inv_closed : State.Inv State.reset := by constructor <;> decide

/-- StepKeepsInvariant and StreamRecordsOnlyGrow. -/
theorem test_witness_step_next :
    State.Inv (writer7Input (.command ⟨0x3000#16, 0#64⟩)) ∧
      step (writer7Input (.command ⟨0x3000#16, 0#64⟩)) = .next (stepped (writer7Input (.command ⟨0x3000#16, 0#64⟩))) ∧
      (writer7Input (.command ⟨0x3000#16, 0#64⟩)).srcPos ≤ (writer7Input (.command ⟨0x3000#16, 0#64⟩)).src.length :=
  ⟨by constructor <;> decide, step_stepped (by decide), by decide⟩

/-- AdmissionDecidesIllegalState: a well-formed command that is admitted, and one that is not. -/
theorem test_witness_admission :
    (Instr.wBits 64#7 5#64).wellFormed = true ∧ Admitted writer7 (.wBits 64#7 5#64) ∧
      exec (.wBits 64#7 5#64) writer7 = .next (after (.wBits 64#7 5#64) writer7) ∧
      ¬ Admitted State.reset (.wBits 64#7 5#64) ∧ ¬ Admitted faultedReader .rPeek :=
  ⟨by decide, rfl, exec_after (by decide), by simp [Admitted, State.reset, State.launch],
    by simp [Admitted, faultedReader]⟩

/-- StatusCodesByCommand: `TA_LB` at the end of its range. -/
theorem test_witness_statusCodes :
    Instr.rDecTa.wellFormed = true ∧ (reader [0xFC#8]).taLb.toNat ≤ 6 ∧
      exec .rDecTa (reader [0xFC#8]) = .next (after .rDecTa (reader [0xFC#8])) :=
  ⟨by decide, by decide, exec_after (by decide)⟩

/-- ErrorEffects: each of the six codes. -/
theorem test_witness_errors :
    (exec (.wEncGamma 0xFFFFFFFFFFFFFFFF#64) writer7 = .next (after (.wEncGamma 0xFFFFFFFFFFFFFFFF#64) writer7) ∧
      (after (.wEncGamma 0xFFFFFFFFFFFFFFFF#64) writer7).status = 1) ∧
    (exec (.rBits 2#7) reader1 = .next (after (.rBits 2#7) reader1) ∧ (after (.rBits 2#7) reader1).status = 2) ∧
    (exec .rDecDelta (reader [0x02#8, 0x08#8]) = .next (after .rDecDelta (reader [0x02#8, 0x08#8])) ∧
      (after .rDecDelta (reader [0x02#8, 0x08#8])).status = 3) ∧
    (exec (.cfgTa 0#3) reader1 = .next (after (.cfgTa 0#3) reader1) ∧ (after (.cfgTa 0#3) reader1).status = 4) ∧
    (exec (.rBits 65#7) reader1 = .next (after (.rBits 65#7) reader1) ∧ (after (.rBits 65#7) reader1).status = 5) ∧
    (exec .rPeek faultedReader = .next (after .rPeek faultedReader) ∧ (after .rPeek faultedReader).status = 6) :=
  ⟨⟨exec_after (by decide), by decide⟩, ⟨exec_after (by decide), by decide⟩, ⟨exec_after (by decide), by decide⟩,
    ⟨exec_after (by decide), by decide⟩, ⟨exec_after (by decide), by decide⟩, ⟨exec_after (by decide), by decide⟩⟩

/-- ChannelsAndConfigurationFrame and EveryCommandAnswersOnce: a command of each side. -/
theorem test_witness_sides :
    (sideOf .wAlign ≠ .reader ∧ exec .wAlign writer7 = .next (after .wAlign writer7)) ∧
    (sideOf .rAlign ≠ .writer ∧ exec .rAlign reader7 = .next (after .rAlign reader7)) ∧
    (∀ lb, Instr.predictRaw 5#64 ≠ .cfgTa lb) :=
  ⟨⟨by decide, exec_after (by decide)⟩, ⟨by decide, exec_after (by decide)⟩, by decide⟩

/-- ChannelsDoNotReadEachOther: two states that differ on the other channel only, in both directions. -/
theorem test_witness_channels :
    (reader7.taLb = { reader7 with wState := .opened, wCnt := 1 }.taLb ∧ sideOf .rPeek ≠ .writer ∧
      readerView reader7 = readerView { reader7 with wState := .opened, wCnt := 1 } ∧
      exec .rPeek reader7 = .next (after .rPeek reader7) ∧
      exec .rPeek { reader7 with wState := .opened, wCnt := 1 } =
        .next (after .rPeek { reader7 with wState := .opened, wCnt := 1 })) ∧
    (sideOf .wAlign ≠ .reader ∧ writerView writer7 = writerView { writer7 with rState := .faulted, src := [0#8] } ∧
      exec .wAlign writer7 = .next (after .wAlign writer7) ∧
      exec .wAlign { writer7 with rState := .faulted, src := [0#8] } =
        .next (after .wAlign { writer7 with rState := .faulted, src := [0#8] })) :=
  ⟨⟨by decide, by decide, rfl, exec_after (by decide), exec_after (by decide)⟩,
    ⟨by decide, rfl, exec_after (by decide), exec_after (by decide)⟩⟩

/-- InstancesShareNothing: a platform with two instances, the second of which takes a step. -/
def platform2 : Platform := ⟨[State.reset, writer7Input (.command ⟨0x3000#16, 0#64⟩)]⟩

theorem test_witness_platform :
    platform2.stepBlock ⟨1, by decide⟩ =
      .next ⟨[State.reset, stepped (writer7Input (.command ⟨0x3000#16, 0#64⟩))]⟩ := by
  have h : step platform2.blocks[1] = .next (stepped (writer7Input (.command ⟨0x3000#16, 0#64⟩))) :=
    test_witness_step_next.2.1
  simp only [Platform.stepBlock, Fin.getElem_fin, h]
  rfl

/-- WOpenCreatesEmptyWriter, WBitsAppendsField: the two writer states. -/
theorem test_witness_writer_states : State.reset.wState = .closed ∧ writer7.wState = .opened := by decide

/-- WAlignPadsPartialByte and WCloseFlushesAndReleases: closed; open with 7 bits and with none, owned and not. -/
theorem test_witness_align_close :
    (State.Inv State.reset ∧ State.reset.wState = .closed) ∧
    (State.Inv writer7 ∧ writer7.wState = .opened ∧ writer7.wCnt = 7 ∧ writer7.wOwn = true) ∧
    (State.Inv freshWriter ∧ freshWriter.wState = .opened ∧ freshWriter.wCnt = 0 ∧ freshWriter.wOwn = false) :=
  ⟨⟨test_witness_inv_closed, by decide⟩, ⟨test_witness_inv_writer, by decide⟩,
    ⟨test_witness_inv_freshWriter, by decide⟩⟩

/-- The counts of WBitsAppendsField and RBitsReadsOrTruncates at the ends of both ranges. -/
theorem test_witness_counts :
    (1 ≤ (1#7).toNat ∧ (1#7).toNat ≤ 64) ∧ (1 ≤ (64#7).toNat ∧ (64#7).toNat ≤ 64) ∧ (0#7).toNat = 0 ∧
      64 < (65#7).toNat ∧ 64 < (127#7).toNat := by decide

/-- SplitInvariance: the pieces of `95_test_vectors.md` W11. -/
def w11Pieces : List Bits :=
  [b [1, 0, 1], b [1, 0, 0, 1, 1], b [1, 1, 1, 0, 0, 0, 0, 1, 1, 1, 0, 1, 0], b [1]]

theorem test_witness_pieces :
    State.Inv writer7 ∧ writer7.wState = .opened ∧
      w11Pieces.flatten = b [1, 0, 1, 1, 0, 0, 1, 1, 1, 1, 1, 0, 0, 0, 0, 1, 1, 1, 0, 1, 0, 1] ∧
      ∀ P ∈ w11Pieces, 1 ≤ P.length ∧ P.length ≤ 64 :=
  ⟨test_witness_inv_writer, by decide, by decide, by decide⟩

/-- W11: these pieces and the one 22-bit write send the same bytes. -/
theorem test_split_W11 :
    ((runAll (w11Pieces.map writeBitsInstr ++ [.wAlign]) freshWriter).map sent) = some [0xB3#8, 0xE1#8, 0xD4#8] ∧
      ((runAll [.wBits 22#7 0x2CF875#64, .wAlign] freshWriter).map sent) = some [0xB3#8, 0xE1#8, 0xD4#8] := by decide

/-- The channel states of the reader statements. -/
theorem test_witness_reader_states :
    State.reset.rState = .closed ∧ (reader [0xA5#8]).rState = .opened ∧ faultedReader.rState = .faulted ∧
      faultedReader.rOwn = true ∧ State.reset.rState ≠ .opened ∧ faultedReader.rState ≠ .opened := by decide

/-- RBitsReadsOrTruncates: exactly enough bits ahead, one too few. -/
theorem test_witness_rBits :
    reader7.rState = .opened ∧ (7#7).toNat ≤ (ahead reader7).length ∧ (ahead reader7).length < (8#7).toNat ∧ reader7.srcPos ≤ reader7.src.length := by
  decide

/-- RPeekLooksWithoutConsuming: one bit buffered; none buffered and a byte left; none and the source at its end. -/
theorem test_witness_rPeek :
    (reader1.rState = .opened ∧ reader1.rCnt ≠ 0) ∧
    ((reader [0xA5#8]).rCnt = 0 ∧ (reader [0xA5#8]).src[(reader [0xA5#8]).srcPos]? = some 0xA5#8) ∧
    ((reader []).rState = .opened ∧ (reader []).rCnt = 0 ∧ (reader []).srcPos = (reader []).src.length) := by decide

/-- RAlignDiscardsPartialByte: not open; `RCNT` 0 and 8, 1 and 7. -/
theorem test_witness_rAlign :
    (State.Inv faultedReader ∧ faultedReader.rState ≠ .opened) ∧
    (State.Inv (reader [0xA5#8]) ∧ (reader [0xA5#8]).rState = .opened ∧ (reader [0xA5#8]).rCnt = 0) ∧
    (State.Inv reader8 ∧ reader8.rState = .opened ∧ reader8.rCnt = 8) ∧
    (State.Inv reader1 ∧ reader1.rState = .opened ∧ 1 ≤ reader1.rCnt.toNat ∧ reader1.rCnt.toNat ≤ 7) ∧
    (State.Inv reader7 ∧ reader7.rState = .opened ∧ 1 ≤ reader7.rCnt.toNat ∧ reader7.rCnt.toNat ≤ 7) :=
  ⟨⟨test_witness_inv_faulted, by decide⟩, ⟨test_witness_inv_reader0, by decide⟩, ⟨test_witness_inv_reader8, by decide⟩,
    ⟨test_witness_inv_reader1, by decide⟩, ⟨test_witness_inv_reader7, by decide⟩⟩

/-- FaultedReaderRecovery: a well-formed reader command that is not `R_CLOSE`. -/
theorem test_witness_faulted :
    faultedReader.rState = .faulted ∧ (Instr.rBits 64#7).wellFormed = true ∧ sideOf (.rBits 64#7) = .reader ∧
      Instr.rBits 64#7 ≠ .rClose := by decide

/-- CfgTaSetsWidth: the ends of the legal range and the two values outside it. -/
theorem test_witness_cfgTa :
    (1 ≤ (1#3).toNat ∧ (1#3).toNat ≤ 6) ∧ (1 ≤ (6#3).toNat ∧ (6#3).toNat ≤ 6) ∧ (0#3 = 0 ∨ 0#3 = 7) ∧
      (7#3 = 0 ∨ 7#3 = 7) := by decide

/-- The encode and PREDICT statements: the largest symbol in range and the one above it, for the codecs that reserve one
value and for Thompson-Alpha at both ends of `TA_LB`. -/
theorem test_witness_ranges :
    writer7.wState = .opened ∧ { writer7 with taLb := 1 }.wState = .opened ∧
    (18446744073709551614#64).toNat ≤ 18446744073709551614 ∧ 18446744073709551614 < (18446744073709551615#64).toNat ∧
    (18446744073709551614#64).toNat ≤ 2 ^ 2 ^ writer7.taLb.toNat - 2 ∧
    2 ^ 2 ^ writer7.taLb.toNat - 2 < (18446744073709551615#64).toNat ∧
    (2#64).toNat ≤ 2 ^ 2 ^ { writer7 with taLb := 1 }.taLb.toNat - 2 ∧
    2 ^ 2 ^ { writer7 with taLb := 1 }.taLb.toNat - 2 < (3#64).toNat := by decide

/-- PredictionExactness: both commands answer, and the encode ends with OK; the encode out of range. -/
theorem test_witness_prediction :
    writer7.wState = .opened ∧
      exec (encodeInstr .gamma 4#64) writer7 = .next (after (encodeInstr .gamma 4#64) writer7) ∧
      exec (predictInstr .gamma 4#64) writer7 = .next (after (predictInstr .gamma 4#64) writer7) ∧
      (after (encodeInstr .gamma 4#64) writer7).status = 0 ∧
      (after (encodeInstr .ta 18446744073709551615#64) writer7).status = 1 :=
  ⟨by decide, exec_after (by decide), exec_after (by decide), by decide, by decide⟩

/-- The hypotheses of the decode statements: an open reader whose bits ahead are the code word `S` of a symbol in range,
followed by `rest`. -/
def DecodeWitness (c : Codec) (max : Nat) (s : State) (v : Word64) (S rest : Bits) : Prop :=
  s.rState = .opened ∧ v.toNat ≤ max ∧ CodeWord c s.taLb.toNat v.toNat S ∧ ahead s = S ++ rest

/-! For each codec the largest symbol, on the source of the decode table; Thompson-Alpha also with `TA_LB = 1`. -/

theorem test_witness_rDecVlq : DecodeWitness .vlq 18446744073709551614
    (reader [0x7E#8, 0x7E#8, 0x7E#8, 0x7E#8, 0x7E#8, 0x7E#8, 0x7E#8, 0x7E#8, 0x7E#8, 0x80#8, 0x01#8])
    18446744073709551614#64 (codeVlq 18446744073709551614) (b [0, 0, 0, 0, 0, 0, 0, 1]) :=
  ⟨rfl, by decide, vlqUnits_word true (by norm_num), by decide +kernel⟩

theorem test_witness_rDecIvlq : DecodeWitness .ivlq 18446744073709551614
    (reader [0xFE#8, 0xFE#8, 0xFE#8, 0xFE#8, 0xFE#8, 0xFE#8, 0xFE#8, 0xFE#8, 0xFE#8, 0x00#8, 0x80#8])
    18446744073709551614#64 (codeIvlq 18446744073709551614) (b [1, 0, 0, 0, 0, 0, 0, 0]) :=
  ⟨rfl, by decide, vlqUnits_word false (by norm_num), by decide +kernel⟩

theorem test_witness_rDecGamma : DecodeWitness .gamma 18446744073709551614
    (reader [0x00#8, 0x00#8, 0x00#8, 0x00#8, 0x00#8, 0x00#8, 0x00#8, 0x01#8,
      0xFF#8, 0xFF#8, 0xFF#8, 0xFF#8, 0xFF#8, 0xFF#8, 0xFF#8, 0xFE#8])
    18446744073709551614#64 (codeGamma 18446744073709551614) (b [0]) :=
  ⟨rfl, by decide, gammaBits_word (by norm_num), by decide +kernel⟩

theorem test_witness_rDecDelta : DecodeWitness .delta 18446744073709551614
    (reader [0x02#8, 0x07#8, 0xFF#8, 0xFF#8, 0xFF#8, 0xFF#8, 0xFF#8, 0xFF#8, 0xFF#8, 0xF0#8])
    18446744073709551614#64 (codeDelta 18446744073709551614) (b [0, 0, 0, 0]) :=
  ⟨rfl, by decide, codeDelta_word _, by decide +kernel⟩

theorem test_witness_rDecOmega : DecodeWitness .omega 18446744073709551614
    (reader [0xAF#8, 0xFF#8, 0xFF#8, 0xFF#8, 0xFF#8, 0xFF#8, 0xFF#8, 0xFF#8, 0xFF#8, 0xE0#8])
    18446744073709551614#64 (codeOmega 18446744073709551614) (b [0, 0, 0, 0]) :=
  ⟨rfl, by decide, codeOmega_word (by norm_num), by decide +kernel⟩

theorem test_witness_rDecFib : DecodeWitness .fib 18446744073709551614
    (reader [0x50#8, 0x51#8, 0x41#8, 0x15#8, 0x12#8, 0x24#8, 0x02#8, 0x44#8, 0x88#8, 0xA0#8, 0x8A#8, 0x58#8])
    18446744073709551614#64 (codeFib 18446744073709551614) (b [0, 0, 0]) :=
  ⟨rfl, by decide, codeFib_word (by norm_num), by decide +kernel⟩

theorem test_witness_rDecTa : DecodeWitness .ta (2 ^ 2 ^ 6 - 2)
    (reader [0xFF#8, 0xFF#8, 0xFF#8, 0xFF#8, 0xFF#8, 0xFF#8, 0xFF#8, 0xFF#8, 0xF8#8])
    18446744073709551614#64 (codeTa 6 18446744073709551614) (b [0, 0, 0]) :=
  ⟨rfl, by decide, codeTa_word (by decide), by decide +kernel⟩

theorem test_witness_rDecRaw : DecodeWitness .raw 18446744073709551615
    (reader [0xFF#8, 0xFF#8, 0xFF#8, 0xFF#8, 0xFF#8, 0xFF#8, 0xFF#8, 0xFF#8])
    18446744073709551615#64 (codeRaw 18446744073709551615) [] :=
  ⟨rfl, by decide, rfl, by decide +kernel⟩

theorem test_witness_rDecTa_width1 :
    DecodeWitness .ta (2 ^ 2 ^ 1 - 2) { reader [0xC0#8] with taLb := 1 } 2#64 (codeTa 1 2) (b [0, 0, 0, 0, 0, 0]) :=
  ⟨rfl, by decide, codeTa_word (by decide), by decide⟩

/-- DecodedSymbolIsExact: a decode that ends with OK, `TA_LB` at both ends. -/
theorem test_witness_decodedSymbol :
    (1 ≤ (reader [0x80#8]).taLb.toNat ∧ (reader [0x80#8]).taLb.toNat ≤ 6 ∧
      exec (decodeInstr .vlq) (reader [0x80#8]) = .next (after (decodeInstr .vlq) (reader [0x80#8])) ∧
      (after (decodeInstr .vlq) (reader [0x80#8])).status = 0) ∧
    (1 ≤ { reader [0xC0#8] with taLb := 1 }.taLb.toNat ∧ (after .rDecTa { reader [0xC0#8] with taLb := 1 }).status = 0) :=
  ⟨⟨by decide, by decide, exec_after (by decide), by decide⟩, by decide, by decide⟩

/-- The hypotheses of the second part of the overflow statements: a decode that ends with SymbolOverflow, and a code word of
a symbol in range. -/
def OverflowWitness (c : Codec) (s : State) (v : Nat) (S : Bits) : Prop :=
  s.rState = .opened ∧ exec (decodeInstr c) s = .next (after (decodeInstr c) s) ∧ (after (decodeInstr c) s).status = 3 ∧
    v ≤ 18446744073709551614 ∧ CodeWord c s.taLb.toNat v S

theorem test_witness_overflow_vlq :
    OverflowWitness .vlq (reader (List.replicate 9 0x00#8 ++ [0x81#8])) 18446744073709551614 (codeVlq 18446744073709551614) :=
  ⟨rfl, exec_after (by decide), by decide, by decide, vlqUnits_word true (by norm_num)⟩

theorem test_witness_overflow_ivlq :
    OverflowWitness .ivlq (reader (List.replicate 11 0x80#8)) 18446744073709551614 (codeIvlq 18446744073709551614) :=
  ⟨rfl, exec_after (by decide), by decide, by decide, vlqUnits_word false (by norm_num)⟩

theorem test_witness_overflow_gamma :
    OverflowWitness .gamma (reader (List.replicate 8 0x00#8)) 18446744073709551614 (codeGamma 18446744073709551614) :=
  ⟨rfl, exec_after (by decide), by decide, by decide, gammaBits_word (by norm_num)⟩

theorem test_witness_overflow_delta :
    OverflowWitness .delta (reader [0x02#8, 0x08#8]) 18446744073709551614 (codeDelta 18446744073709551614) :=
  ⟨rfl, exec_after (by decide), by decide, by decide, codeDelta_word _⟩

theorem test_witness_overflow_omega :
    OverflowWitness .omega (reader (0xAF#8 :: List.replicate 9 0xFF#8)) 18446744073709551614 (codeOmega 18446744073709551614) :=
  ⟨rfl, exec_after (by decide), by decide, by decide, codeOmega_word (by norm_num)⟩

theorem test_witness_overflow_fib :
    OverflowWitness .fib (reader (List.replicate 12 0x00#8)) 18446744073709551614 (codeFib 18446744073709551614) :=
  ⟨rfl, exec_after (by decide), by decide, by decide, codeFib_word (by norm_num)⟩

/-- The hypotheses of the first part: an open reader whose bits ahead begin with `P`, which ends at a detection point. -/
def OverflowPointWitness (c : Codec) (s : State) (P : Bits) : Prop :=
  s.rState = .opened ∧ OverflowPoint c P ∧ P <+: ahead s

/-- The 10th unit, final: the smallest sum above `2^64 − 1` (decode table of VLQ). -/
theorem test_witness_point_vlq_unit10 :
    OverflowPointWitness .vlq (reader (List.replicate 9 0x00#8 ++ [0x81#8, 0x55#8]))
      (bitsOfBytes (List.replicate 9 0x00#8 ++ [0x81#8])) :=
  ⟨rfl, ⟨List.replicate 9 0, 1, true, by decide, by decide, by decide, by decide +kernel⟩, by decide +kernel⟩

/-- The 11th unit, not final (decode table of VLQ). -/
theorem test_witness_point_vlq_unit11 :
    OverflowPointWitness .vlq (reader (List.replicate 11 0x00#8)) (bitsOfBytes (List.replicate 11 0x00#8)) :=
  ⟨rfl, ⟨List.replicate 10 0, 0, false, by decide, by decide, by decide, by decide +kernel⟩, by decide +kernel⟩

/-- The 11th unit, not final (decode table of Inverted-VLQ). -/
theorem test_witness_point_ivlq :
    OverflowPointWitness .ivlq (reader (List.replicate 11 0x80#8)) (bitsOfBytes (List.replicate 11 0x80#8)) :=
  ⟨rfl, ⟨List.replicate 10 0, 0, true, by decide, by decide, by decide, by decide +kernel⟩, by decide +kernel⟩

/-- 64 zeros, and more bits after them (decode table of Gamma). -/
theorem test_witness_point_gamma :
    OverflowPointWitness .gamma (reader (List.replicate 8 0x00#8 ++ [0x80#8])) (zeros 64) :=
  ⟨rfl, rfl, by decide +kernel⟩

/-- 64 zeros in the prefix (decode table of Delta). -/
theorem test_witness_point_delta_zeros :
    OverflowPointWitness .delta (reader (List.replicate 8 0x00#8)) (zeros 64) := ⟨rfl, .inl rfl, by decide +kernel⟩

/-- The prefix value 65, the smallest above 64 (decode table of Delta). -/
theorem test_witness_point_delta_prefix :
    OverflowPointWitness .delta (reader [0x02#8, 0x08#8]) (b [0, 0, 0, 0, 0, 0, 1, 0, 0, 0, 0, 0, 1]) :=
  ⟨rfl, .inr ⟨65, by decide, by decide, 6, by decide, by decide, by decide⟩, by decide⟩

/-- The groups of 1, 2, 6 and 64, then a 1: the smallest `N` at which a further group overflows. -/
theorem test_witness_point_omega :
    OverflowPointWitness .omega (reader [0xB4#8, 0x08#8])
      (b [1, 0, 1, 1, 0, 1, 0, 0, 0, 0, 0, 0] ++ [true]) :=
  ⟨rfl, ⟨64, _, by decide, by decide, .group (S := b [1, 0, 1, 1, 0]) (L := 6) (by decide) (by decide) (by decide)
      (.group (S := b [1, 0]) (L := 2) (by decide) (by decide) (by decide)
        (.group (S := []) (L := 1) (by decide) (by decide) (by decide) .one)), rfl⟩, by decide⟩

/-- A sum above `2^64 − 1` at position 91 (decode table of Fibonacci). -/
theorem test_witness_point_fib_sum :
    OverflowPointWitness .fib (reader (List.replicate 11 0x55#8 ++ [0x58#8]))
      ((bitsOfBytes (List.replicate 11 0x55#8 ++ [0x58#8])).take 91 ++ [true]) :=
  ⟨rfl, ⟨_, _, rfl, by decide +kernel, by decide +kernel, .inl ⟨by decide +kernel, rfl, by decide +kernel⟩⟩,
    by decide +kernel⟩

/-- Position 92: a 0 there, and a 1 there (decode table of Fibonacci). -/
theorem test_witness_point_fib_position92_zero :
    OverflowPointWitness .fib (reader (List.replicate 12 0x00#8)) (zeros 92 ++ [false]) :=
  ⟨rfl, ⟨_, _, rfl, by decide +kernel, by decide +kernel, .inr (by decide +kernel)⟩, by decide +kernel⟩

theorem test_witness_point_fib_position92_one :
    OverflowPointWitness .fib (reader (List.replicate 11 0x00#8 ++ [0x0C#8])) (zeros 92 ++ [true]) :=
  ⟨rfl, ⟨_, _, rfl, by decide +kernel, by decide +kernel, .inr (by decide +kernel)⟩, by decide +kernel⟩

/-- The detection point comes before the end of the stream and nothing past it is pulled (R111): the ninth byte stays. -/
theorem test_overflow_pulls_no_further :
    after .rDecGamma (reader (List.replicate 8 0x00#8 ++ [0x80#8])) =
      overflowAfter (zeros 64) (reader (List.replicate 8 0x00#8 ++ [0x80#8])) := by decide +kernel

/-- TruncationOnlyAtEndOfStream: the source ends in the middle of a code word. -/
theorem test_witness_truncation :
    (reader [0x68#8]).srcPos ≤ (reader [0x68#8]).src.length ∧
      exec .rDecVlq (reader [0x68#8]) = .next (after .rDecVlq (reader [0x68#8])) ∧
      (after .rDecVlq (reader [0x68#8])).status = 2 :=
  ⟨by decide, exec_after (by decide), by decide⟩

/-- SymbolSequenceRoundTrip: symbols of three codecs, the largest of Thompson-Alpha with `TA_LB = 1` among them, and the
bytes the writer sends as the reader's source. -/
def roundTripItems : List (Codec × Word64) := [(.gamma, 4#64), (.ta, 2#64), (.vlq, 18446744073709551614#64)]

def roundTripWriter : State := { freshWriter with taLb := 1 }

def roundTripReader : State :=
  { reader [0x2E#8, 0xFC#8, 0xFC#8, 0xFC#8, 0xFC#8, 0xFC#8, 0xFC#8, 0xFC#8, 0xFC#8, 0xFD#8, 0x00#8] with taLb := 1 }

theorem test_witness_roundTrip :
    (1 ≤ roundTripWriter.taLb.toNat ∧ roundTripWriter.taLb.toNat ≤ 6 ∧ roundTripReader.taLb = roundTripWriter.taLb ∧
      (∀ x ∈ roundTripItems, x.2.toNat ≤ maxValue x.1 roundTripWriter.taLb.toNat) ∧
      roundTripWriter.wState = .opened ∧ roundTripWriter.wCnt = 0 ∧ roundTripReader.rState = .opened ∧
      roundTripReader.rCnt = 0) ∧
    ((runAll (roundTripItems.map (fun x => encodeInstr x.1 x.2) ++ [.wAlign]) roundTripWriter).map sent =
      some (roundTripReader.src.drop roundTripReader.srcPos)) := by decide +kernel

end Sys2Proof.Tests
end

/-! Proofs about the state (`10_state.md`): what a command can do, said once, and what follows from it for the frames, the
stream records, the response and the invariant. -/

namespace Sys2Proof.Machine

/-! ### The commands of the eight codecs, by codec -/

/-- `Code_c(v)`, with the `TA_LB` value `lb` for Thompson-Alpha (R104). -/
def codeOf (c : Codec) (lb : Nat) : Nat → Bits :=
  match c with
  | .vlq => codeVlq
  | .ivlq => codeIvlq
  | .gamma => codeGamma
  | .delta => codeDelta
  | .omega => codeOmega
  | .fib => codeFib
  | .ta => codeTa lb
  | .raw => codeRaw

/-- `Len_c(v)`, with the `TA_LB` value `lb` for Thompson-Alpha (R106). -/
def lenOf (c : Codec) (lb : Nat) : Nat → Nat :=
  match c with
  | .vlq => lenVlq
  | .ivlq => lenIvlq
  | .gamma => lenGamma
  | .delta => lenDelta
  | .omega => lenOmega
  | .fib => lenFib
  | .ta => lenTa lb
  | .raw => lenRaw

/-- `Dec_c()`, with the `TA_LB` value `lb` for Thompson-Alpha (R105). -/
def decoderOf (c : Codec) (lb : Nat) : State → ReadResult Nat :=
  match c with
  | .vlq => decVlq
  | .ivlq => decIvlq
  | .gamma => decGamma
  | .delta => decDelta
  | .omega => decOmega
  | .fib => decFib
  | .ta => decTa lb
  | .raw => decRaw

theorem exec_encodeInstr (c : Codec) (v : Word64) (s : State) :
    exec (encodeInstr c v) s = .next (encodeFrame (maxValue c (taWidth s)) (codeOf c (taWidth s)) v s) := by
  cases c <;> rfl

theorem exec_predictInstr (c : Codec) (v : Word64) (s : State) :
    exec (predictInstr c v) s = .next (predictFrame (maxValue c (taWidth s)) (lenOf c (taWidth s)) v s) := by
  cases c <;> rfl

theorem exec_decodeInstr (c : Codec) (s : State) :
    exec (decodeInstr c) s = .next (decodeFrame (decoderOf c (taWidth s)) s) := by
  cases c <;> rfl

@[simp] theorem sideOf_encodeInstr (c : Codec) (v : Word64) : sideOf (encodeInstr c v) = .writer := by
  cases c <;> rfl

@[simp] theorem sideOf_predictInstr (c : Codec) (v : Word64) : sideOf (predictInstr c v) = .neither := by
  cases c <;> rfl

@[simp] theorem sideOf_decodeInstr (c : Codec) : sideOf (decodeInstr c) = .reader := by
  cases c <;> rfl

/-- Case analysis on an instruction with the 24 codec commands taken as three families (R76, R77). -/
theorem instr_byCodec {motive : Instr → Prop}
    (wOpen : ∀ own, motive (.wOpen own)) (wBits : ∀ nb v, motive (.wBits nb v))
    (wAlign : motive .wAlign) (wClose : motive .wClose)
    (wEnc : ∀ c v, motive (encodeInstr c v)) (predict : ∀ c v, motive (predictInstr c v))
    (cfgTa : ∀ lb, motive (.cfgTa lb))
    (rOpen : ∀ own, motive (.rOpen own)) (rBits : ∀ nb, motive (.rBits nb))
    (rPeek : motive .rPeek) (rAlign : motive .rAlign) (rClose : motive .rClose)
    (rDec : ∀ c, motive (decodeInstr c)) (i : Instr) : motive i := by
  cases i with
  | wOpen own => exact wOpen own
  | wBits nb v => exact wBits nb v
  | wAlign => exact wAlign
  | wClose => exact wClose
  | wEncVlq v => exact wEnc .vlq v
  | wEncIvlq v => exact wEnc .ivlq v
  | wEncGamma v => exact wEnc .gamma v
  | wEncDelta v => exact wEnc .delta v
  | wEncOmega v => exact wEnc .omega v
  | wEncFib v => exact wEnc .fib v
  | wEncTa v => exact wEnc .ta v
  | wEncRaw v => exact wEnc .raw v
  | predictVlq v => exact predict .vlq v
  | predictIvlq v => exact predict .ivlq v
  | predictGamma v => exact predict .gamma v
  | predictDelta v => exact predict .delta v
  | predictOmega v => exact predict .omega v
  | predictFib v => exact predict .fib v
  | predictTa v => exact predict .ta v
  | predictRaw v => exact predict .raw v
  | cfgTa lb => exact cfgTa lb
  | rOpen own => exact rOpen own
  | rBits nb => exact rBits nb
  | rPeek => exact rPeek
  | rAlign => exact rAlign
  | rClose => exact rClose
  | rDecVlq => exact rDec .vlq
  | rDecIvlq => exact rDec .ivlq
  | rDecGamma => exact rDec .gamma
  | rDecDelta => exact rDec .delta
  | rDecOmega => exact rDec .omega
  | rDecFib => exact rDec .fib
  | rDecTa => exact rDec .ta
  | rDecRaw => exact rDec .raw

theorem readsOnly_decoderOf (c : Codec) (lb : Nat) (s : State) : ReadsOnly s (decoderOf c lb s) := by
  cases c with
  | vlq => exact readsOnly_vlqLoop true 11 0 0 s
  | ivlq => exact readsOnly_vlqLoop false 11 0 0 s
  | gamma => exact readsOnly_decGamma s
  | delta => exact readsOnly_decDelta s
  | omega => exact readsOnly_omegaLoop 64 1 s
  | fib => exact readsOnly_fibLoop fibTable false 0 s
  | ta => exact readsOnly_decTa lb s
  | raw => exact readsOnly_decRaw s

/-! ### The channels' views and the operations on the other channel -/

@[simp] theorem readerView_withResponse (a : BitVec 3) (r : Word64) (v : Bool) (s : State) :
    readerView (withResponse a r v s) = readerView s := rfl

@[simp] theorem writerView_withResponse (a : BitVec 3) (r : Word64) (v : Bool) (s : State) :
    writerView (withResponse a r v s) = writerView s := rfl

/-- From `s` to `u` only fields of the writer channel and `SINK` differ. -/
def OnlyWriter (s u : State) : Prop :=
  u = { s with wState := u.wState, wOwn := u.wOwn, wAcc := u.wAcc, wCnt := u.wCnt, sink := u.sink }

/-- From `s` to `u` only fields of the reader channel, `SRC_POS` and `SRCLOG` differ. -/
def OnlyReader (s u : State) : Prop :=
  u = { s with rState := u.rState, rOwn := u.rOwn, rAcc := u.rAcc, rCnt := u.rCnt, srcPos := u.srcPos,
               srcLog := u.srcLog }

theorem OnlyWriter.readerView_eq {s u : State} (h : OnlyWriter s u) : readerView u = readerView s := by rw [h]; rfl

theorem OnlyReader.writerView_eq {s u : State} (h : OnlyReader s u) : writerView u = writerView s := by rw [h]; rfl

theorem OnlyReader.of_readFrame {s u : State} (h : ReadFrame s u) : OnlyReader s u := by rw [OnlyReader, h]

theorem onlyWriter_emit (S : Bits) (s : State) : OnlyWriter s (emit S s) := by
  simp only [OnlyWriter, emit, setQw, sinkPuts_eq]

/-- The padding is nothing, or an `Emit` (R89). -/
theorem padWriter_cases (s : State) : padWriter s = s ∨ ∃ S, padWriter s = emit S s := by
  unfold padWriter
  split
  · exact .inr ⟨_, rfl⟩
  · exact .inl rfl

theorem onlyWriter_padWriter (s : State) : OnlyWriter s (padWriter s) := by
  obtain h | ⟨S, h⟩ := padWriter_cases s
  · rw [h]; rfl
  · rw [h]; exact onlyWriter_emit S s

/-! ### What a reader procedure does to the source and to the carry register -/

/-- From `s` to `u` the reader took some of the bits ahead, pulling the bytes it needed, and did nothing else. It holds
of `NextBit`, of `PeekBit` (which takes none) and of `R_ALIGN` (which pulls none). -/
structure Advances (s u : State) : Prop where
  frame : ReadFrame s u
  ahead_suffix : ahead u <:+ ahead s
  srcPos_mono : s.srcPos ≤ u.srcPos
  srcPos_le : s.srcPos ≤ s.src.length → u.srcPos ≤ s.src.length
  log : u.srcLog = s.srcLog ++ ((s.src.drop s.srcPos).take (u.srcPos - s.srcPos)).map SrcEvent.pull
  rCnt_le : s.rCnt.toNat ≤ 8 → u.rCnt.toNat ≤ 8
  low : LowBitsZero s.rAcc s.rCnt → LowBitsZero u.rAcc u.rCnt

theorem Reads.advances {s u : State} {n : Nat} (h : Reads s u n) : Advances s u := by
  obtain ⟨enough, ⟨hahead, hpos, hbits, hlog, hlow⟩, hframe⟩ := h
  rw [ahead_length] at enough
  exact ⟨hframe, hahead ▸ List.drop_suffix n _, by omega, by omega, hlog, by omega, hlow⟩

/-- `PeekBit` only pulls the byte it needs (R93). -/
theorem advances_peekBit {s u : State} {b : Bool} (h : peekBit s = .got b u) : Advances s u := by
  cases ha : ahead s with
  | nil => rw [peekBit_end ha] at h; cases h
  | cons b' rest =>
    obtain ⟨w, hw, hahead, hne, hframe, hpos, hbits, hlog, hlow⟩ := fillReader_got ha
    have hu : w = u := by
      rw [peekBit, hw] at h
      cases h
      rfl
    subst hu
    have hlen := ahead_length s
    rw [ha, List.length_cons] at hlen
    exact ⟨hframe, hahead ▸ List.suffix_rfl, by omega, by omega, hlog, by omega, hlow⟩

theorem peekBit_raised {s u : State} {e : ErrorKind} (h : peekBit s = .raised e u) :
    e = .streamTruncated ∧ u = s := by
  cases ha : ahead s with
  | nil => rw [peekBit_end ha] at h; cases h; exact ⟨rfl, rfl⟩
  | cons b rest =>
    obtain ⟨w, -, hw, -⟩ := peekBit_got ha
    rw [hw] at h
    cases h

/-- Discarding buffered bits pulls nothing (R96). -/
theorem advances_dropBuffered (k : Nat) (s : State) : Advances s (setQr ((qr s).drop k) s) := by
  have hlen : ((qr s).drop k).length ≤ 15 := by
    have := s.rCnt.isLt
    simp only [List.length_drop, qr_length]; omega
  refine ⟨rfl, ?_, le_rfl, fun h => h, by simp, ?_, fun _ => setQr_low hlen s⟩
  · rw [ahead, qr_setQr hlen]
    exact ⟨(qr s).take k, by rw [← List.append_assoc, List.take_append_drop]; rfl⟩
  · intro h
    rw [setQr_rCnt_toNat hlen, List.length_drop, qr_length]
    omega

/-! ### What a command can do, said once -/

/-- A response as R25 to R27 allow it: `STATUS` in 0..6, no result with an error, `RES` 0 without a result. -/
def LegalResponse (status : BitVec 3) (res : Word64) (resv : Bool) : Prop :=
  status.toNat ≤ 6 ∧ (status ≠ 0 → resv = false) ∧ (resv = false → res = 0)

theorem legalResponse_ok (res : Word64) : LegalResponse 0 res true :=
  ⟨by decide, fun h => absurd rfl h, fun h => absurd h (by decide)⟩

theorem legalResponse_noResult {status : BitVec 3} (h : status.toNat ≤ 6) : LegalResponse status 0 false :=
  ⟨h, fun _ => rfl, fun _ => rfl⟩

theorem code_le (e : ErrorKind) : e.code.toNat ≤ 6 := by cases e <;> decide

/-- What a command can do to the state before it writes its response: one constructor for each kind of effect, with the
channel state in which it happens. -/
inductive Acts (i : Instr) (s : State) : State → Prop where
  | nothing : Acts i s s
  | configured {lb : BitVec 3} (hi : i = .cfgTa lb) (hlb : 1 ≤ lb.toNat ∧ lb.toNat ≤ 6) : Acts i s { s with taLb := lb }
  | writerOpened (hi : sideOf i = .writer) (own : Bool) :
      Acts i s (setQw [] { s with wState := .opened, wOwn := own })
  | emitted (hi : sideOf i = .writer) (hs : s.wState = .opened) (S : Bits) : Acts i s (emit S s)
  | writerClosed (hi : sideOf i = .writer) :
      Acts i s { releaseSink (padWriter s) with wState := .closed, wOwn := false }
  | readerOpened (hi : sideOf i = .reader) (own : Bool) :
      Acts i s (setQr [] { s with rState := .opened, rOwn := own })
  | advanced {u : State} (hi : sideOf i = .reader) (hs : s.rState = .opened) (hu : Advances s u) : Acts i s u
  | faulted {u : State} (hi : sideOf i = .reader) (hu : Advances s u) :
      Acts i s (setQr [] { u with rState := .faulted })
  | readerClosed (hi : sideOf i = .reader) :
      Acts i s { releaseSource (setQr [] s) with rState := .closed, rOwn := false }

/-- `t` is what command `i` can leave of `s`: an effect, then a legal response (R67). -/
def Answers (i : Instr) (s t : State) : Prop :=
  ∃ u status res resv, Acts i s u ∧ LegalResponse status res resv ∧ t = withResponse status res resv u

theorem Acts.answers_result {i : Instr} {s u : State} (h : Acts i s u) (res : Word64) :
    Answers i s (finish res true u) := ⟨u, 0, res, true, h, legalResponse_ok res, rfl⟩

theorem Acts.answers_noResult {i : Instr} {s u : State} (h : Acts i s u) : Answers i s (finish 0 false u) :=
  ⟨u, 0, 0, false, h, legalResponse_noResult (by decide), rfl⟩

theorem answers_raise_plain {i : Instr} {s : State} {e : ErrorKind} (he : e.faultsReader = false) :
    Answers i s (raise e s) :=
  ⟨s, e.code, 0, false, .nothing, legalResponse_noResult (code_le e), raise_plain he s⟩

/-- A stream error is the effect `faulted` with its code as the response (R152). -/
theorem answers_raise_stream {i : Instr} {s u : State} {e : ErrorKind} (hi : sideOf i = .reader)
    (he : e.faultsReader = true) (hu : Advances s u) : Answers i s (raise e u) := by
  refine ⟨_, e.code, 0, false, .faulted hi hu, legalResponse_noResult (code_le e), ?_⟩
  simp only [raise, he, if_true]
  rfl

theorem answers_withOpenWriter {i : Instr} {s : State} {body : State → State}
    (h : s.wState = .opened → Answers i s (body s)) : Answers i s (withOpenWriter s body) := by
  unfold withOpenWriter
  split
  · next hs => exact h hs
  · exact answers_raise_plain rfl

theorem answers_withOpenReader {i : Instr} {s : State} {body : State → State}
    (h : s.rState = .opened → Answers i s (body s)) : Answers i s (withOpenReader s body) := by
  unfold withOpenReader
  split
  · next hs => exact h hs
  · exact answers_raise_plain rfl

theorem answers_encodeFrame {i : Instr} (hi : sideOf i = .writer) (max : Nat) (code : Nat → Bits) (v : Word64)
    (s : State) : Answers i s (encodeFrame max code v s) := by
  refine answers_withOpenWriter fun hs => ?_
  split
  · exact answers_raise_plain rfl
  · exact (Acts.emitted hi hs _).answers_noResult

theorem answers_predictFrame (i : Instr) (max : Nat) (len : Nat → Nat) (v : Word64) (s : State) :
    Answers i s (predictFrame max len v s) := by
  unfold predictFrame
  split
  · exact Acts.nothing.answers_noResult
  · exact Acts.nothing.answers_result _

/-- A reader procedure that only reads ends its command as `Answers` says (R94, R105, R152). -/
theorem answers_endRead {α : Type} {i : Instr} {s : State} {r : ReadResult α} (hi : sideOf i = .reader)
    (hs : s.rState = .opened) (hr : ReadsOnly s r) (toRes : α → Word64) : Answers i s (endRead toRes r) := by
  cases r with
  | got a u =>
    obtain ⟨n, hn⟩ := hr
    exact (Acts.advanced hi hs hn.advances).answers_result _
  | raised e u =>
    obtain ⟨he, n, hn⟩ := hr
    exact answers_raise_stream hi he hn.advances

theorem answers_peek {i : Instr} {s : State} (hi : sideOf i = .reader) (hs : s.rState = .opened)
    (toRes : Bool → Word64) : Answers i s (endRead toRes (peekBit s)) := by
  cases hp : peekBit s with
  | got b u => exact (Acts.advanced hi hs (advances_peekBit hp)).answers_result _
  | raised e u =>
    obtain ⟨rfl, rfl⟩ := peekBit_raised hp
    exact answers_raise_stream (e := .streamTruncated) hi rfl (Reads.refl u).advances

theorem answers_padWriter {i : Instr} {s : State} (hi : sideOf i = .writer) (hs : s.wState = .opened) :
    Answers i s (finish 0 false (padWriter s)) := by
  obtain h | ⟨S, h⟩ := padWriter_cases s
  · rw [h]; exact Acts.nothing.answers_noResult
  · rw [h]; exact (Acts.emitted hi hs S).answers_noResult

/-- Every instruction answers a next state in every state, and what it can have done is one of the effects of `Acts`. -/
theorem exec_answers (i : Instr) (s : State) : ∃ t, exec i s = .next t ∧ Answers i s t := by
  cases i using instr_byCodec with
  | wOpen own =>
    refine ⟨_, rfl, ?_⟩
    split
    · exact (Acts.writerOpened rfl own).answers_noResult
    · exact answers_raise_plain rfl
  | wBits nb v =>
    refine ⟨_, rfl, ?_⟩
    split
    · exact answers_withOpenWriter fun hs => (Acts.emitted rfl hs _).answers_noResult
    · exact answers_raise_plain rfl
  | wAlign => exact ⟨_, rfl, answers_withOpenWriter (answers_padWriter rfl)⟩
  | wClose =>
    refine ⟨_, rfl, ?_⟩
    split
    · exact (Acts.writerClosed rfl).answers_noResult
    · exact Acts.nothing.answers_noResult
  | wEnc c v => exact ⟨_, exec_encodeInstr c v s, answers_encodeFrame (sideOf_encodeInstr c v) _ _ v s⟩
  | predict c v => exact ⟨_, exec_predictInstr c v s, answers_predictFrame _ _ _ v s⟩
  | cfgTa lb =>
    refine ⟨_, rfl, ?_⟩
    split
    · exact answers_raise_plain rfl
    · exact (Acts.configured (lb := lb) rfl (by omega)).answers_noResult
  | rOpen own =>
    refine ⟨_, rfl, ?_⟩
    split
    · exact (Acts.readerOpened rfl own).answers_noResult
    · exact answers_raise_plain rfl
  | rBits nb =>
    refine ⟨_, rfl, ?_⟩
    split
    · exact answers_withOpenReader fun hs => answers_endRead rfl hs (readsOnly_readBits _ s) _
    · exact answers_raise_plain rfl
  | rPeek => exact ⟨_, rfl, answers_withOpenReader fun hs => answers_peek rfl hs _⟩
  | rAlign =>
    exact ⟨_, rfl, answers_withOpenReader fun hs =>
      (Acts.advanced rfl hs (advances_dropBuffered _ s)).answers_noResult⟩
  | rClose =>
    refine ⟨_, rfl, ?_⟩
    split
    · exact (Acts.readerClosed rfl).answers_noResult
    · exact Acts.nothing.answers_noResult
  | rDec c =>
    exact ⟨_, exec_decodeInstr c s, answers_withOpenReader fun hs =>
      answers_endRead (sideOf_decodeInstr c) hs (readsOnly_decoderOf c _ s) _⟩

/-- The same for a next state that is given. -/
theorem answers_of_exec {i : Instr} {s t : State} (h : exec i s = .next t) : Answers i s t := by
  obtain ⟨t', ht', ha⟩ := exec_answers i s
  rw [h] at ht'
  exact Host.Outcome.next.inj ht' ▸ ha

/-- Settles O14, from the one description of all commands. -/
theorem everyCommandAnswersOnce : Obligations.EveryCommandAnswersOnce := by
  intro i s
  obtain ⟨t, ht, u, status, res, resv, -, ⟨hstatus, herror, hnone⟩, rfl⟩ := exec_answers i s
  exact ⟨_, ht, hstatus, herror, hnone⟩

/-! ### What each channel's commands leave alone -/

theorem onlyWriter_closeWriter (s : State) :
    OnlyWriter s { releaseSink (padWriter s) with wState := .closed, wOwn := false } := by
  have h := onlyWriter_padWriter s
  unfold releaseSink
  split
  · rw [h]; rfl
  · rw [h]; rfl

theorem onlyReader_closeReader (s : State) :
    OnlyReader s { releaseSource (setQr [] s) with rState := .closed, rOwn := false } := by
  unfold releaseSource
  split <;> rfl

/-- The effect of a command stays in its own channel; `TA_LB` is written by `CFG_TA` alone (R43, R44, R63). -/
theorem Acts.frame {i : Instr} {s u : State} (h : Acts i s u) :
    u = s ∨ (sideOf i = .writer ∧ OnlyWriter s u) ∨ (sideOf i = .reader ∧ OnlyReader s u) ∨
      ∃ lb : BitVec 3, i = .cfgTa lb ∧ (1 ≤ lb.toNat ∧ lb.toNat ≤ 6) ∧ u = { s with taLb := lb } := by
  cases h with
  | nothing => exact .inl rfl
  | configured hi hlb => exact .inr (.inr (.inr ⟨_, hi, hlb, rfl⟩))
  | writerOpened hi own => exact .inr (.inl ⟨hi, rfl⟩)
  | emitted hi hs S => exact .inr (.inl ⟨hi, onlyWriter_emit S s⟩)
  | writerClosed hi => exact .inr (.inl ⟨hi, onlyWriter_closeWriter s⟩)
  | readerOpened hi own => exact .inr (.inr (.inl ⟨hi, rfl⟩))
  | advanced hi hs hu => exact .inr (.inr (.inl ⟨hi, .of_readFrame hu.frame⟩))
  | faulted hi hu => exact .inr (.inr (.inl ⟨hi, by rw [hu.frame]; rfl⟩))
  | readerClosed hi => exact .inr (.inr (.inl ⟨hi, onlyReader_closeReader s⟩))

theorem exec_keeps_readerView {i : Instr} {s t : State} (h : exec i s = .next t) (hi : sideOf i ≠ .reader) :
    readerView t = readerView s := by
  obtain ⟨u, _, _, _, hu, -, rfl⟩ := answers_of_exec h
  rw [readerView_withResponse]
  obtain rfl | ⟨-, hw⟩ | ⟨hr, -⟩ | ⟨lb, -, -, rfl⟩ := hu.frame
  · rfl
  · exact hw.readerView_eq
  · exact absurd hr hi
  · rfl

theorem exec_keeps_writerView {i : Instr} {s t : State} (h : exec i s = .next t) (hi : sideOf i ≠ .writer) :
    writerView t = writerView s := by
  obtain ⟨u, _, _, _, hu, -, rfl⟩ := answers_of_exec h
  rw [writerView_withResponse]
  obtain rfl | ⟨hw, -⟩ | ⟨-, hr⟩ | ⟨lb, -, -, rfl⟩ := hu.frame
  · rfl
  · exact absurd hw hi
  · exact hr.writerView_eq
  · rfl

/-- After a command `TA_LB` is as before, or it is the legal value that a `CFG_TA` named (R102, R107). -/
theorem exec_taLb {i : Instr} {s t : State} (h : exec i s = .next t) :
    t.taLb = s.taLb ∨ (1 ≤ t.taLb.toNat ∧ t.taLb.toNat ≤ 6) ∧ i = .cfgTa t.taLb := by
  obtain ⟨u, _, _, _, hu, -, rfl⟩ := answers_of_exec h
  rw [withResponse_taLb]
  obtain rfl | ⟨-, hw⟩ | ⟨-, hr⟩ | ⟨lb, hi, hlb, rfl⟩ := hu.frame
  · exact .inl rfl
  · exact .inl (by rw [hw])
  · exact .inl (by rw [hr])
  · exact .inr ⟨hlb, hi⟩

theorem exec_keeps_src_hostInputs {i : Instr} {s t : State} (h : exec i s = .next t) :
    t.src = s.src ∧ t.hostInputs = s.hostInputs := by
  obtain ⟨u, _, _, _, hu, -, rfl⟩ := answers_of_exec h
  rw [withResponse_src, withResponse_hostInputs]
  obtain rfl | ⟨-, hw⟩ | ⟨-, hr⟩ | ⟨lb, -, -, rfl⟩ := hu.frame
  · exact ⟨rfl, rfl⟩
  · rw [hw]; exact ⟨rfl, rfl⟩
  · rw [hr]; exact ⟨rfl, rfl⟩
  · exact ⟨rfl, rfl⟩

/-- Settles O18, from the frames of the two channels. -/
theorem channelsAndConfigurationFrame : Obligations.ChannelsAndConfigurationFrame := by
  intro i s t h
  refine ⟨exec_keeps_readerView h, exec_keeps_writerView h, fun hi => ?_, exec_keeps_src_hostInputs h⟩
  obtain hlb | ⟨-, hcfg⟩ := exec_taLb h
  · exact hlb
  · exact absurd hcfg (hi _)

/-! ### The records of the streams -/

/-- From `s` to `t` the streams' records only grew (R38 to R40, R49, R52). -/
structure StreamsGrow (s t : State) : Prop where
  sink : s.sink <+: t.sink
  srcLog : s.srcLog <+: t.srcLog
  src : t.src = s.src
  srcPos_mono : s.srcPos ≤ t.srcPos
  srcPos_le : s.srcPos ≤ s.src.length → t.srcPos ≤ s.src.length

/-- The fields that `StreamsGrow` speaks of. -/
def streams (s : State) : List SinkEvent × List SrcEvent × List Byte × Nat := (s.sink, s.srcLog, s.src, s.srcPos)

theorem StreamsGrow.refl (s : State) : StreamsGrow s s :=
  ⟨List.prefix_rfl, List.prefix_rfl, rfl, le_rfl, fun h => h⟩

theorem StreamsGrow.congr {s s' t t' : State} (h : StreamsGrow s t) (hs : streams s' = streams s)
    (ht : streams t' = streams t) : StreamsGrow s' t' := by
  obtain ⟨hsink, hlog, hsrc, hmono, hle⟩ := h
  simp only [streams, Prod.mk.injEq] at hs ht
  obtain ⟨hs1, hs2, hs3, hs4⟩ := hs
  obtain ⟨ht1, ht2, ht3, ht4⟩ := ht
  constructor <;> simpa only [hs1, hs2, hs3, hs4, ht1, ht2, ht3, ht4]

theorem StreamsGrow.of_sink {s t : State} (hsink : s.sink <+: t.sink) (hw : OnlyWriter s t) : StreamsGrow s t :=
  ⟨hsink, by rw [hw], by rw [hw], by rw [hw], fun h => by rw [hw]; exact h⟩

theorem Advances.streamsGrow {s u : State} (h : Advances s u) : StreamsGrow s u := by
  refine ⟨?_, h.log ▸ List.prefix_append _ _, h.frame.src, h.srcPos_mono, h.srcPos_le⟩
  rw [h.frame]

theorem emit_sink_prefix (S : Bits) (s : State) : s.sink <+: (emit S s).sink := by
  rw [(emit_parts S s).2]
  exact List.prefix_append _ _

theorem padWriter_sink_prefix (s : State) : s.sink <+: (padWriter s).sink := by
  obtain h | ⟨S, h⟩ := padWriter_cases s
  · rw [h]
  · rw [h]; exact emit_sink_prefix S s

theorem releaseSink_sink_prefix (s : State) : s.sink <+: (releaseSink s).sink := by
  unfold releaseSink
  split
  · exact List.prefix_append _ _
  · exact List.prefix_rfl

theorem Acts.streamsGrow {i : Instr} {s u : State} (h : Acts i s u) : StreamsGrow s u := by
  cases h with
  | nothing => exact .refl s
  | configured => exact (StreamsGrow.refl s).congr rfl rfl
  | writerOpened => exact (StreamsGrow.refl s).congr rfl rfl
  | emitted hi hs S => exact .of_sink (emit_sink_prefix S s) (onlyWriter_emit S s)
  | writerClosed =>
    exact .of_sink ((padWriter_sink_prefix s).trans (releaseSink_sink_prefix _)) (onlyWriter_closeWriter s)
  | readerOpened => exact (StreamsGrow.refl s).congr rfl rfl
  | advanced hi hs hu => exact hu.streamsGrow
  | faulted hi hu => exact hu.streamsGrow.congr rfl rfl
  | readerClosed =>
    unfold releaseSource
    split
    · exact ⟨List.prefix_rfl, List.prefix_append _ _, rfl, le_rfl, fun h => h⟩
    · exact (StreamsGrow.refl s).congr rfl rfl

theorem exec_streamsGrow {i : Instr} {s t : State} (h : exec i s = .next t) : StreamsGrow s t := by
  obtain ⟨u, _, _, _, hu, -, rfl⟩ := answers_of_exec h
  exact hu.streamsGrow.congr rfl rfl

/-- Settles O13: a reset, an illegal word and an idle step leave the records as they are, a command makes them grow. -/
theorem streamRecordsOnlyGrow : Obligations.StreamRecordsOnlyGrow := by
  intro s t h
  have hgrow : StreamsGrow s t := by
    obtain ⟨-, rfl⟩ | ⟨rest, -, rfl⟩ | ⟨c, rest, e, -, -, rfl⟩ | ⟨c, rest, i, -, -, hi⟩ := step_cases h
    · exact .refl _
    · exact (StreamsGrow.refl s).congr rfl rfl
    · exact (StreamsGrow.refl s).congr rfl rfl
    · exact (exec_streamsGrow hi).congr rfl rfl
  exact ⟨hgrow.sink, hgrow.srcLog, hgrow.src, hgrow.srcPos_mono, fun hle => hgrow.src ▸ hgrow.srcPos_le hle⟩

/-! ### The invariant, part by part -/

/-- The part of the invariant that speaks of the writer channel (R30, R31, R86, R90). -/
structure WriterOk (s : State) : Prop where
  wCnt_le : s.wCnt.toNat ≤ 7
  wAcc_low : LowBitsZero s.wAcc s.wCnt
  wClosed_empty : s.wState = .closed → s.wOwn = false ∧ s.wCnt = 0

/-- The part of the invariant that speaks of the reader channel's registers (R35, R36, R97, R152). -/
structure ReaderOk (s : State) : Prop where
  rCnt_le : s.rCnt.toNat ≤ 8
  rAcc_low : LowBitsZero s.rAcc s.rCnt
  rNotOpen_empty : s.rState ≠ .opened → s.rCnt = 0
  rClosed_owns_nothing : s.rState = .closed → s.rOwn = false

/-- The part of the invariant that ties the source's record and the buffered bits to `SRC` (R35, R39, R40). -/
structure SourceOk (s : State) : Prop where
  srcPos_le : s.srcPos ≤ s.src.length
  pulls_are_prefix : pulledBytes s.srcLog = s.src.take s.srcPos
  qr_is_suffix : qr s <:+ bitsOfBytes (s.src.take s.srcPos)

theorem inv_iff (s : State) :
    State.Inv s ↔ (1 ≤ s.taLb.toNat ∧ s.taLb.toNat ≤ 6) ∧ LegalResponse s.status s.res s.resv ∧ WriterOk s ∧
      ReaderOk s ∧ SourceOk s := by
  constructor
  · intro h
    exact ⟨h.taLb_legal, ⟨h.status_legal, h.noResult_of_error, h.res_of_noResult⟩,
      ⟨h.wCnt_le, h.wAcc_low, h.wClosed_empty⟩,
      ⟨h.rCnt_le, h.rAcc_low, h.rNotOpen_empty, h.rClosed_owns_nothing⟩,
      ⟨h.srcPos_le, h.pulls_are_prefix, h.qr_is_suffix⟩⟩
  · rintro ⟨htaLb, ⟨hstatus, herror, hnone⟩, hw, hr, hsrc⟩
    exact ⟨htaLb, hstatus, hnone, herror, hw.wCnt_le, hw.wAcc_low, hw.wClosed_empty, hr.rCnt_le, hr.rAcc_low,
      hr.rNotOpen_empty, hr.rClosed_owns_nothing, hsrc.srcPos_le, hsrc.pulls_are_prefix, hsrc.qr_is_suffix⟩

theorem WriterOk.congr {s t : State} (h : WriterOk s) (hv : writerView t = writerView s) : WriterOk t := by
  simp only [writerView, Prod.mk.injEq] at hv
  obtain ⟨hstate, hown, hacc, hcnt, -⟩ := hv
  obtain ⟨hle, hlow, hclosed⟩ := h
  constructor <;> simpa only [hstate, hown, hacc, hcnt]

theorem ReaderOk.congr {s t : State} (h : ReaderOk s) (hv : readerView t = readerView s) : ReaderOk t := by
  simp only [readerView, Prod.mk.injEq] at hv
  obtain ⟨hstate, hown, hacc, hcnt, -⟩ := hv
  obtain ⟨hle, hlow, hempty, hclosed⟩ := h
  constructor <;> simpa only [hstate, hown, hacc, hcnt]

theorem SourceOk.congr {s t : State} (h : SourceOk s) (hv : readerView t = readerView s) : SourceOk t := by
  simp only [readerView, Prod.mk.injEq] at hv
  obtain ⟨-, -, hacc, hcnt, hsrc, hpos, hlog⟩ := hv
  obtain ⟨hle, hpulls, hsuffix⟩ := h
  rw [qr] at hsuffix
  constructor <;> simpa only [qr, hacc, hcnt, hsrc, hpos, hlog]

/-! ### Each channel's own commands keep its part -/

/-- An empty register has the layout of R30 and R35. -/
theorem lowBitsZero_empty : LowBitsZero 0 0 := Nat.zero_mod _

theorem writerOk_of_empty {s : State} (hcnt : s.wCnt = 0) (hacc : s.wAcc = 0)
    (hown : s.wState = .closed → s.wOwn = false) : WriterOk s :=
  ⟨by simp [hcnt], by rw [hcnt, hacc]; exact lowBitsZero_empty, fun hs => ⟨hown hs, hcnt⟩⟩

theorem readerOk_of_empty {s : State} (hcnt : s.rCnt = 0) (hacc : s.rAcc = 0)
    (hown : s.rState = .closed → s.rOwn = false) : ReaderOk s :=
  ⟨by simp [hcnt], by rw [hcnt, hacc]; exact lowBitsZero_empty, fun _ => hcnt, hown⟩

/-- Nothing is pending after the padding (R89). -/
theorem padWriter_empty {s : State} (h : WriterOk s) : (padWriter s).wCnt = 0 ∧ (padWriter s).wAcc = 0 := by
  obtain ⟨bytes, -, -, hp⟩ := padWriter_spec h.wCnt_le h.wAcc_low
  rw [hp]
  exact ⟨rfl, rfl⟩

theorem releaseSink_keeps_register (s : State) :
    (releaseSink s).wCnt = s.wCnt ∧ (releaseSink s).wAcc = s.wAcc := by
  unfold releaseSink
  split <;> exact ⟨rfl, rfl⟩

theorem Acts.writerOk {i : Instr} {s u : State} (h : Acts i s u) (hs : WriterOk s) : WriterOk u := by
  cases h with
  | nothing => exact hs
  | configured => exact hs.congr rfl
  | writerOpened hi own => exact writerOk_of_empty rfl packBits_nil fun h => absurd h (by simp)
  | emitted hi hopen S =>
    obtain ⟨-, hle, hlow⟩ := emit_appended S s
    have hstate : (emit S s).wState = .opened := by rw [emit_frame]; exact hopen
    exact ⟨hle, hlow, fun hclosed => absurd (hstate.symm.trans hclosed) (by decide)⟩
  | writerClosed hi =>
    obtain ⟨hcnt, hacc⟩ := padWriter_empty hs
    obtain ⟨hcnt', hacc'⟩ := releaseSink_keeps_register (padWriter s)
    exact writerOk_of_empty (hcnt'.trans hcnt) (hacc'.trans hacc) fun _ => rfl
  | readerOpened => exact hs.congr rfl
  | advanced hi hopen hu => exact hs.congr (OnlyReader.of_readFrame hu.frame).writerView_eq
  | faulted hi hu => exact hs.congr (OnlyReader.of_readFrame hu.frame).writerView_eq
  | readerClosed => exact hs.congr (onlyReader_closeReader s).writerView_eq

theorem Acts.readerOk {i : Instr} {s u : State} (h : Acts i s u) (hs : ReaderOk s) : ReaderOk u := by
  cases h with
  | nothing => exact hs
  | configured => exact hs.congr rfl
  | writerOpened => exact hs.congr rfl
  | emitted hi hopen S => exact hs.congr (onlyWriter_emit S s).readerView_eq
  | writerClosed => exact hs.congr (onlyWriter_closeWriter s).readerView_eq
  | readerOpened hi own => exact readerOk_of_empty rfl packBits_nil fun h => absurd h (by simp)
  | advanced hi hopen hu =>
    have hstate : u.rState = .opened := by rw [hu.frame]; exact hopen
    exact ⟨hu.rCnt_le hs.rCnt_le, hu.low hs.rAcc_low, fun h => absurd hstate h,
      fun h => absurd (hstate.symm.trans h) (by decide)⟩
  | faulted hi hu => exact readerOk_of_empty rfl packBits_nil fun h => absurd h (by simp)
  | readerClosed =>
    unfold releaseSource
    split
    · exact readerOk_of_empty rfl packBits_nil fun _ => rfl
    · exact readerOk_of_empty rfl packBits_nil fun _ => rfl

/-! ### The source's record -/

theorem pulledBytes_append (l l' : List SrcEvent) : pulledBytes (l ++ l') = pulledBytes l ++ pulledBytes l' := by
  induction l with
  | nil => rfl
  | cons e l ih => cases e <;> simp [pulledBytes, ih]

theorem pulledBytes_pulls (bs : List Byte) : pulledBytes (bs.map SrcEvent.pull) = bs := by
  induction bs with
  | nil => rfl
  | cons b bs ih => simp [pulledBytes, ih]

theorem bitsOfBytes_split (bs : List Byte) (k : Nat) :
    bitsOfBytes (bs.take k) ++ bitsOfBytes (bs.drop k) = bitsOfBytes bs := by
  rw [← bitsOfBytes_append, List.take_append_drop]

/-- The buffered bits are the last bits pulled exactly if the bits ahead are the last bits of the source. -/
theorem ahead_suffix_iff (s : State) :
    ahead s <:+ bitsOfBytes s.src ↔ qr s <:+ bitsOfBytes (s.src.take s.srcPos) := by
  rw [← bitsOfBytes_split s.src s.srcPos, ahead]
  constructor
  · rintro ⟨P, hP⟩
    exact ⟨P, List.append_cancel_right (by rw [List.append_assoc]; exact hP)⟩
  · rintro ⟨P, hP⟩
    exact ⟨P, by rw [← List.append_assoc, hP]⟩

theorem Advances.sourceOk {s u : State} (h : Advances s u) (hs : SourceOk s) : SourceOk u := by
  have hsrc : u.src = s.src := h.frame.src
  refine ⟨hsrc ▸ h.srcPos_le hs.srcPos_le, ?_, ?_⟩
  · have hpos : u.srcPos = s.srcPos + (u.srcPos - s.srcPos) := by have := h.srcPos_mono; omega
    rw [h.log, pulledBytes_append, pulledBytes_pulls, hs.pulls_are_prefix, hsrc, ← List.take_add, ← hpos]
  · rw [← ahead_suffix_iff, hsrc]
    exact h.ahead_suffix.trans ((ahead_suffix_iff s).mpr hs.qr_is_suffix)

/-- Emptying the reader's register keeps the source's part; nothing is pulled. -/
theorem SourceOk.of_empty {s t : State} (hs : SourceOk s) (hcnt : t.rCnt = 0) (hsrc : t.src = s.src)
    (hpos : t.srcPos = s.srcPos) (hlog : pulledBytes t.srcLog = pulledBytes s.srcLog) : SourceOk t := by
  refine ⟨?_, ?_, ?_⟩
  · rw [hsrc, hpos]; exact hs.srcPos_le
  · rw [hlog, hsrc, hpos]; exact hs.pulls_are_prefix
  · rw [qr_eq_nil.mpr hcnt]; exact List.nil_suffix

theorem Acts.sourceOk {i : Instr} {s u : State} (h : Acts i s u) (hs : SourceOk s) : SourceOk u := by
  cases h with
  | nothing => exact hs
  | configured => exact hs.congr rfl
  | writerOpened => exact hs.congr rfl
  | emitted hi hopen S => exact hs.congr (onlyWriter_emit S s).readerView_eq
  | writerClosed => exact hs.congr (onlyWriter_closeWriter s).readerView_eq
  | readerOpened => exact hs.of_empty rfl rfl rfl rfl
  | advanced hi hopen hu => exact hu.sourceOk hs
  | faulted hi hu => exact (hu.sourceOk hs).of_empty rfl rfl rfl rfl
  | readerClosed =>
    unfold releaseSource
    split
    · exact hs.of_empty rfl rfl rfl ((pulledBytes_append _ _).trans (List.append_nil _))
    · exact hs.of_empty rfl rfl rfl rfl

/-! ### The invariant along a step -/

/-- Every command keeps the invariant. -/
theorem exec_keeps_inv {i : Instr} {s t : State} (hs : State.Inv s) (h : exec i s = .next t) : State.Inv t := by
  obtain ⟨htaLb, -, hw, hr, hsrc⟩ := (inv_iff s).mp hs
  have htaLb' : 1 ≤ t.taLb.toNat ∧ t.taLb.toNat ≤ 6 := by
    obtain heq | ⟨hlegal, -⟩ := exec_taLb h
    · rw [heq]; exact htaLb
    · exact hlegal
  obtain ⟨u, status, res, resv, hu, hresp, rfl⟩ := answers_of_exec h
  exact (inv_iff _).mpr ⟨htaLb', hresp, (hu.writerOk hw).congr rfl, (hu.readerOk hr).congr rfl,
    (hu.sourceOk hsrc).congr rfl⟩

theorem launch_inv (src : List Byte) : State.Inv (State.launch src) :=
  (inv_iff _).mpr ⟨by simp [State.launch], legalResponse_noResult (Nat.zero_le 6),
    writerOk_of_empty rfl rfl fun _ => rfl, readerOk_of_empty rfl rfl fun _ => rfl,
    ⟨Nat.zero_le _, rfl, by rw [qr_eq_nil.mpr rfl]; exact List.nil_suffix⟩⟩

/-- A reset keeps the invariant: the registers are empty, the source's record stays (R45). -/
theorem resetBlock_inv {s : State} (hs : State.Inv s) : State.Inv (resetBlock s) := by
  obtain ⟨-, -, -, -, hsrc⟩ := (inv_iff s).mp hs
  exact (inv_iff _).mpr ⟨by simp, legalResponse_noResult (Nat.zero_le 6),
    writerOk_of_empty rfl rfl fun _ => rfl, readerOk_of_empty rfl rfl fun _ => rfl,
    hsrc.of_empty rfl rfl rfl rfl⟩

/-- The inputs still to come are no part of the invariant. -/
theorem State.Inv.withInputs {s : State} (hs : State.Inv s) (inputs : List HostInput) :
    State.Inv { s with hostInputs := inputs } := by
  obtain ⟨htaLb, hresp, hw, hr, hsrc⟩ := (inv_iff s).mp hs
  exact (inv_iff _).mpr ⟨htaLb, hresp, hw.congr rfl, hr.congr rfl, hsrc.congr rfl⟩

/-- A legal response keeps the invariant, whatever it is. -/
theorem State.Inv.withResponse {s : State} (hs : State.Inv s) {status : BitVec 3} {res : Word64} {resv : Bool}
    (h : LegalResponse status res resv) : State.Inv (withResponse status res resv s) := by
  obtain ⟨htaLb, -, hw, hr, hsrc⟩ := (inv_iff s).mp hs
  exact (inv_iff _).mpr ⟨htaLb, h, hw.congr rfl, hr.congr rfl, hsrc.congr rfl⟩

/-- Settles O12, case by case of what a step can be. -/
theorem stepKeepsInvariant : Obligations.StepKeepsInvariant := by
  intro s t hs h
  obtain ⟨-, rfl⟩ | ⟨rest, -, rfl⟩ | ⟨c, rest, e, -, -, rfl⟩ | ⟨c, rest, i, -, -, hi⟩ := step_cases h
  · exact hs
  · exact resetBlock_inv (hs.withInputs rest)
  · exact (hs.withInputs rest).withResponse (legalResponse_noResult (by decide))
  · exact exec_keeps_inv (hs.withInputs rest) hi

/-- Settles O11. -/
theorem resetMeetsInvariant : Obligations.ResetMeetsInvariant :=
  ⟨launch_inv [], launch_inv⟩

/-! ### Reset, and the step of a command -/

/-- Settles O10. -/
theorem resetRegisterValues : Obligations.ResetRegisterValues :=
  ⟨fun _ => ⟨_, rfl, rfl, rfl, rfl, rfl, rfl, rfl, rfl, rfl, rfl, rfl, rfl, rfl, rfl, rfl, rfl, rfl⟩,
    fun _ => ⟨_, rfl, rfl, rfl, rfl, rfl, rfl, rfl, rfl, rfl, rfl, rfl, rfl, rfl, rfl, rfl, rfl, rfl⟩⟩

/-- Settles O8. -/
theorem stepResetInput : Obligations.StepResetInput := by
  intro s rest h
  rw [step_eq, h]
  rfl

theorem step_of_command {s : State} {c : Command} {rest : List HostInput} {i : Instr}
    (h : s.hostInputs = .command c :: rest) (hd : decode c = .ok i) :
    step s = exec i { s with hostInputs := rest } := by
  rw [step_eq, h]
  simp only [hd]

@[simp] theorem wellFormed_encodeInstr (c : Codec) (v : Word64) : (encodeInstr c v).wellFormed = true := by
  cases c <;> rfl

@[simp] theorem wellFormed_predictInstr (c : Codec) (v : Word64) : (predictInstr c v).wellFormed = true := by
  cases c <;> rfl

@[simp] theorem wellFormed_decodeInstr (c : Codec) : (decodeInstr c).wellFormed = true := by
  cases c <;> rfl

theorem decodeN_wellFormed {i j : Instr} {w : CmdWord} (hi : i.wellFormed = true) (h : decodeN i w = .ok j) :
    j.wellFormed = true := by
  unfold decodeN at h
  split at h
  · cases h
  · cases h; exact hi

theorem decodeO_wellFormed {mk : Bool → Instr} {j : Instr} {w : CmdWord} (hmk : ∀ own, (mk own).wellFormed = true)
    (h : decodeO mk w = .ok j) : j.wellFormed = true := by
  unfold decodeO at h
  split at h
  · cases h
  · cases h; exact hmk _

/-- Format B only gives bit counts in 1..64 (R74, R79). -/
theorem decodeB_wellFormed {mk : BitVec 7 → Instr} {j : Instr} {w : CmdWord}
    (hmk : ∀ nb, legalCount nb → (mk nb).wellFormed = true) (h : decodeB mk w = .ok j) : j.wellFormed = true := by
  unfold decodeB at h
  split at h
  · cases h
  · split at h
    · next hn => cases h; exact hmk _ hn
    · cases h

theorem decodeC_wellFormed {mk : Codec → Instr} {j : Instr} {w : CmdWord} (hmk : ∀ c, (mk c).wellFormed = true)
    (h : decodeC mk w = .ok j) : j.wellFormed = true := by
  unfold decodeC at h
  split at h
  · cases h
  · cases h; exact hmk _

theorem decodeL_wellFormed {mk : BitVec 3 → Instr} {j : Instr} {w : CmdWord} (hmk : ∀ lb, (mk lb).wellFormed = true)
    (h : decodeL mk w = .ok j) : j.wellFormed = true := by
  unfold decodeL at h
  split at h
  · cases h
  · cases h; exact hmk _

/-- What a command decodes to is an instruction that some command word stands for (R74, R79, R80). -/
theorem decode_wellFormed {c : Command} {i : Instr} (h : decode c = .ok i) : i.wellFormed = true := by
  unfold decode at h
  split at h
  · exact decodeO_wellFormed (fun _ => rfl) h
  · exact decodeB_wellFormed (mk := fun nb => .wBits nb c.arg) (fun _ hn => decide_eq_true hn) h
  · exact decodeN_wellFormed rfl h
  · exact decodeN_wellFormed rfl h
  · exact decodeC_wellFormed (wellFormed_encodeInstr · c.arg) h
  · exact decodeC_wellFormed (wellFormed_predictInstr · c.arg) h
  · exact decodeL_wellFormed (fun _ => rfl) h
  · exact decodeO_wellFormed (fun _ => rfl) h
  · exact decodeB_wellFormed (mk := .rBits) (fun _ hn => decide_eq_true hn) h
  · exact decodeN_wellFormed rfl h
  · exact decodeN_wellFormed rfl h
  · exact decodeN_wellFormed rfl h
  · exact decodeC_wellFormed wellFormed_decodeInstr h
  · cases h

/-- Settles O6. -/
theorem stepRunsDecodedCommand : Obligations.StepRunsDecodedCommand :=
  fun _ _ _ _ h hd => ⟨decode_wellFormed hd, step_of_command h hd⟩

end Sys2Proof.Machine


/-! ### Two runs: a channel's commands do not see the other channel

`readerView s = readerView s'` says that the two states agree on the reader channel and its source; the rest of them may
differ in every way. -/

namespace Sys2Proof.Machine

/-- Two outcomes of a reader procedure with the same value, or the same error, in states that agree on the reader channel. -/
inductive ReadsAlike {α : Type} : ReadResult α → ReadResult α → Prop where
  | got (a : α) {t t' : State} (h : readerView t = readerView t') : ReadsAlike (.got a t) (.got a t')
  | raised (e : ErrorKind) {t t' : State} (h : readerView t = readerView t') : ReadsAlike (.raised e t) (.raised e t')

/-- A reader procedure whose outcome depends on the reader channel alone. -/
def ReaderLocal {α : Type} (f : State → ReadResult α) : Prop :=
  ∀ s s', readerView s = readerView s' → ReadsAlike (f s) (f s')

theorem ReadsAlike.bind {α β : Type} {r r' : ReadResult α} {f : α → State → ReadResult β} (hr : ReadsAlike r r')
    (hf : ∀ a, ReaderLocal (f a)) : ReadsAlike (r.bind f) (r'.bind f) := by
  cases hr with
  | got a h => exact hf a _ _ h
  | raised e h => exact .raised e h

theorem ReaderLocal.bind {α β : Type} {g : State → ReadResult α} {f : α → State → ReadResult β} (hg : ReaderLocal g)
    (hf : ∀ a, ReaderLocal (f a)) : ReaderLocal fun s => (g s).bind f :=
  fun s s' h => (hg s s' h).bind hf

theorem readerLocal_got {α : Type} (a : α) : ReaderLocal fun s => .got a s := fun _ _ h => .got a h

theorem readerLocal_raised {α : Type} (e : ErrorKind) : ReaderLocal fun s => (.raised e s : ReadResult α) :=
  fun _ _ h => .raised e h

theorem readerLocal_ite {α : Type} {p : Prop} [Decidable p] {f g : State → ReadResult α} (hf : ReaderLocal f)
    (hg : ReaderLocal g) : ReaderLocal fun s => if p then f s else g s := by
  split
  · exact hf
  · exact hg

/-! #### The primitives -/

theorem qr_eq_of_readerView {s s' : State} (h : readerView s = readerView s') : qr s = qr s' := by
  simp only [readerView, Prod.mk.injEq] at h
  obtain ⟨-, -, hacc, hcnt, -⟩ := h
  rw [qr, qr, hacc, hcnt]

theorem rState_eq_of_readerView {s s' : State} (h : readerView s = readerView s') : s.rState = s'.rState :=
  congrArg Prod.fst h

theorem rCnt_eq_of_readerView {s s' : State} (h : readerView s = readerView s') : s.rCnt = s'.rCnt :=
  congrArg (·.2.2.2.1) h

theorem readerView_setQr {s s' : State} (h : readerView s = readerView s') (S : Bits) :
    readerView (setQr S s) = readerView (setQr S s') := by
  simp_all [readerView]

theorem readerLocal_srcPull : ReaderLocal srcPull := by
  intro s s' h
  have hv := h
  simp only [readerView, Prod.mk.injEq] at hv
  obtain ⟨hstate, hown, hacc, hcnt, hsrc, hpos, hlog⟩ := hv
  unfold srcPull
  rw [← hsrc, ← hpos]
  split
  · exact .raised _ h
  · refine .got _ ?_
    simp only [readerView, hstate, hown, hacc, hcnt, hsrc, hlog]

theorem readerLocal_fillReader : ReaderLocal fillReader := by
  intro s s' h
  unfold fillReader
  rw [← rCnt_eq_of_readerView h]
  split
  · exact (readerLocal_srcPull s s' h).bind fun b t t' ht => .got () (readerView_setQr ht _)
  · exact .got () h

theorem readerLocal_nextBit : ReaderLocal nextBit := by
  refine readerLocal_fillReader.bind fun _ t t' ht => ?_
  rw [qr_eq_of_readerView ht]
  exact .got _ (readerView_setQr ht _)

theorem readerLocal_peekBit : ReaderLocal peekBit := by
  refine readerLocal_fillReader.bind fun _ t t' ht => ?_
  rw [qr_eq_of_readerView ht]
  exact .got _ ht

theorem readerLocal_readBits (n : Nat) : ReaderLocal (readBits n) := by
  induction n with
  | zero => exact readerLocal_got []
  | succ n ih => exact readerLocal_nextBit.bind fun b => ih.bind fun S => readerLocal_got _

theorem readerLocal_readNat (n x : Nat) : ReaderLocal (readNat n x) := by
  induction n generalizing x with
  | zero => exact readerLocal_got x
  | succ n ih => exact readerLocal_nextBit.bind fun b => ih _

/-! #### The decoders -/

theorem readerLocal_vlqLoop (final : Bool) (fuel S i : Nat) : ReaderLocal (vlqLoop final fuel S i) := by
  induction fuel generalizing S i with
  | zero => exact readerLocal_raised _
  | succ fuel ih =>
    exact (readerLocal_readBits 8).bind fun U =>
      readerLocal_ite (readerLocal_raised _) (readerLocal_ite (readerLocal_got _) (ih _ _))

theorem readerLocal_gammaZeros (room z : Nat) : ReaderLocal (gammaZeros room z) := by
  induction room generalizing z with
  | zero => exact readerLocal_raised _
  | succ room ih => exact readerLocal_nextBit.bind fun b => readerLocal_ite (readerLocal_got _) (ih _)

theorem readerLocal_gammaRead : ReaderLocal gammaRead :=
  (readerLocal_gammaZeros 64 0).bind fun z => readerLocal_readNat z 1

theorem readerLocal_decDelta : ReaderLocal decDelta :=
  readerLocal_gammaRead.bind fun _ =>
    readerLocal_ite (readerLocal_raised _) ((readerLocal_readNat _ _).bind fun _ => readerLocal_got _)

theorem readerLocal_omegaLoop (fuel N : Nat) : ReaderLocal (omegaLoop fuel N) := by
  induction fuel generalizing N with
  | zero => exact readerLocal_raised _
  | succ fuel ih =>
    exact readerLocal_nextBit.bind fun b =>
      readerLocal_ite (readerLocal_got _)
        (readerLocal_ite (readerLocal_raised _) ((readerLocal_readNat _ _).bind fun x => ih x))

theorem readerLocal_fibLoop (terms : List Nat) (p : Bool) (S : Nat) : ReaderLocal (fibLoop terms p S) := by
  induction terms generalizing p S with
  | nil => exact readerLocal_nextBit.bind fun b => readerLocal_ite (readerLocal_got _) (readerLocal_raised _)
  | cons f terms ih =>
    exact readerLocal_nextBit.bind fun b =>
      readerLocal_ite (readerLocal_got _) (readerLocal_ite (readerLocal_raised _) (ih _ _))

theorem readerLocal_decoderOf (c : Codec) (lb : Nat) : ReaderLocal (decoderOf c lb) := by
  cases c with
  | vlq => exact readerLocal_vlqLoop true 11 0 0
  | ivlq => exact readerLocal_vlqLoop false 11 0 0
  | gamma => exact readerLocal_gammaRead.bind fun x => readerLocal_got _
  | delta => exact readerLocal_decDelta
  | omega => exact readerLocal_omegaLoop 64 1
  | fib => exact readerLocal_fibLoop fibTable false 0
  | ta =>
    exact (readerLocal_readNat lb 0).bind fun _ => (readerLocal_readNat _ 0).bind fun _ => readerLocal_got _
  | raw => exact readerLocal_readNat 64 0

/-! #### The commands -/

/-- Two states that agree on the reader channel and the response. -/
def ReaderEnds (t t' : State) : Prop := readerView t = readerView t' ∧ t.response = t'.response

/-- Two states that agree on the writer channel and the response. -/
def WriterEnds (t t' : State) : Prop := writerView t = writerView t' ∧ t.response = t'.response

theorem readerEnds_finish {s s' : State} (h : readerView s = readerView s') (r : Word64) (v : Bool) :
    ReaderEnds (finish r v s) (finish r v s') := ⟨h, rfl⟩

theorem writerEnds_finish {s s' : State} (h : writerView s = writerView s') (r : Word64) (v : Bool) :
    WriterEnds (finish r v s) (finish r v s') := ⟨h, rfl⟩

theorem readerEnds_raise {s s' : State} (h : readerView s = readerView s') (e : ErrorKind) :
    ReaderEnds (raise e s) (raise e s') := by
  by_cases he : e.faultsReader = true
  · rw [raise_stream he, raise_stream he]
    simp_all [ReaderEnds, readerView, faultedAfter, State.response]
  · rw [raise_plain (by simpa using he), raise_plain (by simpa using he)]
    exact ⟨h, rfl⟩

/-- An error leaves the writer channel as it is (R152). -/
theorem writerEnds_raise {s s' : State} (h : writerView s = writerView s') (e : ErrorKind) :
    WriterEnds (raise e s) (raise e s') := by
  cases e <;> exact ⟨h, rfl⟩

theorem readerEnds_endRead {α : Type} {r r' : ReadResult α} (h : ReadsAlike r r') (toRes : α → Word64) :
    ReaderEnds (endRead toRes r) (endRead toRes r') := by
  cases h with
  | got a h => exact readerEnds_finish h _ _
  | raised e h => exact readerEnds_raise h e

theorem readerEnds_withOpenReader {s s' : State} (h : readerView s = readerView s') {body body' : State → State}
    (hbody : ReaderEnds (body s) (body' s')) : ReaderEnds (withOpenReader s body) (withOpenReader s' body') := by
  unfold withOpenReader
  rw [← rState_eq_of_readerView h]
  split
  · exact hbody
  · exact readerEnds_raise h _

theorem writerView_eq_iff {s s' : State} : writerView s = writerView s' ↔
    s.wState = s'.wState ∧ s.wOwn = s'.wOwn ∧ s.wAcc = s'.wAcc ∧ s.wCnt = s'.wCnt ∧ s.sink = s'.sink := by
  simp only [writerView, Prod.mk.injEq]

theorem writerView_emit {s s' : State} (h : writerView s = writerView s') (S : Bits) :
    writerView (emit S s) = writerView (emit S s') := by
  obtain ⟨hstate, hown, hacc, hcnt, hsink⟩ := writerView_eq_iff.mp h
  simp only [writerView, emit, setQw, sinkPuts_eq, qw, hstate, hown, hacc, hcnt, hsink]

theorem writerView_padWriter {s s' : State} (h : writerView s = writerView s') :
    writerView (padWriter s) = writerView (padWriter s') := by
  obtain ⟨-, -, -, hcnt, -⟩ := writerView_eq_iff.mp h
  unfold padWriter
  rw [← hcnt]
  split
  · exact writerView_emit h _
  · exact h

theorem writerView_closeWriter {s s' : State} (h : writerView s = writerView s') :
    writerView { releaseSink (padWriter s) with wState := .closed, wOwn := false } =
      writerView { releaseSink (padWriter s') with wState := .closed, wOwn := false } := by
  obtain ⟨-, hown, hacc, hcnt, hsink⟩ := writerView_eq_iff.mp (writerView_padWriter h)
  unfold releaseSink
  rw [← hown]
  split <;> simp [writerView, hacc, hcnt, hsink]

theorem readerView_closeReader {s s' : State} (h : readerView s = readerView s') :
    readerView { releaseSource (setQr [] s) with rState := .closed, rOwn := false } =
      readerView { releaseSource (setQr [] s') with rState := .closed, rOwn := false } := by
  simp only [readerView, Prod.mk.injEq] at h
  obtain ⟨-, hown, -, -, hsrc, hpos, hlog⟩ := h
  unfold releaseSource
  rw [setQr_rOwn, setQr_rOwn, ← hown]
  split <;> simp [readerView, hsrc, hpos, hlog]

theorem writerEnds_withOpenWriter {s s' : State} (h : writerView s = writerView s') {body body' : State → State}
    (hbody : WriterEnds (body s) (body' s')) : WriterEnds (withOpenWriter s body) (withOpenWriter s' body') := by
  obtain ⟨hstate, -⟩ := writerView_eq_iff.mp h
  unfold withOpenWriter
  rw [← hstate]
  split
  · exact hbody
  · exact writerEnds_raise h _

theorem writerEnds_encodeFrame {s s' : State} (h : writerView s = writerView s') (max : Nat) (code : Nat → Bits)
    (v : Word64) : WriterEnds (encodeFrame max code v s) (encodeFrame max code v s') := by
  refine writerEnds_withOpenWriter h ?_
  split
  · exact writerEnds_raise h _
  · exact writerEnds_finish (writerView_emit h _) _ _

/-- A reader command: the reader channel and the response come from the reader channel and `TA_LB` (R43, R63). -/
theorem reader_commands_agree {i : Instr} {s s' : State} (hi : sideOf i = .reader) (hlb : s.taLb = s'.taLb)
    (h : readerView s = readerView s') :
    ∃ t t', exec i s = .next t ∧ exec i s' = .next t' ∧ ReaderEnds t t' := by
  have hstate := rState_eq_of_readerView h
  cases i using instr_byCodec with
  | rOpen own =>
    refine ⟨_, _, rfl, rfl, ?_⟩
    rw [← hstate]
    split
    · refine readerEnds_finish ?_ _ _
      simp_all [readerView]
    · exact readerEnds_raise h _
  | rBits nb =>
    refine ⟨_, _, rfl, rfl, ?_⟩
    split
    · exact readerEnds_withOpenReader h (readerEnds_endRead (readerLocal_readBits _ s s' h) _)
    · exact readerEnds_raise h _
  | rPeek =>
    exact ⟨_, _, rfl, rfl, readerEnds_withOpenReader h (readerEnds_endRead (readerLocal_peekBit s s' h) _)⟩
  | rAlign =>
    refine ⟨_, _, rfl, rfl, readerEnds_withOpenReader h (readerEnds_finish ?_ _ _)⟩
    rw [qr_eq_of_readerView h, rCnt_eq_of_readerView h]
    exact readerView_setQr h _
  | rClose =>
    refine ⟨_, _, rfl, rfl, readerEnds_finish ?_ _ _⟩
    rw [← hstate]
    split
    · exact readerView_closeReader h
    · exact h
  | rDec c =>
    refine ⟨_, _, exec_decodeInstr c s, exec_decodeInstr c s', ?_⟩
    rw [taWidth, taWidth, ← hlb]
    exact readerEnds_withOpenReader h (readerEnds_endRead (readerLocal_decoderOf c _ s s' h) _)
  | wEnc c v => rw [sideOf_encodeInstr] at hi; cases hi
  | predict c v => rw [sideOf_predictInstr] at hi; cases hi
  | wOpen | wBits | wAlign | wClose | cfgTa => cases hi

/-- A writer command: the writer channel and the response come from the writer channel and `TA_LB` (R43, R63). -/
theorem writer_commands_agree {i : Instr} {s s' : State} (hi : sideOf i = .writer) (hlb : s.taLb = s'.taLb)
    (h : writerView s = writerView s') :
    ∃ t t', exec i s = .next t ∧ exec i s' = .next t' ∧ WriterEnds t t' := by
  obtain ⟨hstate, hown, hacc, hcnt, hsink⟩ := writerView_eq_iff.mp h
  cases i using instr_byCodec with
  | wOpen own =>
    refine ⟨_, _, rfl, rfl, ?_⟩
    rw [← hstate]
    split
    · refine writerEnds_finish ?_ _ _
      simp [writerView, hsink]
    · exact writerEnds_raise h _
  | wBits nb v =>
    refine ⟨_, _, rfl, rfl, ?_⟩
    split
    · exact writerEnds_withOpenWriter h (writerEnds_finish (writerView_emit h _) _ _)
    · exact writerEnds_raise h _
  | wAlign =>
    exact ⟨_, _, rfl, rfl, writerEnds_withOpenWriter h (writerEnds_finish (writerView_padWriter h) _ _)⟩
  | wClose =>
    refine ⟨_, _, rfl, rfl, writerEnds_finish ?_ _ _⟩
    rw [← hstate]
    split
    · exact writerView_closeWriter h
    · exact h
  | wEnc c v =>
    refine ⟨_, _, exec_encodeInstr c v s, exec_encodeInstr c v s', ?_⟩
    rw [taWidth, taWidth, ← hlb]
    exact writerEnds_encodeFrame h _ _ v
  | predict c v => rw [sideOf_predictInstr] at hi; cases hi
  | rDec c => rw [sideOf_decodeInstr] at hi; cases hi
  | cfgTa | rOpen | rBits | rPeek | rAlign | rClose => cases hi

/-- `PREDICT` and `CFG_TA`: the response comes from `TA_LB` and the operand alone (R106, R107). -/
theorem neither_commands_agree {i : Instr} {s s' : State} (hi : sideOf i = .neither) (hlb : s.taLb = s'.taLb) :
    ∃ t t', exec i s = .next t ∧ exec i s' = .next t' ∧ t.response = t'.response := by
  cases i using instr_byCodec with
  | predict c v =>
    refine ⟨_, _, exec_predictInstr c v s, exec_predictInstr c v s', ?_⟩
    rw [taWidth, taWidth, ← hlb]
    unfold predictFrame
    split <;> rfl
  | cfgTa lb =>
    refine ⟨_, _, rfl, rfl, ?_⟩
    split <;> rfl
  | wEnc c v => rw [sideOf_encodeInstr] at hi; cases hi
  | rDec c => rw [sideOf_decodeInstr] at hi; cases hi
  | wOpen | wBits | wAlign | wClose | rOpen | rBits | rPeek | rAlign | rClose => cases hi

/-- `TA_LB` after a command comes from `TA_LB` before it and the operand (R107). -/
theorem taLb_agree {i : Instr} {s s' t t' : State} (hlb : s.taLb = s'.taLb) (h : exec i s = .next t)
    (h' : exec i s' = .next t') : t.taLb = t'.taLb := by
  by_cases hi : ∃ lb, i = .cfgTa lb
  · obtain ⟨lb, rfl⟩ := hi
    obtain rfl := Host.Outcome.next.inj h
    obtain rfl := Host.Outcome.next.inj h'
    split
    · exact hlb
    · rfl
  · have hkeeps : ∀ {u w : State}, exec i u = .next w → w.taLb = u.taLb := fun hu =>
      (exec_taLb hu).resolve_right fun ⟨_, hcfg⟩ => hi ⟨_, hcfg⟩
    rw [hkeeps h, hkeeps h', hlb]

/-- Two runs of a command, whose next states are given, end as any lemma about its next states says. -/
theorem ends_of_exec {R : State → State → Prop} {i : Instr} {s s' t t' : State} (h : exec i s = .next t)
    (h' : exec i s' = .next t') (hR : ∃ u u', exec i s = .next u ∧ exec i s' = .next u' ∧ R u u') : R t t' := by
  obtain ⟨u, u', hu, hu', hR⟩ := hR
  obtain rfl := Host.Outcome.next.inj (h.symm.trans hu)
  obtain rfl := Host.Outcome.next.inj (h'.symm.trans hu')
  exact hR

/-- Settles O19: a channel's own commands see that channel and `TA_LB` alone, the others leave the channel as it is. -/
theorem channelsDoNotReadEachOther : Obligations.ChannelsDoNotReadEachOther := by
  intro i s s' t t' hlb h h'
  have htaLb := taLb_agree hlb h h'
  constructor
  · intro hside hview
    cases hi : sideOf i with
    | writer => exact absurd hi hside
    | reader =>
      obtain ⟨hv, hresp⟩ := ends_of_exec h h' (reader_commands_agree hi hlb hview)
      exact ⟨hv, htaLb, hresp⟩
    | neither =>
      have hother : sideOf i ≠ .reader := by rw [hi]; decide
      refine ⟨?_, htaLb, ends_of_exec h h' (neither_commands_agree hi hlb)⟩
      rw [exec_keeps_readerView h hother, exec_keeps_readerView h' hother, hview]
  · intro hside hview
    cases hi : sideOf i with
    | reader => exact absurd hi hside
    | writer =>
      obtain ⟨hv, hresp⟩ := ends_of_exec h h' (writer_commands_agree hi hlb hview)
      exact ⟨hv, htaLb, hresp⟩
    | neither =>
      have hother : sideOf i ≠ .writer := by rw [hi]; decide
      refine ⟨?_, htaLb, ends_of_exec h h' (neither_commands_agree hi hlb)⟩
      rw [exec_keeps_writerView h hother, exec_keeps_writerView h' hother, hview]

end Sys2Proof.Machine


/-! ### StreamTruncated comes only at the end of the source

A reader procedure raises StreamTruncated only where no bit is ahead (R52, R109): the primitives do, and the decoders
are built from them. A command ends with that code only by such a procedure. -/

namespace Sys2Proof.Machine

/-- A reader procedure that raises StreamTruncated only where no bit is ahead. -/
def TruncatesAtEnd {α : Type} (f : State → ReadResult α) : Prop :=
  ∀ s u, f s = .raised .streamTruncated u → ahead u = []

theorem TruncatesAtEnd.bind {α β : Type} {g : State → ReadResult α} {f : α → State → ReadResult β}
    (hg : TruncatesAtEnd g) (hf : ∀ a, TruncatesAtEnd (f a)) : TruncatesAtEnd fun s => (g s).bind f := by
  intro s u h
  dsimp only at h
  cases hgs : g s with
  | got a t => rw [hgs] at h; exact hf a t u h
  | raised e t =>
    rw [hgs] at h
    cases h
    exact hg s u hgs

theorem truncatesAtEnd_got {α : Type} (a : α) : TruncatesAtEnd fun s => .got a s := by
  intro s u h
  cases h

theorem truncatesAtEnd_overflow {α : Type} :
    TruncatesAtEnd fun s => (.raised .symbolOverflow s : ReadResult α) := by
  intro s u h
  cases h

theorem truncatesAtEnd_ite {α : Type} {p : Prop} [Decidable p] {f g : State → ReadResult α} (hf : TruncatesAtEnd f)
    (hg : TruncatesAtEnd g) : TruncatesAtEnd fun s => if p then f s else g s := by
  split
  · exact hf
  · exact hg

/-! #### The primitives -/

theorem truncatesAtEnd_nextBit : TruncatesAtEnd nextBit := by
  intro s u h
  cases ha : ahead s with
  | nil => rw [nextBit_end ha] at h; cases h; exact ha
  | cons b rest =>
    obtain ⟨t, ht, -⟩ := nextBit_got ha
    rw [ht] at h
    cases h

theorem truncatesAtEnd_peekBit : TruncatesAtEnd peekBit := by
  intro s u h
  cases ha : ahead s with
  | nil => rw [peekBit_end ha] at h; cases h; exact ha
  | cons b rest =>
    obtain ⟨t, -, ht, -⟩ := peekBit_got ha
    rw [ht] at h
    cases h

theorem truncatesAtEnd_readBits (n : Nat) : TruncatesAtEnd (readBits n) := by
  induction n with
  | zero => exact truncatesAtEnd_got []
  | succ n ih => exact truncatesAtEnd_nextBit.bind fun b => ih.bind fun S => truncatesAtEnd_got _

theorem truncatesAtEnd_readNat (n x : Nat) : TruncatesAtEnd (readNat n x) := by
  induction n generalizing x with
  | zero => exact truncatesAtEnd_got x
  | succ n ih => exact truncatesAtEnd_nextBit.bind fun b => ih _

/-! #### The decoders -/

theorem truncatesAtEnd_vlqLoop (final : Bool) (fuel S i : Nat) : TruncatesAtEnd (vlqLoop final fuel S i) := by
  induction fuel generalizing S i with
  | zero => exact truncatesAtEnd_overflow
  | succ fuel ih =>
    exact (truncatesAtEnd_readBits 8).bind fun U =>
      truncatesAtEnd_ite truncatesAtEnd_overflow (truncatesAtEnd_ite (truncatesAtEnd_got _) (ih _ _))

theorem truncatesAtEnd_gammaZeros (room z : Nat) : TruncatesAtEnd (gammaZeros room z) := by
  induction room generalizing z with
  | zero => exact truncatesAtEnd_overflow
  | succ room ih => exact truncatesAtEnd_nextBit.bind fun b => truncatesAtEnd_ite (truncatesAtEnd_got _) (ih _)

theorem truncatesAtEnd_gammaRead : TruncatesAtEnd gammaRead :=
  (truncatesAtEnd_gammaZeros 64 0).bind fun z => truncatesAtEnd_readNat z 1

theorem truncatesAtEnd_decDelta : TruncatesAtEnd decDelta :=
  truncatesAtEnd_gammaRead.bind fun _ =>
    truncatesAtEnd_ite truncatesAtEnd_overflow ((truncatesAtEnd_readNat _ _).bind fun _ => truncatesAtEnd_got _)

theorem truncatesAtEnd_omegaLoop (fuel N : Nat) : TruncatesAtEnd (omegaLoop fuel N) := by
  induction fuel generalizing N with
  | zero => exact truncatesAtEnd_overflow
  | succ fuel ih =>
    exact truncatesAtEnd_nextBit.bind fun b =>
      truncatesAtEnd_ite (truncatesAtEnd_got _)
        (truncatesAtEnd_ite truncatesAtEnd_overflow ((truncatesAtEnd_readNat _ _).bind fun x => ih x))

theorem truncatesAtEnd_fibLoop (terms : List Nat) (p : Bool) (S : Nat) : TruncatesAtEnd (fibLoop terms p S) := by
  induction terms generalizing p S with
  | nil =>
    exact truncatesAtEnd_nextBit.bind fun b => truncatesAtEnd_ite (truncatesAtEnd_got _) truncatesAtEnd_overflow
  | cons f terms ih =>
    exact truncatesAtEnd_nextBit.bind fun b =>
      truncatesAtEnd_ite (truncatesAtEnd_got _) (truncatesAtEnd_ite truncatesAtEnd_overflow (ih _ _))

theorem truncatesAtEnd_decoderOf (c : Codec) (lb : Nat) : TruncatesAtEnd (decoderOf c lb) := by
  cases c with
  | vlq => exact truncatesAtEnd_vlqLoop true 11 0 0
  | ivlq => exact truncatesAtEnd_vlqLoop false 11 0 0
  | gamma => exact truncatesAtEnd_gammaRead.bind fun x => truncatesAtEnd_got _
  | delta => exact truncatesAtEnd_decDelta
  | omega => exact truncatesAtEnd_omegaLoop 64 1
  | fib => exact truncatesAtEnd_fibLoop fibTable false 0
  | ta =>
    exact (truncatesAtEnd_readNat lb 0).bind fun _ => (truncatesAtEnd_readNat _ 0).bind fun _ => truncatesAtEnd_got _
  | raw => exact truncatesAtEnd_readNat 64 0

/-! #### The commands -/

@[simp] theorem raise_status (e : ErrorKind) (s : State) : (raise e s).status = e.code := by cases e <;> rfl

theorem code_eq_two_iff {e : ErrorKind} : e.code = 2 ↔ e = .streamTruncated := by cases e <;> decide

/-- If `t` holds StreamTruncated, it was raised where all bits ahead in `s` had been read. -/
def TruncatedOnlyAtEnd (s t : State) : Prop :=
  t.status = 2 → ∃ u n, Reads s u n ∧ ahead u = [] ∧ t = raise .streamTruncated u

/-- Where all bits ahead were read, every byte left was pulled (R51, R52). -/
theorem Reads.srcPos_of_end {s u : State} {n : Nat} (h : Reads s u n) (hend : ahead u = [])
    (hle : s.srcPos ≤ s.src.length) : u.srcPos = s.src.length := by
  have hlen := ahead_length u
  have hu := h.advances.srcPos_le hle
  rw [hend, h.frame.src, List.length_nil] at hlen
  omega

/-- So StreamTruncated leaves the whole source pulled and recorded, and the reader FAULTED (R51, R109, R152). -/
theorem TruncatedOnlyAtEnd.eq_faultedAfter {s t : State} (h : TruncatedOnlyAtEnd s t)
    (hle : s.srcPos ≤ s.src.length) (ht : t.status = 2) : t = faultedAfter 2 (s.src.length - s.srcPos) s := by
  obtain ⟨u, n, hreads, hend, rfl⟩ := h ht
  rw [raise_after_reads rfl hreads, hreads.srcPos_of_end hend hle]
  rfl

theorem truncatedOnlyAtEnd_finish {r : Word64} {v : Bool} {s u : State} : TruncatedOnlyAtEnd s (finish r v u) :=
  fun h => absurd h (by simp)

theorem truncatedOnlyAtEnd_raise {e : ErrorKind} {s u : State} (he : e ≠ .streamTruncated) :
    TruncatedOnlyAtEnd s (raise e u) :=
  fun h => absurd (code_eq_two_iff.mp ((raise_status e u).symm.trans h)) he

theorem truncatedOnlyAtEnd_withOpenWriter {s : State} {body : State → State} (h : TruncatedOnlyAtEnd s (body s)) :
    TruncatedOnlyAtEnd s (withOpenWriter s body) := by
  unfold withOpenWriter
  split
  · exact h
  · exact truncatedOnlyAtEnd_raise (by decide)

theorem truncatedOnlyAtEnd_withOpenReader {s : State} {body : State → State} (h : TruncatedOnlyAtEnd s (body s)) :
    TruncatedOnlyAtEnd s (withOpenReader s body) := by
  unfold withOpenReader
  split
  · exact h
  · exact truncatedOnlyAtEnd_raise (by decide)

theorem truncatedOnlyAtEnd_encodeFrame {max : Nat} {code : Nat → Bits} {v : Word64} {s : State} :
    TruncatedOnlyAtEnd s (encodeFrame max code v s) := by
  refine truncatedOnlyAtEnd_withOpenWriter ?_
  split
  · exact truncatedOnlyAtEnd_raise (by decide)
  · exact truncatedOnlyAtEnd_finish

theorem truncatedOnlyAtEnd_predictFrame {max : Nat} {len : Nat → Nat} {v : Word64} {s : State} :
    TruncatedOnlyAtEnd s (predictFrame max len v s) := by
  unfold predictFrame
  split
  · exact truncatedOnlyAtEnd_finish
  · exact truncatedOnlyAtEnd_finish

/-- A procedure that only reads has read just some bits where it raises an error (R152). -/
theorem ReadsOnly.reads_of_raised {α : Type} {s u : State} {r : ReadResult α} {e : ErrorKind} (h : ReadsOnly s r)
    (hr : r = .raised e u) : ∃ n, Reads s u n := by
  subst hr
  exact h.2

/-- `PeekBit` has read nothing where it raises an error (R93). -/
theorem reads_of_peekBit_raised {s u : State} {e : ErrorKind} (h : peekBit s = .raised e u) : ∃ n, Reads s u n := by
  obtain ⟨-, rfl⟩ := peekBit_raised h
  exact ⟨0, .refl u⟩

/-- A reader command inherits the property from the procedure it runs (R94, R105, R152). -/
theorem truncatedOnlyAtEnd_endRead {α : Type} {f : State → ReadResult α} {s : State} (hf : TruncatesAtEnd f)
    (hr : ∀ {e u}, f s = .raised e u → ∃ n, Reads s u n) (toRes : α → Word64) :
    TruncatedOnlyAtEnd s (endRead toRes (f s)) := by
  cases hfs : f s with
  | got a u => exact truncatedOnlyAtEnd_finish
  | raised e u =>
    intro hstatus
    obtain ⟨n, hreads⟩ := hr hfs
    obtain rfl : e = .streamTruncated := code_eq_two_iff.mp ((raise_status e u).symm.trans hstatus)
    exact ⟨u, n, hreads, hf s u hfs, rfl⟩

/-- Every command ends with StreamTruncated only at the end of the source (R52, R109). -/
theorem exec_truncatedOnlyAtEnd (i : Instr) (s : State) : ∃ t, exec i s = .next t ∧ TruncatedOnlyAtEnd s t := by
  cases i using instr_byCodec with
  | wOpen own =>
    refine ⟨_, rfl, ?_⟩
    split
    · exact truncatedOnlyAtEnd_finish
    · exact truncatedOnlyAtEnd_raise (by decide)
  | wBits nb v =>
    refine ⟨_, rfl, ?_⟩
    split
    · exact truncatedOnlyAtEnd_withOpenWriter truncatedOnlyAtEnd_finish
    · exact truncatedOnlyAtEnd_raise (by decide)
  | wAlign => exact ⟨_, rfl, truncatedOnlyAtEnd_withOpenWriter truncatedOnlyAtEnd_finish⟩
  | wClose => exact ⟨_, rfl, truncatedOnlyAtEnd_finish⟩
  | wEnc c v => exact ⟨_, exec_encodeInstr c v s, truncatedOnlyAtEnd_encodeFrame⟩
  | predict c v => exact ⟨_, exec_predictInstr c v s, truncatedOnlyAtEnd_predictFrame⟩
  | cfgTa lb =>
    refine ⟨_, rfl, ?_⟩
    split
    · exact truncatedOnlyAtEnd_raise (by decide)
    · exact truncatedOnlyAtEnd_finish
  | rOpen own =>
    refine ⟨_, rfl, ?_⟩
    split
    · exact truncatedOnlyAtEnd_finish
    · exact truncatedOnlyAtEnd_raise (by decide)
  | rBits nb =>
    refine ⟨_, rfl, ?_⟩
    split
    · exact truncatedOnlyAtEnd_withOpenReader
        (truncatedOnlyAtEnd_endRead (truncatesAtEnd_readBits _) (readsOnly_readBits _ s).reads_of_raised _)
    · exact truncatedOnlyAtEnd_raise (by decide)
  | rPeek => exact ⟨_, rfl, truncatedOnlyAtEnd_withOpenReader
      (truncatedOnlyAtEnd_endRead truncatesAtEnd_peekBit reads_of_peekBit_raised _)⟩
  | rAlign => exact ⟨_, rfl, truncatedOnlyAtEnd_withOpenReader truncatedOnlyAtEnd_finish⟩
  | rClose => exact ⟨_, rfl, truncatedOnlyAtEnd_finish⟩
  | rDec c =>
    exact ⟨_, exec_decodeInstr c s, truncatedOnlyAtEnd_withOpenReader
      (truncatedOnlyAtEnd_endRead (truncatesAtEnd_decoderOf c _) (readsOnly_decoderOf c _ s).reads_of_raised _)⟩

/-- Settles O58: the command raised the error where no bit was ahead, so the source was used up. -/
theorem truncationOnlyAtEndOfStream : Obligations.TruncationOnlyAtEndOfStream := by
  intro i s t hle h hstatus
  obtain ⟨t', ht', htrunc⟩ := exec_truncatedOnlyAtEnd i s
  obtain rfl := Host.Outcome.next.inj (h.symm.trans ht')
  have ht := htrunc.eq_faultedAfter hle hstatus
  refine ⟨ht, ?_⟩
  rw [ht]
  show s.srcPos + (s.src.length - s.srcPos) = s.src.length
  omega

end Sys2Proof.Machine

/-! ### Command words: decoder, encoder and assembler (`30_encoding.md`)

A command word is read as two numbers, its operation field and its operand area. `OpcodeMap` is the opcode map (R77)
over these two numbers. The decoder, the encoder and the illegal words are each tied to it once, and so to each other;
the assembler is tied to the encoder. -/

namespace Sys2Proof.Machine

/-! #### The fields of a word as numbers -/

/-- The operand area `CMD[11:0]` as a number (R68). -/
def areaField (w : CmdWord) : Nat := w.toNat % 4096

theorem opField_eq (w : CmdWord) : opField w = w.toNat / 4096 := by
  rw [opField, BitVec.extractLsb'_toNat, Nat.shiftRight_eq_div_pow]
  exact Nat.mod_eq_of_lt (by have := w.isLt; omega)

theorem opField_lt (w : CmdWord) : opField w < 16 := (w.extractLsb' 12 4).isLt

theorem areaField_lt (w : CmdWord) : areaField w < 4096 := Nat.mod_lt _ (by decide)

theorem toNat_eq_fields (w : CmdWord) : w.toNat = 4096 * opField w + areaField w := by
  rw [opField_eq, areaField, Nat.div_add_mod]

/-- A word is determined by its two fields. -/
theorem word_eq_fields (w : CmdWord) : w = BitVec.ofNat 16 (4096 * opField w + areaField w) := by
  rw [← toNat_eq_fields, BitVec.ofNat_toNat, BitVec.setWidth_eq]

theorem opField_ofNat {op area : Nat} (hop : op < 16) (harea : area < 4096) :
    opField (BitVec.ofNat 16 (4096 * op + area)) = op := by
  rw [opField_eq, BitVec.toNat_ofNat]
  omega

theorem areaField_ofNat (op : Nat) {area : Nat} (harea : area < 4096) :
    areaField (BitVec.ofNat 16 (4096 * op + area)) = area := by
  rw [areaField, BitVec.toNat_ofNat]
  omega

/-- The low bits of a word are the low bits of its area. -/
theorem toNat_extractLsb'_zero (w : CmdWord) {k : Nat} (hk : k ≤ 12) :
    (w.extractLsb' 0 k).toNat = areaField w % 2 ^ k := by
  rw [BitVec.extractLsb'_toNat, Nat.shiftRight_zero, areaField]
  exact (Nat.mod_mod_of_dvd _ (Nat.pow_dvd_pow 2 hk)).symm

/-- The reserved bits above a `k`-bit operand are clear exactly when the area is below `2^k` (R69 to R73, R79). -/
theorem reservedBits_clear_iff (w : CmdWord) {k n : Nat} (hkn : k + n = 12) :
    w.extractLsb' k n = 0 ↔ areaField w < 2 ^ k := by
  have harea : (w.extractLsb' k n).toNat = areaField w / 2 ^ k := by
    rw [BitVec.extractLsb'_toNat, Nat.shiftRight_eq_div_pow, areaField,
      show 4096 = 2 ^ k * 2 ^ n by rw [← pow_add, hkn]; rfl, Nat.mod_mul_right_div_self]
  rw [← BitVec.toNat_inj, harea, BitVec.ofNat_eq_ofNat, BitVec.toNat_ofNat, Nat.zero_mod,
    Nat.div_eq_zero_iff_lt (Nat.two_pow_pos k)]

/-! #### What each format accepts -/

/-- A format's check of its reserved bits: it passes and the rest gives the instruction. -/
theorem reservedCheck_ok_iff {p : Prop} [Decidable p] {x : Except DecodeError Instr} {j : Instr} :
    (if ¬ p then .error .reservedBits else x) = .ok j ↔ p ∧ x = .ok j := by
  by_cases hp : p <;> simp [hp]

theorem decodeN_ok_iff {i j : Instr} {w : CmdWord} : decodeN i w = .ok j ↔ areaField w = 0 ∧ j = i := by
  rw [decodeN, reservedCheck_ok_iff, reservedBits_clear_iff w (k := 0) rfl, Except.ok.injEq, pow_zero, Nat.lt_one_iff,
    eq_comm (a := i)]

theorem decodeO_ok_iff {mk : Bool → Instr} {j : Instr} {w : CmdWord} :
    decodeO mk w = .ok j ↔ ∃ own, areaField w = own.toNat ∧ j = mk own := by
  have hbit : (w.getLsbD 0).toNat = areaField w % 2 := by
    rw [areaField, ← BitVec.testBit_toNat, Nat.toNat_testBit]
    omega
  rw [decodeO, reservedCheck_ok_iff, reservedBits_clear_iff w (k := 1) rfl, Except.ok.injEq]
  constructor
  · rintro ⟨hlt, rfl⟩
    exact ⟨_, by rw [hbit]; omega, rfl⟩
  · rintro ⟨own, harea, rfl⟩
    have hlt := own.toNat_lt
    exact ⟨by omega, congrArg mk (Function.LeftInverse.injective Bool.ofNat_toNat (by omega))⟩

/-- A `k`-bit operand with the bits above it clear is the whole area. -/
theorem lowBits_iff {w : CmdWord} {k : Nat} (hk : k ≤ 12) (x : BitVec k) :
    areaField w < 2 ^ k ∧ w.extractLsb' 0 k = x ↔ areaField w = x.toNat := by
  rw [← BitVec.toNat_inj, toNat_extractLsb'_zero w hk]
  constructor
  · rintro ⟨hlt, hx⟩
    rw [← hx, Nat.mod_eq_of_lt hlt]
  · intro harea
    rw [harea]
    exact ⟨x.isLt, Nat.mod_eq_of_lt x.isLt⟩

theorem decodeB_ok_iff {mk : BitVec 7 → Instr} {j : Instr} {w : CmdWord} :
    decodeB mk w = .ok j ↔ ∃ nb, legalCount nb ∧ areaField w = nb.toNat ∧ j = mk nb := by
  rw [decodeB, reservedCheck_ok_iff, reservedBits_clear_iff w (k := 7) rfl]
  constructor
  · rintro ⟨hlt, hj⟩
    split at hj
    · next hn => cases hj; exact ⟨_, hn, (lowBits_iff (by decide) _).mp ⟨hlt, rfl⟩, rfl⟩
    · cases hj
  · rintro ⟨nb, hn, harea, rfl⟩
    obtain ⟨hlt, hnb⟩ := (lowBits_iff (by decide) nb).mpr harea
    rw [hnb]
    exact ⟨hlt, if_pos hn⟩

theorem decodeL_ok_iff {mk : BitVec 3 → Instr} {j : Instr} {w : CmdWord} :
    decodeL mk w = .ok j ↔ ∃ lb : BitVec 3, areaField w = lb.toNat ∧ j = mk lb := by
  rw [decodeL, reservedCheck_ok_iff, reservedBits_clear_iff w (k := 3) rfl, Except.ok.injEq]
  constructor
  · rintro ⟨hlt, rfl⟩
    exact ⟨_, (lowBits_iff (by decide) _).mp ⟨hlt, rfl⟩, rfl⟩
  · rintro ⟨lb, harea, rfl⟩
    obtain ⟨hlt, hlb⟩ := (lowBits_iff (by decide) lb).mpr harea
    exact ⟨hlt, congrArg mk hlb⟩

/-- Format C is format L with the selector read as a codec (R72, R73, R76). -/
theorem decodeC_ok_iff {mk : Codec → Instr} {j : Instr} {w : CmdWord} :
    decodeC mk w = .ok j ↔ ∃ c, areaField w = codecNumber c ∧ j = mk c := by
  rw [show decodeC mk w = decodeL (fun n => mk (codecOf n)) w from rfl, decodeL_ok_iff]
  constructor
  · rintro ⟨n, harea, rfl⟩
    exact ⟨codecOf n, by rw [harea, codecNumber_codecOf], rfl⟩
  · rintro ⟨c, harea, rfl⟩
    refine ⟨BitVec.ofNat 3 (codecNumber c), ?_, by rw [codecOf_codecNumber]⟩
    rw [harea, ← codecNumber_codecOf, codecOf_codecNumber]

/-! #### The opcode map -/

/-- The opcode map (R77) with the formats (R69 to R73): the operation field, the operand area and `ARG` of a command,
and the instruction it stands for. -/
inductive OpcodeMap : Nat → Nat → Word64 → Instr → Prop where
  | wOpen (own : Bool) (a : Word64) : OpcodeMap 0x1 own.toNat a (.wOpen own)
  | wBits (nb : BitVec 7) (a : Word64) (h : legalCount nb) : OpcodeMap 0x2 nb.toNat a (.wBits nb a)
  | wAlign (a : Word64) : OpcodeMap 0x3 0 a .wAlign
  | wClose (a : Word64) : OpcodeMap 0x4 0 a .wClose
  | wEnc (c : Codec) (a : Word64) : OpcodeMap 0x5 (codecNumber c) a (encodeInstr c a)
  | predict (c : Codec) (a : Word64) : OpcodeMap 0x6 (codecNumber c) a (predictInstr c a)
  | cfgTa (lb : BitVec 3) (a : Word64) : OpcodeMap 0x7 lb.toNat a (.cfgTa lb)
  | rOpen (own : Bool) (a : Word64) : OpcodeMap 0x9 own.toNat a (.rOpen own)
  | rBits (nb : BitVec 7) (a : Word64) (h : legalCount nb) : OpcodeMap 0xA nb.toNat a (.rBits nb)
  | rPeek (a : Word64) : OpcodeMap 0xB 0 a .rPeek
  | rAlign (a : Word64) : OpcodeMap 0xC 0 a .rAlign
  | rClose (a : Word64) : OpcodeMap 0xD 0 a .rClose
  | rDec (c : Codec) (a : Word64) : OpcodeMap 0xE (codecNumber c) a (decodeInstr c)

theorem opcodeMap_of_decode {c : Command} {i : Instr} (h : decode c = .ok i) :
    OpcodeMap (opField c.cmd) (areaField c.cmd) c.arg i := by
  unfold decode at h
  split at h
  case h_14 => cases h
  all_goals (rename_i hop; rw [hop])
  · obtain ⟨own, harea, rfl⟩ := decodeO_ok_iff.mp h; rw [harea]; exact .wOpen own _
  · obtain ⟨nb, hnb, harea, rfl⟩ := decodeB_ok_iff.mp h; rw [harea]; exact .wBits nb _ hnb
  · obtain ⟨harea, rfl⟩ := decodeN_ok_iff.mp h; rw [harea]; exact .wAlign _
  · obtain ⟨harea, rfl⟩ := decodeN_ok_iff.mp h; rw [harea]; exact .wClose _
  · obtain ⟨k, harea, rfl⟩ := decodeC_ok_iff.mp h; rw [harea]; exact .wEnc k _
  · obtain ⟨k, harea, rfl⟩ := decodeC_ok_iff.mp h; rw [harea]; exact .predict k _
  · obtain ⟨lb, harea, rfl⟩ := decodeL_ok_iff.mp h; rw [harea]; exact .cfgTa lb _
  · obtain ⟨own, harea, rfl⟩ := decodeO_ok_iff.mp h; rw [harea]; exact .rOpen own _
  · obtain ⟨nb, hnb, harea, rfl⟩ := decodeB_ok_iff.mp h; rw [harea]; exact .rBits nb _ hnb
  · obtain ⟨harea, rfl⟩ := decodeN_ok_iff.mp h; rw [harea]; exact .rPeek _
  · obtain ⟨harea, rfl⟩ := decodeN_ok_iff.mp h; rw [harea]; exact .rAlign _
  · obtain ⟨harea, rfl⟩ := decodeN_ok_iff.mp h; rw [harea]; exact .rClose _
  · obtain ⟨k, harea, rfl⟩ := decodeC_ok_iff.mp h; rw [harea]; exact .rDec k _

theorem decode_of_opcodeMap {c : Command} {i : Instr} (h : OpcodeMap (opField c.cmd) (areaField c.cmd) c.arg i) :
    decode c = .ok i := by
  generalize hop : opField c.cmd = op, harea : areaField c.cmd = area at h
  cases h with
  | wOpen own => exact (decode_op1 _ hop).trans (decodeO_ok_iff.mpr ⟨own, harea, rfl⟩)
  | wBits nb _ hnb => exact (decode_op2 _ hop).trans (decodeB_ok_iff.mpr ⟨nb, hnb, harea, rfl⟩)
  | wAlign => exact (decode_op3 _ hop).trans (decodeN_ok_iff.mpr ⟨harea, rfl⟩)
  | wClose => exact (decode_op4 _ hop).trans (decodeN_ok_iff.mpr ⟨harea, rfl⟩)
  | wEnc k => exact (decode_op5 _ hop).trans (decodeC_ok_iff.mpr ⟨k, harea, rfl⟩)
  | predict k => exact (decode_op6 _ hop).trans (decodeC_ok_iff.mpr ⟨k, harea, rfl⟩)
  | cfgTa lb => exact (decode_op7 _ hop).trans (decodeL_ok_iff.mpr ⟨lb, harea, rfl⟩)
  | rOpen own => exact (decode_op9 _ hop).trans (decodeO_ok_iff.mpr ⟨own, harea, rfl⟩)
  | rBits nb _ hnb => exact (decode_opA _ hop).trans (decodeB_ok_iff.mpr ⟨nb, hnb, harea, rfl⟩)
  | rPeek => exact (decode_opB _ hop).trans (decodeN_ok_iff.mpr ⟨harea, rfl⟩)
  | rAlign => exact (decode_opC _ hop).trans (decodeN_ok_iff.mpr ⟨harea, rfl⟩)
  | rClose => exact (decode_opD _ hop).trans (decodeN_ok_iff.mpr ⟨harea, rfl⟩)
  | rDec k => exact (decode_opE _ hop).trans (decodeC_ok_iff.mpr ⟨k, harea, rfl⟩)

/-- The decoder follows the opcode map (R77, R81). -/
theorem decode_ok_iff {c : Command} {i : Instr} :
    decode c = .ok i ↔ OpcodeMap (opField c.cmd) (areaField c.cmd) c.arg i :=
  ⟨opcodeMap_of_decode, decode_of_opcodeMap⟩

/-! #### The encoder writes the word of the opcode map -/

/-- An operand set into the low bits of an operation's word is added to it. -/
theorem or_setWidth_eq_ofNat {n : Nat} (op : Nat) (x : BitVec n) (hop : op < 16) (hn : n ≤ 12) :
    BitVec.ofNat 16 (4096 * op) ||| x.setWidth 16 = BitVec.ofNat 16 (4096 * op + x.toNat) := by
  have hx : x.toNat < 2 ^ 12 := x.isLt.trans_le (Nat.pow_le_pow_right (by decide) hn)
  apply BitVec.eq_of_toNat_eq
  rw [BitVec.toNat_or, BitVec.toNat_ofNat, BitVec.toNat_ofNat, BitVec.toNat_setWidth,
    Nat.mod_eq_of_lt (by omega), Nat.mod_eq_of_lt (by omega), Nat.mod_eq_of_lt (by omega),
    ← Nat.two_pow_add_eq_or_of_lt hx]

theorem codecNumber_lt (c : Codec) : codecNumber c < 8 := by
  cases c <;> decide

theorem encode_wOpen (own : Bool) : encode (.wOpen own) = ⟨BitVec.ofNat 16 (0x1000 + own.toNat), 0⟩ := by
  cases own <;> rfl

theorem encode_rOpen (own : Bool) : encode (.rOpen own) = ⟨BitVec.ofNat 16 (0x9000 + own.toNat), 0⟩ := by
  cases own <;> rfl

theorem encode_wBits (nb : BitVec 7) (v : Word64) :
    encode (.wBits nb v) = ⟨BitVec.ofNat 16 (0x2000 + nb.toNat), v⟩ :=
  congrArg (Command.mk · v) (or_setWidth_eq_ofNat 0x2 nb (by decide) (by decide))

theorem encode_rBits (nb : BitVec 7) : encode (.rBits nb) = ⟨BitVec.ofNat 16 (0xA000 + nb.toNat), 0⟩ :=
  congrArg (Command.mk · 0) (or_setWidth_eq_ofNat 0xA nb (by decide) (by decide))

theorem encode_cfgTa (lb : BitVec 3) : encode (.cfgTa lb) = ⟨BitVec.ofNat 16 (0x7000 + lb.toNat), 0⟩ :=
  congrArg (Command.mk · 0) (or_setWidth_eq_ofNat 0x7 lb (by decide) (by decide))

theorem encode_encodeInstr (c : Codec) (v : Word64) :
    encode (encodeInstr c v) = ⟨BitVec.ofNat 16 (0x5000 + codecNumber c), v⟩ := by
  cases c <;> rfl

theorem encode_predictInstr (c : Codec) (v : Word64) :
    encode (predictInstr c v) = ⟨BitVec.ofNat 16 (0x6000 + codecNumber c), v⟩ := by
  cases c <;> rfl

theorem encode_decodeInstr (c : Codec) :
    encode (decodeInstr c) = ⟨BitVec.ofNat 16 (0xE000 + codecNumber c), 0⟩ := by
  cases c <;> rfl

theorem OpcodeMap.bounds {op area : Nat} {a : Word64} {i : Instr} (h : OpcodeMap op area a i) :
    op < 16 ∧ area < 4096 := by
  cases h with
  | wOpen own | rOpen own => have := own.toNat_lt; omega
  | wBits nb | rBits nb => have := nb.isLt; omega
  | wEnc c | predict c | rDec c => have := codecNumber_lt c; omega
  | cfgTa lb => have := lb.isLt; omega
  | wAlign | wClose | rPeek | rAlign | rClose => decide

theorem OpcodeMap.encode_cmd {op area : Nat} {a : Word64} {i : Instr} (h : OpcodeMap op area a i) :
    (encode i).cmd = BitVec.ofNat 16 (4096 * op + area) := by
  cases h with
  | wOpen own => rw [encode_wOpen]
  | wBits nb => rw [encode_wBits]
  | wEnc c => rw [encode_encodeInstr]
  | predict c => rw [encode_predictInstr]
  | cfgTa lb => rw [encode_cfgTa]
  | rOpen own => rw [encode_rOpen]
  | rBits nb => rw [encode_rBits]
  | rDec c => rw [encode_decodeInstr]
  | wAlign | wClose | rPeek | rAlign | rClose => rfl

/-- A command that reads `ARG` is encoded with it; the others have any `ARG` and are encoded with 0 (R75, R83). -/
theorem OpcodeMap.encode_arg {op area : Nat} {a : Word64} {i : Instr} (h : OpcodeMap op area a i) :
    (encode i).arg = a ∨ ((encode i).arg = 0 ∧ ∀ b, OpcodeMap op area b i) := by
  cases h with
  | wBits => exact .inl rfl
  | wEnc c => exact .inl (by rw [encode_encodeInstr])
  | predict c => exact .inl (by rw [encode_predictInstr])
  | wOpen own => exact .inr ⟨rfl, .wOpen own⟩
  | wAlign => exact .inr ⟨rfl, .wAlign⟩
  | wClose => exact .inr ⟨rfl, .wClose⟩
  | cfgTa lb => exact .inr ⟨rfl, .cfgTa lb⟩
  | rOpen own => exact .inr ⟨rfl, .rOpen own⟩
  | rBits nb _ hnb => exact .inr ⟨rfl, (.rBits nb · hnb)⟩
  | rPeek => exact .inr ⟨rfl, .rPeek⟩
  | rAlign => exact .inr ⟨rfl, .rAlign⟩
  | rClose => exact .inr ⟨rfl, .rClose⟩
  | rDec c => exact .inr ⟨by rw [encode_decodeInstr], .rDec c⟩

/-- Every well-formed instruction is in the opcode map with the `ARG` of its encoding. -/
theorem exists_opcodeMap_of_wellFormed {i : Instr} (h : i.wellFormed = true) :
    ∃ op area, OpcodeMap op area (encode i).arg i := by
  cases i using instr_byCodec with
  | wOpen own => exact ⟨_, _, .wOpen own _⟩
  | wBits nb v => exact ⟨_, _, .wBits nb v (of_decide_eq_true h)⟩
  | wAlign => exact ⟨_, _, .wAlign _⟩
  | wClose => exact ⟨_, _, .wClose _⟩
  | wEnc c v => rw [encode_encodeInstr]; exact ⟨_, _, .wEnc c v⟩
  | predict c v => rw [encode_predictInstr]; exact ⟨_, _, .predict c v⟩
  | cfgTa lb => exact ⟨_, _, .cfgTa lb _⟩
  | rOpen own => exact ⟨_, _, .rOpen own _⟩
  | rBits nb => exact ⟨_, _, .rBits nb _ (of_decide_eq_true h)⟩
  | rPeek => exact ⟨_, _, .rPeek _⟩
  | rAlign => exact ⟨_, _, .rAlign _⟩
  | rClose => exact ⟨_, _, .rClose _⟩
  | rDec c => exact ⟨_, _, .rDec c _⟩

/-- Settles O1: the instruction's row of the opcode map gives the fields of its word, and the decoder reads them
back. -/
theorem decodeOfEncodeIsInstruction : Obligations.DecodeOfEncodeIsInstruction := by
  intro i hi
  obtain ⟨op, area, hmap⟩ := exists_opcodeMap_of_wellFormed hi
  obtain ⟨hop, harea⟩ := hmap.bounds
  refine decode_ok_iff.mpr ?_
  rw [hmap.encode_cmd, opField_ofNat hop harea, areaField_ofNat op harea]
  exact hmap

/-- Settles O2: the row of the opcode map that the command was decoded by gives back its word. -/
theorem encodeOfDecodeIsWord : Obligations.EncodeOfDecodeIsWord := by
  rintro ⟨w, a⟩ i h
  have hmap := decode_ok_iff.mp h
  refine ⟨decode_wellFormed h, hmap.encode_cmd.trans (word_eq_fields w).symm, ?_⟩
  exact hmap.encode_arg.imp_right fun ⟨harg, hany⟩ => ⟨harg, fun b => decode_ok_iff.mpr (hany b)⟩

/-! #### The illegal words -/

/-- A word that is not illegal has an assigned `OP` and an area within its format. -/
theorem fields_of_not_illegalWord {w : CmdWord} (h : ¬ IllegalWord w.toNat) :
    ((opField w = 0x1 ∨ opField w = 0x9) ∧ areaField w < 2) ∨
    ((opField w = 0x2 ∨ opField w = 0xA) ∧ 1 ≤ areaField w ∧ areaField w ≤ 64) ∨
    ((opField w = 0x3 ∨ opField w = 0x4 ∨ opField w = 0xB ∨ opField w = 0xC ∨ opField w = 0xD) ∧ areaField w = 0) ∨
    ((opField w = 0x5 ∨ opField w = 0x6 ∨ opField w = 0x7 ∨ opField w = 0xE) ∧ areaField w < 8) := by
  have hop := opField_lt w
  rw [IllegalWord, ← opField_eq, ← areaField] at h
  omega

theorem exists_own {n : Nat} (h : n < 2) : ∃ own : Bool, own.toNat = n :=
  ⟨n.testBit 0, by rw [Nat.toNat_testBit]; omega⟩

theorem toNat_ofNat_of_lt {k n : Nat} (h : n < 2 ^ k) : (BitVec.ofNat k n).toNat = n := by
  rw [BitVec.toNat_ofNat, Nat.mod_eq_of_lt h]

theorem exists_bitVec {k n : Nat} (h : n < 2 ^ k) : ∃ x : BitVec k, x.toNat = n :=
  ⟨BitVec.ofNat k n, toNat_ofNat_of_lt h⟩

theorem exists_codec {n : Nat} (h : n < 8) : ∃ c, codecNumber c = n := by
  obtain ⟨x, rfl⟩ := exists_bitVec (k := 3) h
  exact ⟨codecOf x, codecNumber_codecOf x⟩

theorem exists_opcodeMap_of_not_illegalWord {w : CmdWord} (h : ¬ IllegalWord w.toNat) (a : Word64) :
    ∃ i, OpcodeMap (opField w) (areaField w) a i := by
  rcases fields_of_not_illegalWord h with ⟨hop, harea⟩ | ⟨hop, hlo, hhi⟩ | ⟨hop, harea⟩ | ⟨hop, harea⟩
  · obtain ⟨own, hown⟩ := exists_own harea
    rw [← hown]
    rcases hop with hop | hop <;> rw [hop]
    · exact ⟨_, .wOpen own a⟩
    · exact ⟨_, .rOpen own a⟩
  · obtain ⟨nb, hnb⟩ := exists_bitVec (k := 7) (n := areaField w) (by omega)
    have hcount : legalCount nb := by rw [legalCount, hnb]; exact ⟨hlo, hhi⟩
    rw [← hnb]
    rcases hop with hop | hop <;> rw [hop]
    · exact ⟨_, .wBits nb a hcount⟩
    · exact ⟨_, .rBits nb a hcount⟩
  · rw [harea]
    rcases hop with hop | hop | hop | hop | hop <;> rw [hop]
    · exact ⟨_, .wAlign a⟩
    · exact ⟨_, .wClose a⟩
    · exact ⟨_, .rPeek a⟩
    · exact ⟨_, .rAlign a⟩
    · exact ⟨_, .rClose a⟩
  · obtain ⟨c, hc⟩ := exists_codec harea
    obtain ⟨lb, hlb⟩ := exists_bitVec (k := 3) harea
    rcases hop with hop | hop | hop | hop <;> rw [hop]
    · rw [← hc]; exact ⟨_, .wEnc c a⟩
    · rw [← hc]; exact ⟨_, .predict c a⟩
    · rw [← hlb]; exact ⟨_, .cfgTa lb a⟩
    · rw [← hc]; exact ⟨_, .rDec c a⟩

theorem not_illegalWord_of_decode {c : Command} {i : Instr} (h : decode c = .ok i) : ¬ IllegalWord c.cmd.toNat := by
  have hmap := decode_ok_iff.mp h
  rw [IllegalWord, ← opField_eq, ← areaField]
  generalize opField c.cmd = op, areaField c.cmd = area at hmap
  cases hmap with
  | wOpen own | rOpen own => have := own.toNat_lt; omega
  | wBits nb _ hnb | rBits nb _ hnb => obtain ⟨hlo, hhi⟩ := hnb; omega
  | wEnc c | predict c | rDec c => have := codecNumber_lt c; omega
  | cfgTa lb => have := lb.isLt; omega
  | wAlign | wClose | rPeek | rAlign | rClose => decide

/-- Settles O3: both readings of a word are the opcode map's, in the decoder and in `IllegalWord`. -/
theorem decodeRefusesExactlyIllegalWords : Obligations.DecodeRefusesExactlyIllegalWords := by
  intro w a
  have hlegal : ¬ IllegalWord w.toNat → ∃ i, decode ⟨w, a⟩ = .ok i ∧ i.wellFormed = true := by
    intro h
    obtain ⟨i, hmap⟩ := exists_opcodeMap_of_not_illegalWord h a
    have hd := decode_ok_iff (c := ⟨w, a⟩).mpr hmap
    exact ⟨i, hd, decode_wellFormed hd⟩
  refine ⟨⟨fun ⟨e, he⟩ => ?_, fun hw => ?_⟩, hlegal⟩
  · by_contra hw
    obtain ⟨i, hd, -⟩ := hlegal hw
    cases he.symm.trans hd
  · cases hd : decode ⟨w, a⟩ with
    | error e => exact ⟨e, rfl⟩
    | ok i => exact absurd hw (not_illegalWord_of_decode hd)

/-- Settles O7: by O3 the decoder refuses the word. -/
theorem stepRefusesIllegalWord : Obligations.StepRefusesIllegalWord := by
  rintro s ⟨w, a⟩ rest h hw
  obtain ⟨e, hd⟩ := (decodeRefusesExactlyIllegalWords w a).1.mpr hw
  rw [step_eq, h]
  simp only [hd]
  rfl

/-! #### The assembler -/

theorem asmCommand_of_lt (w : Nat) {v : Nat} (h : v < 2 ^ 64) :
    asmCommand w v = some ⟨BitVec.ofNat 16 w, BitVec.ofNat 64 v⟩ := if_pos h

theorem asmCommand_zero (w : Nat) : asmCommand w 0 = some ⟨BitVec.ofNat 16 w, 0⟩ := if_pos (by decide)

theorem asmCommand_of_not_lt (w : Nat) {v : Nat} (h : ¬ v < 2 ^ 64) : asmCommand w v = none := if_neg h

theorem toNat_beq_one {own : Nat} (h : own ≤ 1) : (own == 1).toNat = own := by
  interval_cases own <;> rfl

/-- A line with its numbers in range assembles to the encoding of its instruction (R83). -/
theorem assemble_of_legal {l : Asm} (h : AsmLegal l) : assemble l = some (encode (asmInstr l)) := by
  cases l with
  | wOpen own =>
    rw [assemble, if_pos (show own ≤ 1 from h), asmCommand_zero, asmInstr, encode_wOpen, toNat_beq_one h]
  | wBits n v =>
    obtain ⟨hlo, hhi, hv⟩ := h
    rw [assemble, if_pos ⟨hlo, hhi⟩, asmCommand_of_lt _ hv, asmInstr, encode_wBits, toNat_ofNat_of_lt (by omega)]
  | wEnc c v => rw [assemble, asmCommand_of_lt _ h, asmInstr, encode_encodeInstr]
  | pred c v => rw [assemble, asmCommand_of_lt _ h, asmInstr, encode_predictInstr]
  | cfgTa lb =>
    rw [assemble, if_pos (show lb ≤ 7 from h), asmCommand_zero, asmInstr, encode_cfgTa,
      toNat_ofNat_of_lt (Nat.lt_succ_of_le h)]
  | rOpen own =>
    rw [assemble, if_pos (show own ≤ 1 from h), asmCommand_zero, asmInstr, encode_rOpen, toNat_beq_one h]
  | rBits n =>
    obtain ⟨hlo, hhi⟩ := h
    rw [assemble, if_pos ⟨hlo, hhi⟩, asmCommand_zero, asmInstr, encode_rBits,
      toNat_ofNat_of_lt (by omega)]
  | rDec c => rw [assemble, asmCommand_zero, asmInstr, encode_decodeInstr]
  | wAlign | wClose | rPeek | rAlign | rClose => rfl

/-- A line with a number out of range is refused (R83, log entry 8). -/
theorem assemble_of_not_legal {l : Asm} (h : ¬ AsmLegal l) : assemble l = none := by
  cases l with
  | wOpen own | cfgTa lb | rOpen own | rBits n => exact if_neg h
  | wEnc c v | pred c v => exact asmCommand_of_not_lt _ h
  | wBits n v =>
    rw [assemble]
    split
    · next hn => exact asmCommand_of_not_lt _ fun hv => h ⟨hn.1, hn.2, hv⟩
    · rfl
  | wAlign | wClose | rPeek | rAlign | rClose | rDec c => exact absurd trivial h

theorem assemble_eq_none_iff (l : Asm) : assemble l = none ↔ ¬ AsmLegal l := by
  refine ⟨fun hnone h => ?_, assemble_of_not_legal⟩
  cases hnone.symm.trans (assemble_of_legal h)

theorem wellFormed_asmInstr {l : Asm} (h : AsmLegal l) : (asmInstr l).wellFormed = true := by
  cases l with
  | wBits n v =>
    obtain ⟨hlo, hhi, -⟩ := h
    refine decide_eq_true ?_
    rw [legalCount, toNat_ofNat_of_lt (by omega)]
    exact ⟨hlo, hhi⟩
  | rBits n =>
    refine decide_eq_true ?_
    rw [legalCount, toNat_ofNat_of_lt (h.2.trans_lt (by decide))]
    exact h
  | wEnc c v => exact wellFormed_encodeInstr c _
  | pred c v => exact wellFormed_predictInstr c _
  | rDec c => exact wellFormed_decodeInstr c
  | wOpen own | wAlign | wClose | cfgTa lb | rOpen own | rPeek | rAlign | rClose => rfl

/-- The assembler's language has a line for every well-formed instruction. -/
theorem exists_asm_of_wellFormed {i : Instr} (h : i.wellFormed = true) : ∃ l, AsmLegal l ∧ asmInstr l = i := by
  cases i using instr_byCodec with
  | wOpen own => exact ⟨.wOpen own.toNat, own.toNat_le, by cases own <;> rfl⟩
  | wBits nb v =>
    obtain ⟨hlo, hhi⟩ := of_decide_eq_true h
    exact ⟨.wBits nb.toNat v.toNat, ⟨hlo, hhi, v.isLt⟩, by simp [asmInstr]⟩
  | wAlign => exact ⟨.wAlign, trivial, rfl⟩
  | wClose => exact ⟨.wClose, trivial, rfl⟩
  | wEnc c v => exact ⟨.wEnc c v.toNat, v.isLt, by simp [asmInstr]⟩
  | predict c v => exact ⟨.pred c v.toNat, v.isLt, by simp [asmInstr]⟩
  | cfgTa lb => exact ⟨.cfgTa lb.toNat, Nat.le_of_lt_succ lb.isLt, by simp [asmInstr]⟩
  | rOpen own => exact ⟨.rOpen own.toNat, own.toNat_le, by cases own <;> rfl⟩
  | rBits nb =>
    have hnb : legalCount nb := of_decide_eq_true h
    exact ⟨.rBits nb.toNat, hnb, by simp [asmInstr]⟩
  | rPeek => exact ⟨.rPeek, trivial, rfl⟩
  | rAlign => exact ⟨.rAlign, trivial, rfl⟩
  | rClose => exact ⟨.rClose, trivial, rfl⟩
  | rDec c => exact ⟨.rDec c, trivial, rfl⟩

/-- Settles O5: the legal lines assemble to encodings, so O1 decodes them, and every instruction has such a line. -/
theorem assemblerAgreesWithEncoder : Obligations.AssemblerAgreesWithEncoder := by
  refine ⟨assemble_eq_none_iff, fun l c hc => ?_, fun i hi => ?_, fun v hv => ?_, rfl, rfl, rfl, fun n hlo hhi => ?_⟩
  · have hl : AsmLegal l := by
      by_contra hl
      cases hc.symm.trans (assemble_of_not_legal hl)
    have hi := wellFormed_asmInstr hl
    obtain rfl := Option.some.inj (hc.symm.trans (assemble_of_legal hl))
    exact ⟨hi, rfl, decodeOfEncodeIsInstruction _ hi⟩
  · obtain ⟨l, hl, rfl⟩ := exists_asm_of_wellFormed hi
    exact ⟨l, rfl, assemble_of_legal hl⟩
  · exact ⟨asmCommand_of_lt 0x2001 hv, asmCommand_of_lt 0x2008 hv⟩
  · rw [expandPseudo, assemble, if_pos ⟨hlo, hhi⟩, asmCommand_of_lt _ (by decide), BitVec.ofNat_add]
    rfl

/-- Settles O4: each word has the fields of its row of the opcode map. -/
theorem decodeSampleWords : Obligations.DecodeSampleWords := by
  refine ⟨?_, ?_, ?_, ?_, ?_, ?_, ?_, ?_⟩
  · exact decode_ok_iff.mpr (.wOpen true 0)
  · exact decode_ok_iff.mpr (.wBits 5#7 0x13#64 (by decide))
  · exact decode_ok_iff.mpr (.wAlign 0)
  · exact decode_ok_iff.mpr (.wEnc .gamma 4#64)
  · exact decode_ok_iff.mpr (.predict .fib 1000#64)
  · exact decode_ok_iff.mpr (.cfgTa 3#3 0)
  · exact decode_ok_iff.mpr (.rBits 16#7 0 (by decide))
  · exact decode_ok_iff.mpr (.rDec .ta 0)

end Sys2Proof.Machine

/-! ### The bit accumulator's own commands (`40_bit_accumulator.md`)

Each command has one equation per channel state. What a split of a bit string sends is then an induction over the
pieces, and the zero padding of R89 is determined by the bits it pads. -/

namespace Sys2Proof.Machine

/-! #### The commands' words -/

theorem decode_of_word {w : CmdWord} {op area : Nat} {a : Word64} {i : Instr} (h : OpcodeMap op area a i)
    (hw : w = BitVec.ofNat 16 (4096 * op + area)) : decode ⟨w, a⟩ = .ok i := by
  obtain ⟨hop, harea⟩ := h.bounds
  rw [hw, decode_ok_iff, opField_ofNat hop harea, areaField_ofNat op harea]
  exact h

/-- The word of an operation with a 7-bit count (R71). -/
theorem decode_countWord {w : CmdWord} {op : Nat} {nb : BitVec 7} {a : Word64} {i : Instr}
    (h : OpcodeMap op nb.toNat a i) (hw : w = BitVec.ofNat 16 (4096 * op)) :
    decode ⟨w + nb.setWidth 16, a⟩ = .ok i :=
  decode_of_word h (by rw [hw, BitVec.ofNat_add, BitVec.ofNat_toNat])

/-- The word of an operation with the ownership flag (R70). -/
theorem decode_ownWord {w : CmdWord} {op : Nat} {own : Bool} {a : Word64} {i : Instr}
    (h : OpcodeMap op own.toNat a i) (hw : w = BitVec.ofNat 16 (4096 * op)) :
    decode ⟨w + (if own then 1 else 0), a⟩ = .ok i :=
  decode_of_word h (by rw [hw, BitVec.ofNat_add]; cases own <;> rfl)

theorem not_legalCount {nb : BitVec 7} (h : nb.toNat = 0 ∨ 64 < nb.toNat) : ¬ legalCount nb := by
  rw [legalCount]; omega

/-! #### The writer's commands, by the writer's state -/

theorem exec_wOpen_closed (own : Bool) {s : State} (hs : s.wState = .closed) :
    exec (.wOpen own) s = .next (finish 0 false (setQw [] { s with wState := .opened, wOwn := own })) :=
  congrArg Host.Outcome.next (if_pos hs)

theorem exec_wOpen_opened (own : Bool) {s : State} (hs : s.wState = .opened) :
    exec (.wOpen own) s = .next (withResponse 6 0 false s) :=
  congrArg Host.Outcome.next ((if_neg (by rw [hs]; decide)).trans (raise_plain rfl s))

theorem exec_wBits_illegal {nb : BitVec 7} (hn : ¬ legalCount nb) (v : Word64) (s : State) :
    exec (.wBits nb v) s = .next (withResponse 5 0 false s) :=
  congrArg Host.Outcome.next ((if_neg hn).trans (raise_plain rfl s))

theorem exec_wBits_closed {nb : BitVec 7} (hn : legalCount nb) (v : Word64) {s : State} (hs : s.wState = .closed) :
    exec (.wBits nb v) s = .next (withResponse 6 0 false s) :=
  congrArg Host.Outcome.next ((if_pos hn).trans (withOpenWriter_closed hs _))

theorem exec_wBits_opened {nb : BitVec 7} (hn : legalCount nb) (v : Word64) {s : State} (hs : s.wState = .opened) :
    exec (.wBits nb v) s = .next (withResponse 0 0 false (emit (fieldBits nb v) s)) :=
  congrArg Host.Outcome.next ((if_pos hn).trans (withOpenWriter_open hs _))

theorem exec_wAlign_closed {s : State} (hs : s.wState = .closed) :
    exec .wAlign s = .next (withResponse 6 0 false s) :=
  congrArg Host.Outcome.next (withOpenWriter_closed hs _)

theorem exec_wAlign_opened {s : State} (hs : s.wState = .opened) :
    exec .wAlign s = .next (finish 0 false (padWriter s)) :=
  congrArg Host.Outcome.next (withOpenWriter_open hs _)

theorem exec_wClose_closed {s : State} (hs : s.wState = .closed) :
    exec .wClose s = .next (withResponse 0 0 false s) :=
  congrArg (Host.Outcome.next <| finish 0 false ·) (if_neg (by rw [hs]; decide))

theorem exec_wClose_opened {s : State} (hs : s.wState = .opened) :
    exec .wClose s =
      .next (finish 0 false { releaseSink (padWriter s) with wState := .closed, wOwn := false }) :=
  congrArg (Host.Outcome.next <| finish 0 false ·) (if_pos hs)

theorem releaseSink_eq (s : State) :
    releaseSink s = { s with sink := s.sink ++ if s.wOwn then [SinkEvent.close] else [] } := by
  unfold releaseSink
  split
  · rfl
  · rw [List.append_nil]

/-- An `Emit` that ends with OK changes the accumulator, `SINK` and the response only (R87, R88). -/
theorem writerFrame_emit (S : Bits) (s : State) : WriterFrame s (withResponse 0 0 false (emit S s)) := by
  rw [WriterFrame, withResponse]
  conv_lhs => rw [emit_frame]

/-! #### The reader's commands, by the reader's state -/

theorem exec_rOpen_closed (own : Bool) {s : State} (hs : s.rState = .closed) :
    exec (.rOpen own) s = .next (finish 0 false (setQr [] { s with rState := .opened, rOwn := own })) :=
  congrArg Host.Outcome.next (if_pos hs)

theorem exec_rOpen_notClosed (own : Bool) {s : State} (hs : s.rState ≠ .closed) :
    exec (.rOpen own) s = .next (withResponse 6 0 false s) :=
  congrArg Host.Outcome.next ((if_neg hs).trans (raise_plain rfl s))

theorem exec_rBits_illegal {nb : BitVec 7} (hn : ¬ legalCount nb) (s : State) :
    exec (.rBits nb) s = .next (withResponse 5 0 false s) :=
  congrArg Host.Outcome.next ((if_neg hn).trans (raise_plain rfl s))

theorem exec_rBits_notOpened {nb : BitVec 7} (hn : legalCount nb) {s : State} (hs : s.rState ≠ .opened) :
    exec (.rBits nb) s = .next (withResponse 6 0 false s) :=
  congrArg Host.Outcome.next ((if_pos hn).trans (withOpenReader_notOpen hs _))

theorem exec_rBits_opened {nb : BitVec 7} (hn : legalCount nb) {s : State} (hs : s.rState = .opened) :
    exec (.rBits nb) s = .next (endRead (fun S => BitVec.ofNat 64 (val S)) (readBits nb.toNat s)) :=
  congrArg Host.Outcome.next ((if_pos hn).trans (withOpenReader_open hs _))

theorem exec_rPeek_notOpened {s : State} (hs : s.rState ≠ .opened) :
    exec .rPeek s = .next (withResponse 6 0 false s) :=
  congrArg Host.Outcome.next (withOpenReader_notOpen hs _)

theorem exec_rPeek_opened {s : State} (hs : s.rState = .opened) :
    exec .rPeek s = .next (endRead (fun b => BitVec.ofNat 64 b.toNat) (peekBit s)) :=
  congrArg Host.Outcome.next (withOpenReader_open hs _)

theorem exec_rAlign_notOpened {s : State} (hs : s.rState ≠ .opened) :
    exec .rAlign s = .next (withResponse 6 0 false s) :=
  congrArg Host.Outcome.next (withOpenReader_notOpen hs _)

theorem exec_rAlign_opened {s : State} (hs : s.rState = .opened) :
    exec .rAlign s = .next (finish 0 false (setQr ((qr s).drop (s.rCnt.toNat % 8)) s)) :=
  congrArg Host.Outcome.next (withOpenReader_open hs _)

theorem exec_rClose_closed {s : State} (hs : s.rState = .closed) :
    exec .rClose s = .next (withResponse 0 0 false s) :=
  congrArg (Host.Outcome.next <| finish 0 false ·) (if_neg (not_not_intro hs))

theorem exec_rClose_notClosed {s : State} (hs : s.rState ≠ .closed) :
    exec .rClose s =
      .next (finish 0 false { releaseSource (setQr [] s) with rState := .closed, rOwn := false }) :=
  congrArg (Host.Outcome.next <| finish 0 false ·) (if_pos hs)

theorem releaseSource_eq (s : State) :
    releaseSource s = { s with srcLog := s.srcLog ++ if s.rOwn then [SrcEvent.release] else [] } := by
  unfold releaseSource
  split
  · rfl
  · rw [List.append_nil]

/-! #### Any split of a bit string -/

/-- The padding of R89 exists for every bit string. -/
theorem exists_paddedBytes (T : Bits) :
    ∃ (bytes : List Byte) (p : Nat), p < 8 ∧ bitsOfBytes bytes = T ++ zeros p := by
  have hp : 8 * ((T.length + 7) / 8) = (T ++ zeros ((8 - T.length % 8) % 8)).length := by
    rw [List.length_append, zeros_length]; omega
  exact ⟨flushBytes ((T.length + 7) / 8) _, _, Nat.mod_lt _ (by decide),
    (bitsOfBytes_flushBytes hp.le).trans (List.take_of_length_le hp.ge)⟩

/-- There is only one padding by fewer than 8 zeros to whole bytes. -/
theorem paddedBytes_unique {T : Bits} {as bs : List Byte} {p q : Nat} (hp : p < 8) (hq : q < 8)
    (ha : bitsOfBytes as = T ++ zeros p) (hb : bitsOfBytes bs = T ++ zeros q) : as = bs := by
  have hla := congrArg List.length ha
  have hlb := congrArg List.length hb
  simp only [bitsOfBytes_length, List.length_append, zeros_length] at hla hlb
  obtain rfl : p = q := by omega
  exact bitsOfBytes_injective (ha.trans hb.symm)

theorem Appended.refl {s : State} (h : WriterOk s) : Appended s s [] :=
  ⟨⟨[], by simp, by simp⟩, h.wCnt_le, h.wAcc_low⟩

theorem Appended.trans {s t u : State} {S T : Bits} (h1 : Appended s t S) (h2 : Appended t u T) :
    Appended s u (S ++ T) := by
  obtain ⟨⟨as, hsink1, hbits1⟩, -⟩ := h1
  obtain ⟨⟨bs, hsink2, hbits2⟩, hreg⟩ := h2
  refine ⟨⟨as ++ bs, ?_, ?_⟩, hreg⟩
  · rw [hsink2, hsink1, List.map_append, List.append_assoc]
  · rw [← List.append_assoc, hbits1, List.append_assoc, hbits2, bitsOfBytes_append, List.append_assoc]

/-- An open writer that has just taken bits is as the invariant says (R30, R31). -/
theorem Appended.writerOk {s t : State} {S : Bits} (h : Appended s t S) (ht : t.wState = .opened) : WriterOk t := by
  obtain ⟨-, hcnt, hlow⟩ := h
  exact ⟨hcnt, hlow, fun hclosed => absurd (ht.symm.trans hclosed) (by decide)⟩

/-- After the padding the writer has sent the bits it took, padded to whole bytes (R89, R98). -/
theorem Appended.sink_padWriter {s t : State} {S : Bits} (h : Appended s t S) :
    ∃ (bytes : List Byte) (p : Nat), p < 8 ∧ bitsOfBytes bytes = qw s ++ S ++ zeros p ∧
      (padWriter t).sink = s.sink ++ bytes.map SinkEvent.byte := by
  obtain ⟨⟨as, hsink, hbits⟩, hcnt, hlow⟩ := h
  obtain ⟨bs, -, hpad, heq⟩ := padWriter_spec hcnt hlow
  refine ⟨as ++ bs, _, Nat.mod_lt (8 - t.wCnt.toNat) (by decide), ?_, ?_⟩
  · rw [bitsOfBytes_append, hpad, hbits, List.append_assoc]
  · rw [heq, hsink, List.map_append, List.append_assoc]

/-- The operand of the `W_BITS` that writes `P` stands for `P` (R88, R98). -/
theorem fieldBits_length_val {P : Bits} (h : P.length ≤ 64) :
    fieldBits (BitVec.ofNat 7 P.length) (BitVec.ofNat 64 (val P)) = P := by
  have hval : val P < 2 ^ 64 := (val_lt P).trans_le (Nat.pow_le_pow_right (by decide) h)
  rw [fieldBits, bin_mod, toNat_ofNat_of_lt (by omega), toNat_ofNat_of_lt hval, bin_val]

theorem exec_writeBitsInstr {P : Bits} (hP : 1 ≤ P.length ∧ P.length ≤ 64) {s : State} (hs : s.wState = .opened) :
    exec (writeBitsInstr P) s = .next (withResponse 0 0 false (emit P s)) := by
  have hn : legalCount (BitVec.ofNat 7 P.length) := by
    rw [legalCount, toNat_ofNat_of_lt (by omega)]; exact hP
  rw [writeBitsInstr, exec_wBits_opened hn _ hs, fieldBits_length_val hP.2]

theorem runAll_cons {i : Instr} {s t : State} (h : exec i s = .next t) (l : List Instr) :
    runAll (i :: l) s = runAll l t := by
  rw [runAll, h]

theorem runAll_append {l : List Instr} {s t : State} (h : runAll l s = some t) (l' : List Instr) :
    runAll (l ++ l') s = runAll l' t := by
  induction l generalizing s with
  | nil => rw [Option.some.inj h]; rfl
  | cons i l ih =>
    obtain ⟨u, hu, -⟩ := exec_answers i s
    rw [runAll_cons hu] at h
    rw [List.cons_append, runAll_cons hu, ih h]

/-- The `W_BITS` commands of any pieces append the pieces, one after the other (R87, R98). -/
theorem runAll_writeBits {pieces : List Bits} (hp : ∀ P ∈ pieces, 1 ≤ P.length ∧ P.length ≤ 64) {s : State}
    (hw : WriterOk s) (hs : s.wState = .opened) :
    ∃ t, runAll (pieces.map writeBitsInstr) s = some t ∧ t.wState = .opened ∧ Appended s t pieces.flatten := by
  induction pieces generalizing s with
  | nil => exact ⟨s, rfl, hs, .refl hw⟩
  | cons P pieces ih =>
    obtain ⟨hP, hrest⟩ := List.forall_mem_cons.mp hp
    have hexec := exec_writeBitsInstr hP hs
    have happ : Appended s (withResponse 0 0 false (emit P s)) P := emit_appended P s
    have hopen : (withResponse 0 0 false (emit P s)).wState = .opened := by
      rw [withResponse_wState, emit_frame]; exact hs
    obtain ⟨t, ht, htopen, htapp⟩ := ih hrest (happ.writerOk hopen) hopen
    exact ⟨t, (runAll_cons hexec _).trans ht, htopen, happ.trans htapp⟩

/-- Settles O25: every split appends the same bits, and only one padding makes them whole bytes. -/
theorem splitInvariance : Obligations.SplitInvariance := by
  intro s S hinv hs
  obtain ⟨bytes, p, hp, hbytes⟩ := exists_paddedBytes (qw s ++ S)
  refine ⟨bytes, p, hp, hbytes, ?_⟩
  rintro pieces rfl hpieces
  have hw : WriterOk s := ⟨hinv.wCnt_le, hinv.wAcc_low, hinv.wClosed_empty⟩
  obtain ⟨t, ht, htopen, happ⟩ := runAll_writeBits hpieces hw hs
  obtain ⟨bytes', q, hq, hbytes', hsink⟩ := happ.sink_padWriter
  refine ⟨finish 0 false (padWriter t), ?_, ?_⟩
  · rw [runAll_append ht, runAll_cons (exec_wAlign_opened htopen), runAll]
  · rw [finish_sink, hsink, paddedBytes_unique hq hp hbytes' hbytes]

/-! #### The writer's commands -/

/-- Settles O22, from what `Emit` appends and sends. -/
theorem wBitsAppendsField : Obligations.WBitsAppendsField := by
  intro nb v s
  refine ⟨fun hn => ⟨decode_countWord (.wBits nb v hn) rfl, exec_wBits_closed hn v, fun hs => ?_⟩,
    fun hn => exec_wBits_illegal (not_legalCount hn) v s⟩
  refine ⟨_, exec_wBits_opened hn v hs, emit_appended _ s, ?_, writerFrame_emit _ s⟩
  rw [withResponse_sink, emit_sink_length, fieldBits, bin_length]

/-- Settles O23, from what the padding sends. -/
theorem wAlignPadsPartialByte : Obligations.WAlignPadsPartialByte := by
  intro arg s hinv
  refine ⟨decode_of_word (.wAlign arg) rfl, exec_wAlign_closed, fun hs => ?_⟩
  obtain ⟨bytes, hlen, hbits, hpad⟩ := padWriter_spec hinv.wCnt_le hinv.wAcc_low
  refine ⟨bytes, hlen, hbits, ?_⟩
  rw [exec_wAlign_opened hs, hpad]
  rfl

/-- Settles O24: the padding, then the release of the sink. -/
theorem wCloseFlushesAndReleases : Obligations.WCloseFlushesAndReleases := by
  intro arg s hinv
  refine ⟨decode_of_word (.wClose arg) rfl, exec_wClose_closed, fun hs => ?_⟩
  obtain ⟨bytes, hlen, hbits, hpad⟩ := padWriter_spec hinv.wCnt_le hinv.wAcc_low
  refine ⟨bytes, hlen, hbits, ?_⟩
  rw [exec_wClose_opened hs, hpad, releaseSink_eq]
  rfl

/-- Settles O21. -/
theorem wOpenCreatesEmptyWriter : Obligations.WOpenCreatesEmptyWriter := by
  intro own arg s
  refine ⟨decode_ownWord (.wOpen own arg) rfl, fun hs => ?_, exec_wOpen_opened own⟩
  rw [exec_wOpen_closed own hs, setQw_nil]
  rfl

/-! #### The reader's commands -/

/-- `R_BITS` where enough bits are ahead (R94). -/
theorem endRead_readBits_got {n : Nat} {s : State} (h : n ≤ (ahead s).length) (toRes : Bits → Word64) :
    Consumed s (endRead toRes (readBits n s)) n ∧
      ReaderFrame (toRes ((ahead s).take n)) s (endRead toRes (readBits n s)) := by
  obtain ⟨t, ht, hreads⟩ := readBits_got h
  rw [ht]
  exact finish_after_reads hreads _

/-- `R_BITS` where they are not: the whole source is pulled (R51, R94, R109). -/
theorem endRead_readBits_raised {n : Nat} {s : State} (h : (ahead s).length < n) (hle : s.srcPos ≤ s.src.length)
    (toRes : Bits → Word64) :
    endRead toRes (readBits n s) = faultedAfter 2 (s.src.length - s.srcPos) s := by
  obtain ⟨t, ht, hreads⟩ := readBits_raised h
  have hend : ahead t = [] := truncatesAtEnd_readBits n s t ht
  rw [ht, ← hreads.srcPos_of_end hend hle]
  exact raise_after_reads (e := .streamTruncated) rfl hreads

/-- Settles O27: enough bits ahead, or too few. -/
theorem rBitsReadsOrTruncates : Obligations.RBitsReadsOrTruncates := by
  intro nb arg s
  refine ⟨fun hn => ⟨decode_countWord (.rBits nb arg hn) rfl, exec_rBits_notOpened hn, ?_, ?_⟩,
    fun hn => exec_rBits_illegal (not_legalCount hn) s⟩
  · intro hs henough
    exact ⟨_, exec_rBits_opened hn hs, endRead_readBits_got henough _⟩
  · intro hs hshort hle
    rw [exec_rBits_opened hn hs, endRead_readBits_raised hshort hle]

theorem ofNat_toNat_bool (b : Bool) : BitVec.ofNat 64 b.toNat = if b then 1 else 0 := by
  cases b <;> rfl

/-- The first buffered bit is the top bit of the register (R35, R37). -/
theorem headD_qr {s : State} (h : s.rCnt ≠ 0) : (qr s).headD false = s.rAcc.getLsbD 63 := by
  obtain ⟨k, hk⟩ := Nat.exists_eq_succ_of_ne_zero fun h0 : s.rCnt.toNat = 0 => h (BitVec.eq_of_toNat_eq h0)
  rw [qr, queueBits, hk]
  rfl

/-- The first bit of a byte is its bit 7 (R54). -/
theorem headD_bitsOfByte (b : Byte) : (bitsOfByte b).headD false = b.getLsbD 7 := rfl

/-- The register that holds just a byte, left-justified (R32, R37). -/
theorem packBits_bitsOfByte (b : Byte) : packBits (bitsOfByte b) = b.setWidth 64 <<< 56 := by
  have hb := b.isLt
  apply BitVec.eq_of_toNat_eq
  rw [packBits_toNat (by rw [bitsOfByte_length]; decide), bitsOfByte_length, bitsOfByte, val_bin_of_lt hb,
    BitVec.toNat_shiftLeft, BitVec.toNat_setWidth, Nat.shiftLeft_eq]
  omega

theorem peekBit_buffered {s : State} (h : s.rCnt ≠ 0) : peekBit s = .got (s.rAcc.getLsbD 63) s := by
  rw [peekBit, fillReader_buffered h, ReadResult.bind, headD_qr h]

theorem peekBit_pull {s : State} (h : s.rCnt = 0) {b : Byte} (hb : s.src[s.srcPos]? = some b) :
    peekBit s = .got (b.getLsbD 7) { s with
      rAcc := b.setWidth 64 <<< 56, rCnt := 8, srcPos := s.srcPos + 1, srcLog := s.srcLog ++ [.pull b] } := by
  rw [peekBit, fillReader_pull h hb, ReadResult.bind, qr_setQr (by simp), headD_bitsOfByte, setQr,
    packBits_bitsOfByte, bitsOfByte_length]
  rfl

theorem ahead_eq_nil {s : State} (h : s.rCnt = 0) (hend : s.srcPos = s.src.length) : ahead s = [] := by
  rw [ahead, qr_eq_nil.mpr h, hend, List.drop_length]
  rfl

/-- Settles O28, by where the next bit is. -/
theorem rPeekLooksWithoutConsuming : Obligations.RPeekLooksWithoutConsuming := by
  intro arg s
  refine ⟨decode_of_word (.rPeek arg) rfl, exec_rPeek_notOpened, ?_, ?_, ?_⟩
  · intro hs hbuffered
    rw [exec_rPeek_opened hs, peekBit_buffered hbuffered, endRead, ofNat_toNat_bool]
    rfl
  · intro b hs hempty hb
    rw [exec_rPeek_opened hs, peekBit_pull hempty hb, endRead, ofNat_toNat_bool]
    rfl
  · intro hs hempty hend
    rw [exec_rPeek_opened hs, peekBit_end (ahead_eq_nil hempty hend), endRead, raise_stream rfl]
    rfl

/-- Settles O29: `RCNT mod 8` bits are none, or all of them. -/
theorem rAlignDiscardsPartialByte : Obligations.RAlignDiscardsPartialByte := by
  intro arg s hinv
  refine ⟨decode_of_word (.rAlign arg) rfl, exec_rAlign_notOpened, ?_, ?_⟩
  · intro hs hcnt
    have hmod : s.rCnt.toNat % 8 = 0 := by
      obtain h | h := hcnt
      · rw [h]; rfl
      · rw [h]; rfl
    rw [exec_rAlign_opened hs, hmod, List.drop_zero, setQr_qr hinv.rAcc_low]
    rfl
  · intro hs hlo hhi
    have hmod : s.rCnt.toNat % 8 = (qr s).length := by rw [qr_length]; omega
    rw [exec_rAlign_opened hs, hmod, List.drop_length, setQr_nil]
    rfl

theorem rState_ne_closed_iff {s : State} : s.rState ≠ .closed ↔ s.rState = .opened ∨ s.rState = .faulted := by
  cases s.rState <;> decide

/-- Settles O26. -/
theorem rOpenCreatesEmptyReader : Obligations.ROpenCreatesEmptyReader := by
  intro own arg s
  refine ⟨decode_ownWord (.rOpen own arg) rfl, fun hs => ?_,
    fun hs => exec_rOpen_notClosed own (rState_ne_closed_iff.mpr hs)⟩
  rw [exec_rOpen_closed own hs, setQr_nil]
  rfl

/-- Settles O30. -/
theorem rCloseReleasesAndRecovers : Obligations.RCloseReleasesAndRecovers := by
  intro arg s
  refine ⟨decode_of_word (.rClose arg) rfl, exec_rClose_closed, fun hs => ?_⟩
  rw [exec_rClose_notClosed (rState_ne_closed_iff.mpr hs), setQr_nil, releaseSource_eq]
  rfl

end Sys2Proof.Machine

/-! ### The decoders as parsers of the bits ahead (`41_codec_common.md` R105, R110, R112)

A reader procedure depends on the bits ahead only. `ReadsThen` says which bits take it from one point of a decoder to
another, so that a code word is followed through the loops piece by piece; `Covers` says that whatever is ahead, the
procedure meets a word, a detection point or the end of the stream. A decoder of which both are known is a parser of
its code words (`Parses`), and every statement about `R_DEC` follows from that alone. -/

namespace Sys2Proof.Machine

section Parsers

variable {α β : Type}

/-- Where the bits ahead begin with `S`, `dec` reads just these and then does what `dec'` does from there. -/
def ReadsThen (dec : State → ReadResult α) (S : Bits) (dec' : State → ReadResult α) : Prop :=
  ∀ s rest, ahead s = S ++ rest → ∃ t, dec s = dec' t ∧ Reads s t S.length

/-- What is ahead after a part of the bits ahead was read. -/
theorem Reads.ahead_eq {s t : State} {S rest : Bits} (h : Reads s t S.length) (ha : ahead s = S ++ rest) :
    ahead t = rest := by
  obtain ⟨-, ⟨hahead, -⟩, -⟩ := h
  rw [hahead, ha, List.drop_left]

theorem ReadsThen.refl (dec : State → ReadResult α) : ReadsThen dec [] dec :=
  fun s _ _ => ⟨s, rfl, .refl s⟩

theorem ReadsThen.trans {dec dec' dec'' : State → ReadResult α} {S T : Bits}
    (h : ReadsThen dec S dec') (h' : ReadsThen dec' T dec'') : ReadsThen dec (S ++ T) dec'' := by
  intro s rest ha
  rw [List.append_assoc] at ha
  obtain ⟨t, ht, hr⟩ := h s _ ha
  obtain ⟨u, hu, hr'⟩ := h' t rest (hr.ahead_eq ha)
  exact ⟨u, ht.trans hu, by rw [List.length_append]; exact hr.trans hr'⟩

/-- A procedure that returns `a` after `S` goes on with what is done with `a`. -/
theorem ReadsThen.bind {g : State → ReadResult α} {f : α → State → ReadResult β} {a : α} {S : Bits}
    (h : ReadsThen g S (.got a)) : ReadsThen (fun s => (g s).bind f) S (f a) := by
  intro s rest ha
  obtain ⟨t, ht, hr⟩ := h s rest ha
  exact ⟨t, congrArg (·.bind f) ht, hr⟩

/-- An error ends everything (R152). -/
theorem ReadsThen.bind_raised {g : State → ReadResult α} {f : α → State → ReadResult β} {e : ErrorKind}
    {S : Bits} (h : ReadsThen g S (.raised e)) : ReadsThen (fun s => (g s).bind f) S (.raised e) := by
  intro s rest ha
  obtain ⟨t, ht, hr⟩ := h s rest ha
  exact ⟨t, congrArg (·.bind f) ht, hr⟩

theorem readsThen_nextBit (b : Bool) : ReadsThen nextBit [b] (.got b) := by
  intro s rest ha
  obtain ⟨t, ht, -, hr⟩ := nextBit_got ha
  exact ⟨t, ht, hr⟩

theorem readsThen_readNat {n : Nat} (x : Nat) {S : Bits} (hS : S.length = n) :
    ReadsThen (readNat n x) S (.got (x * 2 ^ n + val S)) := by
  subst hS
  intro s rest ha
  obtain ⟨t, ht, -, hr⟩ := readNat_ahead x ha
  exact ⟨t, ht, hr⟩

/-- Whatever is ahead in `s`: it begins with a word of `W`, or with a detection point of `O`, or `dec` finds the end of the
stream. -/
def CoversAt (dec : State → ReadResult α) (W : α → Bits → Prop) (O : Bits → Prop) (s : State) : Prop :=
  (∃ a S, W a S ∧ S <+: ahead s) ∨ (∃ P, O P ∧ P <+: ahead s) ∨ ∃ t, dec s = .raised .streamTruncated t

/-- The same of every state. -/
def Covers (dec : State → ReadResult α) (W : α → Bits → Prop) (O : Bits → Prop) : Prop :=
  ∀ s, CoversAt dec W O s

theorem covers_got {a : α} {W : α → Bits → Prop} {O : Bits → Prop} (h : W a []) : Covers (.got a) W O :=
  fun _ => .inl ⟨a, [], h, List.nil_prefix⟩

theorem covers_overflow {W : α → Bits → Prop} {O : Bits → Prop} (h : O []) :
    Covers (.raised .symbolOverflow) W O :=
  fun _ => .inr (.inl ⟨[], h, List.nil_prefix⟩)

theorem Covers.mono {dec : State → ReadResult α} {W W' : α → Bits → Prop} {O O' : Bits → Prop}
    (h : Covers dec W O) (hW : ∀ a S, W a S → W' a S) (hO : ∀ P, O P → O' P) : Covers dec W' O' := by
  intro s
  obtain ⟨a, S, hS, hpre⟩ | ⟨P, hP, hpre⟩ | htrunc := h s
  · exact .inl ⟨a, S, hW a S hS, hpre⟩
  · exact .inr (.inl ⟨P, hO P hP, hpre⟩)
  · exact .inr (.inr htrunc)

/-- Where `dec` reads `S` and goes on as `dec'`, the words and detection points of `dec'` stand behind `S`. -/
theorem Covers.after {dec dec' : State → ReadResult α} {W : α → Bits → Prop} {O : Bits → Prop} {S : Bits}
    (h : Covers dec' (fun a T => W a (S ++ T)) fun P => O (S ++ P)) (hr : ReadsThen dec S dec') {s : State}
    (ha : S <+: ahead s) : CoversAt dec W O s := by
  obtain ⟨rest, hrest⟩ := ha
  obtain ⟨t, ht, hreads⟩ := hr s rest hrest.symm
  have hahead : ahead s = S ++ ahead t := by rw [hreads.ahead_eq hrest.symm, hrest]
  obtain ⟨a, T, hT, hpre⟩ | ⟨P, hP, hpre⟩ | ⟨u, hu⟩ := h t
  · exact .inl ⟨a, S ++ T, hT, by rw [hahead]; exact (List.prefix_append_right_inj S).mpr hpre⟩
  · exact .inr (.inl ⟨S ++ P, hP, by rw [hahead]; exact (List.prefix_append_right_inj S).mpr hpre⟩)
  · exact .inr (.inr ⟨u, ht.trans hu⟩)

/-- One procedure after another: a word of the first, then what the second finds; or a detection point of the first. -/
theorem Covers.bind {g : State → ReadResult α} {f : α → State → ReadResult β} {V : α → Bits → Prop}
    {Q : Bits → Prop} {W : β → Bits → Prop} {O : Bits → Prop} (hg : Covers g V Q)
    (hV : ∀ a S, V a S → ReadsThen g S (.got a))
    (hf : ∀ a S, V a S → Covers (f a) (fun b T => W b (S ++ T)) fun P => O (S ++ P)) (hQ : ∀ P, Q P → O P) :
    Covers (fun s => (g s).bind f) W O := by
  intro s
  obtain ⟨a, S, hS, hpre⟩ | ⟨P, hP, hpre⟩ | ⟨t, ht⟩ := hg s
  · exact (hf a S hS).after (hV a S hS).bind hpre
  · exact .inr (.inl ⟨P, hQ P hP, hpre⟩)
  · exact .inr (.inr ⟨t, congrArg (·.bind f) ht⟩)

theorem covers_nextBit_bind {f : Bool → State → ReadResult α} {W : α → Bits → Prop} {O : Bits → Prop}
    (h : ∀ b, Covers (f b) (fun a T => W a ([b] ++ T)) fun P => O ([b] ++ P)) :
    Covers (fun s => (nextBit s).bind f) W O := by
  refine Covers.bind (V := fun b S => S = [b]) (Q := fun _ => False) (fun s => ?_) ?_ ?_ fun _ hP => hP.elim
  · cases ha : ahead s with
    | nil => exact .inr (.inr ⟨s, nextBit_end ha⟩)
    | cons b rest => exact .inl ⟨b, [b], rfl, rest, ha.symm⟩
  · rintro b _ rfl
    exact readsThen_nextBit b
  · rintro b _ rfl
    exact h b

/-- `n` bits are ahead, or the stream ends before. -/
theorem covers_readBits (n : Nat) : Covers (readBits n) (fun U S => S = U ∧ U.length = n) fun _ => False := by
  intro s
  by_cases hn : n ≤ (ahead s).length
  · exact .inl ⟨_, _, ⟨rfl, List.length_take_of_le hn⟩, List.take_prefix n _⟩
  · obtain ⟨t, ht, -⟩ := readBits_raised (Nat.lt_of_not_le hn)
    exact .inr (.inr ⟨t, ht⟩)

theorem readsThen_readBits {n : Nat} {S : Bits} (hS : S.length = n) : ReadsThen (readBits n) S (.got S) := by
  subst hS
  intro s rest ha
  obtain ⟨t, ht, -, hr⟩ := readBits_ahead ha
  exact ⟨t, ht, hr⟩

theorem covers_readBits_bind {n : Nat} {f : Bits → State → ReadResult α} {W : α → Bits → Prop}
    {O : Bits → Prop} (h : ∀ S, S.length = n → Covers (f S) (fun a T => W a (S ++ T)) fun P => O (S ++ P)) :
    Covers (fun s => (readBits n s).bind f) W O := by
  refine (covers_readBits n).bind ?_ ?_ fun _ hP => hP.elim
  · rintro S _ ⟨rfl, hS⟩
    exact readsThen_readBits hS
  · rintro S _ ⟨rfl, hS⟩
    exact h _ hS

theorem covers_readNat (n x : Nat) :
    Covers (readNat n x) (fun y S => S.length = n ∧ y = x * 2 ^ n + val S) fun _ => False := by
  intro s
  obtain ⟨U, _, ⟨rfl, hU⟩, hpre⟩ | ⟨_, hP, -⟩ | ⟨t, ht⟩ := covers_readBits n s
  · exact .inl ⟨_, _, ⟨hU, rfl⟩, hpre⟩
  · exact hP.elim
  · exact .inr (.inr ⟨t, by rw [readNat_eq, ht]; rfl⟩)

theorem covers_readNat_bind {n x : Nat} {f : Nat → State → ReadResult α} {W : α → Bits → Prop}
    {O : Bits → Prop}
    (h : ∀ S, S.length = n → Covers (f (x * 2 ^ n + val S)) (fun a T => W a (S ++ T)) fun P => O (S ++ P)) :
    Covers (fun s => (readNat n x s).bind f) W O := by
  refine (covers_readNat n x).bind ?_ ?_ fun _ hP => hP.elim
  · rintro _ S ⟨hS, rfl⟩
    exact readsThen_readNat x hS
  · rintro _ S ⟨hS, rfl⟩
    exact h S hS

/-- `dec` is a parser of the words `W` with the detection points `O`: it returns the value of the word that is ahead, it
raises SymbolOverflow at the detection point that is ahead, and there is no third but the end of the stream. -/
structure Parses (dec : State → ReadResult α) (W : α → Bits → Prop) (O : Bits → Prop) : Prop where
  returns : ∀ {a S}, W a S → ReadsThen dec S (.got a)
  overflows : ∀ {P}, O P → ReadsThen dec P (.raised .symbolOverflow)
  covers : Covers dec W O

/-- Some state has given bits ahead, up to a padding. -/
theorem exists_ahead (S : Bits) : ∃ s, S <+: ahead s := by
  obtain ⟨bytes, p, -, hbytes⟩ := exists_paddedBytes S
  refine ⟨State.launch bytes, zeros p, ?_⟩
  rw [← hbytes, ahead, qr_eq_nil.mpr rfl]
  rfl

/-- A word and a detection point are never both ahead. -/
theorem Parses.not_both {dec : State → ReadResult α} {W : α → Bits → Prop} {O : Bits → Prop}
    (h : Parses dec W O) {a : α} {S P : Bits} (hS : W a S) (hP : O P) {s : State} (haS : S <+: ahead s) :
    ¬ P <+: ahead s := by
  rintro ⟨rest, hrest⟩
  obtain ⟨rest', hrest'⟩ := haS
  obtain ⟨t, ht, -⟩ := h.returns hS s rest' hrest'.symm
  obtain ⟨u, hu, -⟩ := h.overflows hP s rest hrest.symm
  cases ht.symm.trans hu

/-- So bits that reach a detection point begin no word, and are not the beginning of one. -/
theorem Parses.no_word {dec : State → ReadResult α} {W : α → Bits → Prop} {O : Bits → Prop}
    (h : Parses dec W O) {a : α} {S P B : Bits} (hS : W a S) (hP : O P) (hPB : P <+: B) : ¬ S <+: B ∧ ¬ B <+: S := by
  constructor
  · intro hSB
    obtain ⟨s, hs⟩ := exists_ahead B
    exact h.not_both hS hP (hSB.trans hs) (hPB.trans hs)
  · intro hBS
    obtain ⟨s, hs⟩ := exists_ahead S
    exact h.not_both hS hP hs ((hPB.trans hBS).trans hs)

end Parsers

end Sys2Proof.Machine

/-! ### Elias Gamma and Elias Delta as parsers (`43_elias_gamma.md` R127, `44_elias_delta.md` R131) -/

namespace Sys2Proof.Machine

/-- Binary digits with a leading 1, and the number they stand for (R125, R133). -/
theorem bin_leading_one {S : Bits} {n : Nat} (h : S.length = n) : bin (n + 1) (1 * 2 ^ n + val S) = true :: S := by
  subst h
  have := bin_val (true :: S)
  rwa [List.length_cons, val_cons] at this

theorem leading_one_bounds {S : Bits} {n : Nat} (h : S.length = n) :
    2 ^ n ≤ 1 * 2 ^ n + val S ∧ 1 * 2 ^ n + val S < 2 ^ (n + 1) := by
  have := val_lt S
  rw [h] at this
  omega

/-- A number with `n + 1` digits in binary: a 1, then the digits of the rest. -/
theorem bin_succ_of_bounds {x n : Nat} (h1 : 2 ^ n ≤ x) (h2 : x < 2 ^ (n + 1)) :
    bin (n + 1) x = true :: bin n (x - 2 ^ n) ∧ 1 * 2 ^ n + val (bin n (x - 2 ^ n)) = x := by
  have hval : 1 * 2 ^ n + val (bin n (x - 2 ^ n)) = x := by rw [val_bin_of_lt (by omega)]; omega
  have := bin_leading_one (bin_length n (x - 2 ^ n))
  rw [hval] at this
  exact ⟨this, hval⟩

/-- Setting the leading 1 of a number is adding it (R131, R145). -/
theorem two_pow_or {n r : Nat} (h : r < 2 ^ n) : 2 ^ n ||| r = 2 ^ n + r := by
  have := Nat.two_pow_add_eq_or_of_lt h 1
  rw [Nat.mul_one] at this
  exact this.symm

theorem le_maxOffset_iff {v : Nat} : v ≤ maxOffset ↔ v + 1 < 2 ^ 64 := by
  rw [maxOffset]
  omega

theorem covers_gammaZeros (room z : Nat) :
    Covers (gammaZeros room z) (fun k S => ∃ j < room, k = z + j ∧ S = zeros j ++ [true]) (· = zeros room) := by
  induction room generalizing z with
  | zero => exact covers_overflow rfl
  | succ room ih =>
    refine covers_nextBit_bind fun b => ?_
    cases b with
    | true => exact covers_got ⟨0, Nat.succ_pos room, rfl, rfl⟩
    | false =>
      refine (ih (z + 1)).mono ?_ ?_
      · rintro _ _ ⟨j, hj, rfl, rfl⟩
        exact ⟨j + 1, by omega, by omega, rfl⟩
      · rintro _ rfl
        rfl

theorem readsThen_gammaZeros {j : Nat} (hj : j < 64) :
    ReadsThen (gammaZeros 64 0) (zeros j ++ [true]) (.got (0 + j)) := by
  intro s rest ha
  rw [List.append_assoc] at ha
  obtain ⟨t, ht, -, hr⟩ := gammaZeros_got (z := 0) hj ha
  exact ⟨t, ht, by simpa using hr⟩

/-- `GammaRead` parses the un-offset gamma code words of the values below `2^64` (R127). -/
theorem parses_gammaRead :
    Parses gammaRead (fun x S => x < 2 ^ 64 ∧ GammaWord x S) GammaOverflowPoint where
  returns := by
    rintro x S ⟨hx, hS⟩ s rest ha
    obtain ⟨t, ht, -, hr⟩ := gammaRead_got hx hS ha
    exact ⟨t, ht, hr⟩
  overflows := by
    rintro _ rfl s rest ha
    exact gammaRead_overflow ha
  covers := by
    refine (covers_gammaZeros 64 0).bind ?_ ?_ fun _ hP => hP
    · rintro _ _ ⟨j, hj, rfl, rfl⟩
      exact readsThen_gammaZeros hj
    · rintro _ _ ⟨j, hj, rfl, rfl⟩
      rw [Nat.zero_add]
      refine (covers_readNat j 1).mono ?_ fun _ hP => hP.elim
      rintro _ U ⟨hU, rfl⟩
      obtain ⟨h1, h2⟩ := leading_one_bounds hU
      refine ⟨h2.trans_le (Nat.pow_le_pow_right (by decide) hj), j, h1, h2, ?_⟩
      rw [bin_leading_one hU, List.append_assoc]
      rfl

theorem GammaWord.pos {x : Nat} {S : Bits} (h : GammaWord x S) : 1 ≤ x := by
  obtain ⟨L, h1, -⟩ := h
  exact (Nat.one_le_two_pow).trans h1

theorem parses_decGamma : Parses decGamma (fun v S => v ≤ maxOffset ∧ GammaWord (v + 1) S) GammaOverflowPoint where
  returns := by
    rintro v S ⟨hv, hS⟩
    exact (parses_gammaRead.returns ⟨le_maxOffset_iff.mp hv, hS⟩).bind
  overflows := fun hP => (parses_gammaRead.overflows hP).bind_raised
  covers := by
    refine parses_gammaRead.covers.bind (fun _ _ => parses_gammaRead.returns) ?_ fun _ hP => hP
    rintro x S ⟨hx, hS⟩
    have hpos := hS.pos
    refine covers_got ⟨le_maxOffset_iff.mpr (by omega), ?_⟩
    rwa [List.append_nil, Nat.sub_add_cancel hpos]

/-- The end of the Delta and the Thompson-Alpha decoder: `n` bits, and a leading 1 set in front of them (R131, R145). -/
def readBehindOne (n : Nat) (s : State) : ReadResult Nat :=
  (readNat n 0 s).bind fun r s => .got ((2 ^ n ||| r) - 1) s

theorem behindOne_value {S : Bits} {n : Nat} (h : S.length = n) : 2 ^ n ||| (0 * 2 ^ n + val S) = 1 * 2 ^ n + val S := by
  have hlt := val_lt S
  rw [h] at hlt
  rw [Nat.zero_mul, Nat.zero_add, Nat.one_mul, two_pow_or hlt]

theorem readsThen_readBehindOne {v n : Nat} (h1 : 2 ^ n ≤ v + 1) (h2 : v + 1 < 2 ^ (n + 1)) :
    ReadsThen (readBehindOne n) (bin n (v + 1 - 2 ^ n)) (.got v) := by
  have h := (readsThen_readNat 0 (bin_length n (v + 1 - 2 ^ n))).bind (f := fun r => .got ((2 ^ n ||| r) - 1))
  obtain ⟨-, hval⟩ := bin_succ_of_bounds h1 h2
  rwa [behindOne_value (bin_length n _), hval] at h

theorem covers_readBehindOne {n : Nat} {W : Nat → Bits → Prop} {O : Bits → Prop}
    (h : ∀ v, 2 ^ n ≤ v + 1 → v + 1 < 2 ^ (n + 1) → W v (bin n (v + 1 - 2 ^ n))) : Covers (readBehindOne n) W O := by
  refine covers_readNat_bind fun S hS => covers_got ?_
  obtain ⟨h1, h2⟩ := leading_one_bounds hS
  obtain ⟨v, hv⟩ : ∃ v, 1 * 2 ^ n + val S = v + 1 := Nat.exists_eq_add_of_le' (Nat.one_le_two_pow.trans h1)
  rw [behindOne_value hS, List.append_nil, hv, Nat.add_sub_cancel]
  have hS' : bin n (v + 1 - 2 ^ n) = S := by rw [← hv, Nat.one_mul, Nat.add_sub_cancel_left, bin_of_val S hS]
  exact hS' ▸ h v (by omega) (by omega)

/-- What `Dec_delta` does with the value `GammaRead` gives it (R131). -/
def deltaRest (L : Nat) (s : State) : ReadResult Nat :=
  if L > 64 then .raised .symbolOverflow s else readBehindOne (L - 1) s

theorem decDelta_eq : decDelta = fun s => (gammaRead s).bind deltaRest := rfl

theorem deltaRest_of_gt {L : Nat} (h : L > 64) : deltaRest L = .raised .symbolOverflow := funext fun _ => if_pos h

theorem deltaRest_of_le {n : Nat} (h : n + 1 ≤ 64) : deltaRest (n + 1) = readBehindOne n :=
  funext fun _ => if_neg (Nat.not_lt_of_le h)

theorem parses_decDelta : Parses decDelta (fun v S => v ≤ maxOffset ∧ DeltaWord (v + 1) S) DeltaOverflowPoint where
  returns := by
    rintro v _ ⟨hv, n, P, h1, h2, hP, rfl⟩
    have hn : n < 64 := (Nat.pow_lt_pow_iff_right (by decide)).mp (h1.trans_lt (le_maxOffset_iff.mp hv))
    have hrest := readsThen_readBehindOne h1 h2
    rw [← deltaRest_of_le hn] at hrest
    exact (parses_gammaRead.returns ⟨by omega, hP⟩).bind.trans hrest
  overflows := by
    rintro P (hP | ⟨L, hL, hL', hP⟩)
    · exact (parses_gammaRead.overflows hP).bind_raised
    · have h := (parses_gammaRead.returns ⟨hL', hP⟩).bind (f := deltaRest)
      rwa [deltaRest_of_gt hL] at h
  covers := by
    rw [decDelta_eq]
    refine parses_gammaRead.covers.bind (fun _ _ => parses_gammaRead.returns) ?_ fun _ hP => .inl hP
    rintro L S ⟨hL, hS⟩
    by_cases h : L > 64
    · rw [deltaRest_of_gt h]
      exact covers_overflow (.inr ⟨L, h, hL, by rwa [List.append_nil]⟩)
    · obtain ⟨n, rfl⟩ := Nat.exists_eq_add_of_le' hS.pos
      rw [deltaRest_of_le (Nat.le_of_not_lt h)]
      have h64 : 2 ^ (n + 1) ≤ 2 ^ 64 := Nat.pow_le_pow_right (by decide) (Nat.le_of_not_lt h)
      exact covers_readBehindOne fun v h1 h2 =>
        ⟨le_maxOffset_iff.mpr (h2.trans_le h64), n, S, h1, h2, hS, rfl⟩

end Sys2Proof.Machine

/-! ### Elias Omega as a parser (`45_elias_omega.md` R135) -/

namespace Sys2Proof.Machine

theorem OmegaChain.pos {N : Nat} {C : Bits} (h : OmegaChain N C) : 1 ≤ N := by
  cases h with
  | one => exact le_rfl
  | group _ h2 => exact Nat.one_le_two_pow.trans h2

/-- One more group behind a chain: as many digits as the value so far, with a leading 1 in front (R133, R135). -/
theorem OmegaChain.snoc {N : Nat} {C S : Bits} (h : OmegaChain N C) (hS : S.length = N) :
    OmegaChain (1 * 2 ^ N + val S) (C ++ true :: S) := by
  obtain ⟨h1, h2⟩ := leading_one_bounds hS
  rw [← bin_leading_one hS]
  exact .group h.pos h1 h2 h

/-- What a round of the decoding loop does after its first bit `b` (R135). -/
def omegaRest (fuel N : Nat) (b : Bool) (s : State) : ReadResult Nat :=
  if b = false then .got (N - 1) s
  else if N ≥ 64 then .raised .symbolOverflow s
  else (readNat N 1 s).bind (omegaLoop fuel)

theorem omegaLoop_succ (fuel N : Nat) : omegaLoop (fuel + 1) N = fun s => (nextBit s).bind (omegaRest fuel N) := rfl

theorem omegaRest_false (fuel N : Nat) : omegaRest fuel N false = .got (N - 1) := rfl

theorem omegaRest_true_of_ge (fuel : Nat) {N : Nat} (h : 64 ≤ N) : omegaRest fuel N true = .raised .symbolOverflow :=
  funext fun _ => if_pos h

theorem omegaRest_true_of_lt (fuel : Nat) {N : Nat} (h : N < 64) :
    omegaRest fuel N true = fun s => (readNat N 1 s).bind (omegaLoop fuel) :=
  funext fun _ => if_neg (Nat.not_le_of_lt h)

theorem readsThen_omegaLoop (fuel N : Nat) (b : Bool) : ReadsThen (omegaLoop (fuel + 1) N) [b] (omegaRest fuel N b) :=
  (readsThen_nextBit b).bind

/-- One round of the decoding loop with a group ahead (R135). -/
theorem readsThen_omegaLoop_group {fuel N : Nat} {S : Bits} (hN : N < 64) (hS : S.length = N) :
    ReadsThen (omegaLoop (fuel + 1) N) (true :: S) (omegaLoop fuel (1 * 2 ^ N + val S)) := by
  have h := readsThen_omegaLoop fuel N true
  rw [omegaRest_true_of_lt fuel hN] at h
  exact h.trans (readsThen_readNat 1 hS).bind

/-- The decoder follows a chain of groups, in fewer rounds than it has (R135). -/
theorem readsThen_omegaChain {N : Nat} {C : Bits} (h : OmegaChain N C) (hN : N < 2 ^ 64) :
    ∃ k < N, k < 64 ∧ ∀ fuel, ReadsThen (omegaLoop (fuel + k) 1) C (omegaLoop fuel N) := by
  induction h with
  | one => exact ⟨0, by decide, by decide, fun fuel => .refl _⟩
  | group hL h1 h2 hC ih =>
    rename_i N L C
    have hL64 : L < 64 := (Nat.pow_lt_pow_iff_right (by decide)).mp (h1.trans_lt hN)
    have hLN : L < N := Nat.lt_two_pow_self.trans_le h1
    obtain ⟨k, hk, hk64, hchain⟩ := ih (by omega)
    obtain ⟨hbin, hval⟩ := bin_succ_of_bounds h1 h2
    refine ⟨k + 1, by omega, by omega, fun fuel => ?_⟩
    have hgroup := readsThen_omegaLoop_group (fuel := fuel) hL64 (bin_length L (N - 2 ^ L))
    rw [hval] at hgroup
    rw [hbin, ← Nat.add_assoc, Nat.add_right_comm]
    exact (hchain (fuel + 1)).trans hgroup

/-- Behind a chain of groups the loop finds a code word or a detection point, and has rounds enough for it (R135). -/
theorem covers_omegaLoop {fuel N : Nat} {C : Bits} (hC : OmegaChain N C) (hN : N < 2 ^ 64) (hfuel : 1 ≤ fuel)
    (hrounds : 65 ≤ fuel + N) :
    Covers (omegaLoop fuel N)
      (fun v S => v ≤ maxOffset ∧ ∃ P, OmegaChain (v + 1) P ∧ C ++ S = P ++ [false])
      (fun P => OmegaOverflowPoint (C ++ P)) := by
  induction fuel generalizing N C with
  | zero => omega
  | succ fuel ih =>
    have hpos := hC.pos
    rw [omegaLoop_succ]
    refine covers_nextBit_bind fun b => ?_
    cases b with
    | false =>
      rw [omegaRest_false]
      refine covers_got ⟨le_maxOffset_iff.mpr (by omega), C, ?_, rfl⟩
      rwa [Nat.sub_add_cancel hpos]
    | true =>
      by_cases h64 : 64 ≤ N
      · rw [omegaRest_true_of_ge fuel h64]
        exact covers_overflow ⟨N, C, h64, hN, hC, rfl⟩
      · rw [omegaRest_true_of_lt fuel (Nat.lt_of_not_le h64)]
        refine covers_readNat_bind fun S hS => ?_
        obtain ⟨h1, h2⟩ := leading_one_bounds hS
        have hgrow : N < 2 ^ N := Nat.lt_two_pow_self
        have hlt : 2 ^ (N + 1) ≤ 2 ^ 64 := Nat.pow_le_pow_right (by decide) (by omega)
        refine (ih (hC.snoc hS) (h2.trans_le hlt) (by omega) (by omega)).mono ?_ ?_
        · rintro v T ⟨hv, P, hP, hCT⟩
          exact ⟨hv, P, hP, by simpa using hCT⟩
        · intro P hP
          simpa using hP

theorem parses_decOmega :
    Parses decOmega (fun v S => v ≤ maxOffset ∧ ∃ P, OmegaChain (v + 1) P ∧ S = P ++ [false]) OmegaOverflowPoint where
  returns := by
    rintro v _ ⟨hv, C, hC, rfl⟩
    obtain ⟨k, -, hk, hchain⟩ := readsThen_omegaChain hC (le_maxOffset_iff.mp hv)
    have h := (hchain (63 - k + 1)).trans (readsThen_omegaLoop (63 - k) (v + 1) false)
    rwa [show 63 - k + 1 + k = 64 by omega] at h
  overflows := by
    rintro _ ⟨N, C, h64, hN, hC, rfl⟩
    obtain ⟨k, -, hk, hchain⟩ := readsThen_omegaChain hC hN
    have h := (hchain (63 - k + 1)).trans (readsThen_omegaLoop (63 - k) N true)
    rwa [show 63 - k + 1 + k = 64 by omega, omegaRest_true_of_ge _ h64] at h
  covers := covers_omegaLoop .one (by decide) (by decide) (by decide)

end Sys2Proof.Machine

/-! ### VLQ and Inverted-VLQ as parsers (`42_vlq.md` R120, R121) -/

namespace Sys2Proof.Machine

theorem groupSum_snoc (G : List Nat) (g : Nat) : groupSum (G ++ [g]) = groupSum G + (g + 1) * 2 ^ (7 * G.length) := by
  induction G with
  | nil => simp [groupSum]
  | cons x G ih =>
    rw [List.cons_append, groupSum, ih, groupSum, List.length_cons, Nat.mul_succ, pow_add]
    ring

/-- Each unit counts at least `128^i` (R115). -/
theorem two_pow_le_groupSum (G : List Nat) : 2 ^ (7 * G.length) ≤ 128 * groupSum G + 1 := by
  induction G with
  | nil => exact le_rfl
  | cons x G ih =>
    rw [List.length_cons, Nat.mul_succ, pow_add, groupSum]
    omega

/-- A sum within 64 bits has at most 10 units, so the loop has a round left for one more (R120, R124). -/
theorem length_le_of_groupSum_le {G : List Nat} (h : groupSum G ≤ 2 ^ 64 - 1) : G.length ≤ 10 := by
  have hpow : 2 ^ (7 * G.length) < 2 ^ 72 := (two_pow_le_groupSum G).trans_lt (by omega)
  have := (Nat.pow_lt_pow_iff_right (by decide)).mp hpow
  omega

/-- The non-final units of the groups `G` (R116). -/
def nonFinalUnits (final : Bool) (G : List Nat) : Bits := G.flatMap fun x => (!final) :: bin 7 x

theorem nonFinalUnits_snoc (final : Bool) (G : List Nat) (g : Nat) :
    nonFinalUnits final (G ++ [g]) = nonFinalUnits final G ++ (!final) :: bin 7 g := by
  simp [nonFinalUnits]

/-- Eight bits are a unit: a flag and a group (R116). -/
theorem exists_unit {U : Bits} (h : U.length = 8) : ∃ f g, g < 128 ∧ U = f :: bin 7 g := by
  cases U with
  | nil => cases h
  | cons f T =>
    have hT : T.length = 7 := Nat.succ.inj h
    have hlt := val_lt T
    rw [hT] at hlt
    exact ⟨f, val T, hlt, by rw [bin_of_val T hT]⟩

/-- What a round of the decoding loop does with its unit (R120, R121). -/
def vlqRest (final : Bool) (fuel S i : Nat) (U : Bits) (s : State) : ReadResult Nat :=
  let S := S + (val U.tail + 1) * 2 ^ (7 * i)
  if S > 2 ^ 64 - 1 then .raised .symbolOverflow s
  else if U.headD false = final then .got (S - 1) s
  else vlqLoop final fuel S (i + 1) s

theorem vlqLoop_succ (final : Bool) (fuel S i : Nat) :
    vlqLoop final (fuel + 1) S i = fun s => (readBits 8 s).bind (vlqRest final fuel S i) := rfl

/-- The three ways on from the unit `f :: bin 7 g` behind the groups `G`. -/
theorem vlqRest_eq (final : Bool) (fuel : Nat) (G : List Nat) (f : Bool) {g : Nat} (hg : g < 128) (s : State) :
    vlqRest final fuel (groupSum G) G.length (f :: bin 7 g) s =
      if groupSum (G ++ [g]) > 2 ^ 64 - 1 then .raised .symbolOverflow s
      else if f = final then .got (groupSum (G ++ [g]) - 1) s
      else vlqLoop final fuel (groupSum (G ++ [g])) (G ++ [g]).length s := by
  rw [groupSum_snoc, List.length_append]
  simp only [vlqRest, List.tail_cons, List.headD_cons, val_bin_of_lt (show g < 2 ^ 7 from hg), List.length_singleton]

theorem vlqRest_overflow (final : Bool) (fuel : Nat) {G : List Nat} (f : Bool) {g : Nat} (hg : g < 128)
    (h : 2 ^ 64 - 1 < groupSum (G ++ [g])) :
    vlqRest final fuel (groupSum G) G.length (f :: bin 7 g) = .raised .symbolOverflow :=
  funext fun s => (vlqRest_eq final fuel G f hg s).trans (if_pos h)

theorem vlqRest_final (final : Bool) (fuel : Nat) {G : List Nat} {g : Nat} (hg : g < 128)
    (h : groupSum (G ++ [g]) ≤ 2 ^ 64 - 1) :
    vlqRest final fuel (groupSum G) G.length (final :: bin 7 g) = .got (groupSum (G ++ [g]) - 1) :=
  funext fun s => (vlqRest_eq final fuel G final hg s).trans ((if_neg (Nat.not_lt_of_le h)).trans (if_pos rfl))

theorem vlqRest_nonFinal (final : Bool) (fuel : Nat) {G : List Nat} {g : Nat} (hg : g < 128)
    (h : groupSum (G ++ [g]) ≤ 2 ^ 64 - 1) :
    vlqRest final fuel (groupSum G) G.length ((!final) :: bin 7 g) =
      vlqLoop final fuel (groupSum (G ++ [g])) (G ++ [g]).length :=
  funext fun s => (vlqRest_eq final fuel G _ hg s).trans
    ((if_neg (Nat.not_lt_of_le h)).trans (if_neg (Bool.not_ne_self final)))

theorem readsThen_vlqLoop (final : Bool) (fuel S i : Nat) (f : Bool) (g : Nat) :
    ReadsThen (vlqLoop final (fuel + 1) S i) (f :: bin 7 g) (vlqRest final fuel S i (f :: bin 7 g)) :=
  (readsThen_readBits (by rw [List.length_cons, bin_length])).bind

/-- The decoder follows non-final units while the sum is within 64 bits (R120, R121). -/
theorem readsThen_nonFinalUnits (final : Bool) {fuel : Nat} {G : List Nat} (hG : ∀ x ∈ G, x < 128)
    (hsum : groupSum G ≤ 2 ^ 64 - 1) (hfuel : G.length + fuel = 11) :
    ReadsThen (vlqLoop final 11 0 0) (nonFinalUnits final G) (vlqLoop final fuel (groupSum G) G.length) := by
  induction G using List.reverseRecOn generalizing fuel with
  | nil =>
    obtain rfl : fuel = 11 := by simpa using hfuel
    exact .refl _
  | append_singleton G g ih =>
    obtain ⟨hG', hg⟩ := List.forall_mem_append.mp hG
    have hg := hg g (List.mem_singleton_self g)
    have hle : groupSum G ≤ groupSum (G ++ [g]) := by rw [groupSum_snoc]; exact Nat.le_add_right _ _
    rw [List.length_append, List.length_singleton] at hfuel
    rw [nonFinalUnits_snoc, ← vlqRest_nonFinal final fuel hg hsum]
    exact (ih hG' (hle.trans hsum) (by omega)).trans (readsThen_vlqLoop final fuel _ _ _ g)

/-- Behind non-final units the loop finds a code word or a detection point, and has rounds enough for it (R120, R121). -/
theorem covers_vlqLoop (final : Bool) {fuel : Nat} {G : List Nat} (hG : ∀ x ∈ G, x < 128)
    (hsum : groupSum G ≤ 2 ^ 64 - 1) (hfuel : G.length + fuel = 11) :
    Covers (vlqLoop final fuel (groupSum G) G.length)
      (fun v S => v ≤ maxOffset ∧ VlqWord final v (nonFinalUnits final G ++ S))
      (fun P => VlqOverflowPoint final (nonFinalUnits final G ++ P)) := by
  have hlen := length_le_of_groupSum_le hsum
  induction fuel generalizing G with
  | zero => omega
  | succ fuel ih =>
    rw [vlqLoop_succ]
    refine covers_readBits_bind fun U hU => ?_
    obtain ⟨f, g, hg, rfl⟩ := exists_unit hU
    have hGg : ∀ x ∈ G ++ [g], x < 128 := List.forall_mem_append.mpr ⟨hG, by simpa using hg⟩
    by_cases hover : 2 ^ 64 - 1 < groupSum (G ++ [g])
    · rw [vlqRest_overflow final fuel f hg hover]
      exact covers_overflow ⟨G, g, f, hGg, hsum, hover, by rw [List.append_nil]; rfl⟩
    · have hle := Nat.le_of_not_lt hover
      have hpos : 1 ≤ groupSum (G ++ [g]) := by
        rw [groupSum_snoc]; exact Nat.le_add_left_of_le (Nat.mul_pos (Nat.succ_pos g) (Nat.two_pow_pos _))
      obtain rfl | rfl : f = final ∨ f = !final := by cases f <;> cases final <;> decide
      · rw [vlqRest_final f fuel hg hle]
        refine covers_got ⟨le_maxOffset_iff.mpr (by omega), G, g, hGg, ?_, by rw [List.append_nil]; rfl⟩
        rw [Nat.sub_add_cancel hpos]
      · rw [vlqRest_nonFinal final fuel hg hle]
        have hlen' : (G ++ [g]).length + fuel = 11 := by
          rw [List.length_append, List.length_singleton]; omega
        simpa only [nonFinalUnits_snoc, List.append_assoc] using
          ih hGg hle hlen' (length_le_of_groupSum_le hle)

theorem parses_vlqLoop (final : Bool) :
    Parses (vlqLoop final 11 0 0) (fun v S => v ≤ maxOffset ∧ VlqWord final v S) (VlqOverflowPoint final) where
  returns := by
    rintro v _ ⟨hv, G, g, hGg, hsum, rfl⟩
    obtain ⟨hG, hg⟩ := List.forall_mem_append.mp hGg
    have hle : groupSum (G ++ [g]) ≤ 2 ^ 64 - 1 := hsum ▸ Nat.le_pred_of_lt (le_maxOffset_iff.mp hv)
    have hle' : groupSum G ≤ 2 ^ 64 - 1 := le_trans (by rw [groupSum_snoc]; exact Nat.le_add_right _ _) hle
    have hlen := length_le_of_groupSum_le hle'
    have h := readsThen_vlqLoop final (10 - G.length) (groupSum G) G.length final g
    rw [vlqRest_final final _ (hg g (List.mem_singleton_self g)) hle, ← hsum] at h
    exact (readsThen_nonFinalUnits final hG hle' (by omega)).trans h
  overflows := by
    rintro _ ⟨G, g, f, hGg, hle, hover, rfl⟩
    obtain ⟨hG, hg⟩ := List.forall_mem_append.mp hGg
    have hlen := length_le_of_groupSum_le hle
    have h := readsThen_vlqLoop final (10 - G.length) (groupSum G) G.length f g
    rw [vlqRest_overflow final _ f (hg g (List.mem_singleton_self g)) hover] at h
    exact (readsThen_nonFinalUnits final hG hle (by omega)).trans h
  covers := covers_vlqLoop final (G := []) (by simp) (by decide) rfl

end Sys2Proof.Machine

/-! ### Fibonacci as a parser (`46_fibonacci.md` R140) -/

namespace Sys2Proof.Machine

theorem fibValue_snoc (B : Bits) (b : Bool) :
    fibValue 0 (B ++ [b]) = fibValue 0 B + if b then Nat.fib (B.length + 2) else 0 := by
  rw [fibValue_append, Nat.zero_add, fibValue, fibValue, Nat.add_zero]

/-- No two 1s next to each other, read off the last two bits (R138, R140). -/
theorem noPair_snoc {B : Bits} {b : Bool} :
    ¬ [true, true] <:+: B ++ [b] ↔ ¬ [true, true] <:+: B ∧ ¬ (b = true ∧ B.getLastD false = true) := by
  have hsuffix : [true, true] <:+ B ++ [b] ↔ b = true ∧ B.getLastD false = true := by
    constructor
    · rintro ⟨A, hA⟩
      rw [show [true, true] = [true] ++ [true] from rfl, ← List.append_assoc] at hA
      obtain ⟨rfl, hb⟩ := List.append_inj' hA rfl
      exact ⟨(List.singleton_inj.mp hb).symm, List.getLastD_concat⟩
    · rintro ⟨rfl, hlast⟩
      cases B using List.reverseRecOn with
      | nil => exact absurd hlast (by decide)
      | append_singleton A a =>
        obtain rfl : a = true := by rwa [List.getLastD_concat] at hlast
        exact ⟨A, by rw [List.append_assoc]; rfl⟩
  rw [List.infix_concat_iff, hsuffix, not_or, and_comm]

/-- The decoding loop when the bits `B` have been read without a terminator and `n` table entries are left (R140). -/
def fibAfter (n : Nat) (B : Bits) : State → ReadResult Nat :=
  fibLoop (fibSequence n (Nat.fib (B.length + 2)) (Nat.fib (B.length + 3))) (B.getLastD false) (fibValue 0 B)

theorem decFib_eq : decFib = fibAfter 92 [] := rfl

/-- What a round of the loop does with its bit `b` (R140). -/
def fibRest (n : Nat) (B : Bits) (b : Bool) (s : State) : ReadResult Nat :=
  if b = true ∧ B.getLastD false = true then .got (fibValue 0 B - 1) s
  else
    match n with
    | 0 => .raised .symbolOverflow s
    | n + 1 =>
      if b = true ∧ 2 ^ 64 - 1 < fibValue 0 (B ++ [b]) then .raised .symbolOverflow s else fibAfter n (B ++ [b]) s

theorem fibAfter_eq (n : Nat) (B : Bits) : fibAfter n B = fun s => (nextBit s).bind (fibRest n B) := by
  have hstep : Nat.fib (B.length + 2) + Nat.fib (B.length + 3) = Nat.fib (B.length + 1 + 3) :=
    (Nat.fib_add_two (n := B.length + 2)).symm
  funext s
  cases n with
  | zero =>
    rw [fibAfter, fibSequence, fibLoop]
    congr 1
    funext b t
    simp only [fibRest, Bool.and_eq_true]
  | succ n =>
    rw [fibAfter, fibSequence, fibLoop, hstep]
    congr 1
    funext b t
    simp only [fibRest, fibAfter, fibValue_snoc, Bool.and_eq_true, decide_eq_true_eq, gt_iff_lt, List.length_append,
      List.length_singleton, List.getLastD_concat]
    cases b <;> simp only [if_true, Bool.false_eq_true, false_and, if_false, Nat.add_zero]

theorem readsThen_fibAfter (n : Nat) (B : Bits) (b : Bool) : ReadsThen (fibAfter n B) [b] (fibRest n B b) := by
  rw [fibAfter_eq]
  exact (readsThen_nextBit b).bind

theorem fibRest_terminator (n : Nat) {B : Bits} {b : Bool} (h : b = true ∧ B.getLastD false = true) :
    fibRest n B b = .got (fibValue 0 B - 1) :=
  funext fun _ => if_pos h

theorem fibRest_zero {B : Bits} {b : Bool} (h : ¬ (b = true ∧ B.getLastD false = true)) :
    fibRest 0 B b = .raised .symbolOverflow :=
  funext fun _ => if_neg h

theorem fibRest_overflow (n : Nat) {B : Bits} {b : Bool} (h : ¬ (b = true ∧ B.getLastD false = true))
    (hover : b = true ∧ 2 ^ 64 - 1 < fibValue 0 (B ++ [b])) : fibRest (n + 1) B b = .raised .symbolOverflow :=
  funext fun _ => (if_neg h).trans (if_pos hover)

theorem fibRest_next (n : Nat) {B : Bits} {b : Bool} (h : ¬ (b = true ∧ B.getLastD false = true))
    (hover : ¬ (b = true ∧ 2 ^ 64 - 1 < fibValue 0 (B ++ [b]))) : fibRest (n + 1) B b = fibAfter n (B ++ [b]) :=
  funext fun _ => (if_neg h).trans (if_neg hover)

/-- The decoder follows bits without a terminator while the sum is within 64 bits (R140). -/
theorem readsThen_noPair {n : Nat} {B : Bits} (hB : ¬ [true, true] <:+: B) (hsum : fibValue 0 B ≤ 2 ^ 64 - 1)
    (hlen : B.length + n = 92) : ReadsThen decFib B (fibAfter n B) := by
  induction B using List.reverseRecOn generalizing n with
  | nil =>
    obtain rfl : n = 92 := by simpa using hlen
    rw [decFib_eq]
    exact .refl _
  | append_singleton B b ih =>
    obtain ⟨hB', hlast⟩ := noPair_snoc.mp hB
    have hle : fibValue 0 B ≤ fibValue 0 (B ++ [b]) := by rw [fibValue_snoc]; exact Nat.le_add_right _ _
    rw [List.length_append, List.length_singleton] at hlen
    rw [← fibRest_next n hlast fun h => Nat.not_lt_of_le hsum h.2]
    exact (ih hB' (hle.trans hsum) (by omega)).trans (readsThen_fibAfter _ B b)

/-- A 1 at position 92 or above would pass `2^64 − 1` (R137). -/
theorem length_lt_of_fibValue_le {B : Bits} (h : fibValue 0 (B ++ [true]) ≤ 2 ^ 64 - 1) : B.length < 92 := by
  rw [fibValue_snoc, if_pos rfl] at h
  by_contra hlen
  have hfib : Nat.fib 94 ≤ Nat.fib (B.length + 2) := Nat.fib_mono (by omega)
  have := fib_bounds.2
  omega

/-- The bits up to a terminator are a code word (R138, R140). -/
theorem fibWord_of_terminator {B : Bits} {b : Bool} (hB : ¬ [true, true] <:+: B) (hsum : fibValue 0 B ≤ 2 ^ 64 - 1)
    (hterm : b = true ∧ B.getLastD false = true) :
    fibValue 0 B - 1 ≤ maxOffset ∧ FibWord (fibValue 0 B - 1 + 1) (B ++ ([b] ++ [])) := by
  obtain ⟨rfl, hlast⟩ := hterm
  cases B using List.reverseRecOn with
  | nil => exact absurd hlast (by decide)
  | append_singleton B a =>
    obtain rfl : a = true := by rwa [List.getLastD_concat] at hlast
    have hpos : 1 ≤ fibValue 0 (B ++ [true]) := by
      rw [fibValue_snoc, if_pos rfl]
      exact Nat.le_add_left_of_le (Nat.fib_pos.mpr (Nat.succ_pos _))
    refine ⟨le_maxOffset_iff.mpr (by omega), B, hB, ?_, rfl⟩
    rw [Nat.sub_add_cancel hpos]

/-- Behind bits without a terminator the loop finds a code word or a detection point (R140). -/
theorem covers_fibAfter {n : Nat} {B : Bits} (hB : ¬ [true, true] <:+: B) (hsum : fibValue 0 B ≤ 2 ^ 64 - 1)
    (hlen : B.length + n = 92) :
    Covers (fibAfter n B) (fun v S => v ≤ maxOffset ∧ FibWord (v + 1) (B ++ S)) fun P => FibOverflowPoint (B ++ P) := by
  induction n generalizing B with
  | zero =>
    rw [fibAfter_eq]
    refine covers_nextBit_bind fun b => ?_
    by_cases hterm : b = true ∧ B.getLastD false = true
    · rw [fibRest_terminator 0 hterm]
      exact covers_got (fibWord_of_terminator hB hsum hterm)
    · rw [fibRest_zero hterm]
      exact covers_overflow ⟨B, b, rfl, noPair_snoc.mpr ⟨hB, hterm⟩, hsum, .inr hlen⟩
  | succ n ih =>
    rw [fibAfter_eq]
    refine covers_nextBit_bind fun b => ?_
    by_cases hterm : b = true ∧ B.getLastD false = true
    · rw [fibRest_terminator _ hterm]
      exact covers_got (fibWord_of_terminator hB hsum hterm)
    · have hBb := noPair_snoc.mpr ⟨hB, hterm⟩
      by_cases hover : b = true ∧ 2 ^ 64 - 1 < fibValue 0 (B ++ [b])
      · rw [fibRest_overflow n hterm hover]
        exact covers_overflow ⟨B, b, rfl, hBb, hsum, .inl ⟨by omega, hover⟩⟩
      · rw [fibRest_next n hterm hover]
        have hle : fibValue 0 (B ++ [b]) ≤ 2 ^ 64 - 1 := by
          cases b with
          | false => rwa [fibValue_snoc]
          | true => exact Nat.le_of_not_lt fun h => hover ⟨rfl, h⟩
        have hlen' : (B ++ [b]).length + n = 92 := by rw [List.length_append, List.length_singleton]; omega
        simpa only [List.append_assoc] using ih hBb hle hlen'

theorem parses_decFib : Parses decFib (fun v S => v ≤ maxOffset ∧ FibWord (v + 1) S) FibOverflowPoint where
  returns := by
    rintro v _ ⟨hv, B, hB, hsum, rfl⟩
    have hle : fibValue 0 (B ++ [true]) ≤ 2 ^ 64 - 1 := hsum ▸ Nat.le_pred_of_lt (le_maxOffset_iff.mp hv)
    have hlen := length_lt_of_fibValue_le hle
    have h := readsThen_fibAfter (91 - B.length) (B ++ [true]) true
    rw [fibRest_terminator _ ⟨rfl, List.getLastD_concat⟩, hsum] at h
    refine (readsThen_noPair hB hle ?_).trans h
    rw [List.length_append, List.length_singleton]
    omega
  overflows := by
    rintro _ ⟨B, b, rfl, hBb, hsum, hpoint⟩
    obtain ⟨hB, hlast⟩ := noPair_snoc.mp hBb
    obtain ⟨hlen, hb, hover⟩ | hlen := hpoint
    · have h := readsThen_fibAfter (91 - B.length + 1) B b
      rw [fibRest_overflow _ hlast ⟨hb, hover⟩] at h
      exact (readsThen_noPair hB hsum (by omega)).trans h
    · have h := readsThen_fibAfter 0 B b
      rw [fibRest_zero hlast] at h
      exact (readsThen_noPair hB hsum hlen).trans h
  covers := by
    rw [decFib_eq]
    exact covers_fibAfter (B := []) (by decide) (by decide) rfl

end Sys2Proof.Machine

/-! ### Thompson-Alpha and Raw as parsers, and all eight codecs (`47_thompson_alpha.md` R145, `48_raw.md` R149) -/

namespace Sys2Proof.Machine

/-- The lengths that `lb` bits can hold are those of the symbols in range (R142). -/
theorem le_maxTa {lb L v : Nat} (hL : L < 2 ^ lb) (h : v + 1 < 2 ^ (L + 1)) : v ≤ maxTa lb := by
  have hpow : 2 ^ (L + 1) ≤ 2 ^ 2 ^ lb := Nat.pow_le_pow_right (by decide) hL
  rw [maxTa]
  omega

theorem decTa_eq (lb : Nat) : decTa lb = fun s => (readNat lb 0 s).bind readBehindOne := rfl

theorem parses_decTa (lb : Nat) :
    Parses (decTa lb) (fun v S => v ≤ maxTa lb ∧ TaWord lb (v + 1) S) fun _ => False where
  returns := by
    rintro v _ ⟨-, L, h1, h2, hL, rfl⟩
    have h := (readsThen_readNat 0 (bin_length lb L)).bind (f := readBehindOne)
    rw [Nat.zero_mul, Nat.zero_add, val_bin_of_lt hL] at h
    exact h.trans (readsThen_readBehindOne h1 h2)
  overflows := False.elim
  covers := by
    rw [decTa_eq]
    refine covers_readNat_bind fun S hS => ?_
    have hL := val_lt S
    rw [hS] at hL
    rw [Nat.zero_mul, Nat.zero_add]
    exact covers_readBehindOne fun v h1 h2 => ⟨le_maxTa hL h2, val S, h1, h2, hL, by rw [bin_of_val S hS]⟩

theorem parses_decRaw : Parses decRaw (fun v S => v ≤ maxRaw ∧ S = bin 64 v) fun _ => False where
  returns := by
    rintro v _ ⟨hv, rfl⟩
    have h := readsThen_readNat 0 (bin_length 64 v)
    rwa [Nat.zero_mul, Nat.zero_add, val_bin_of_lt (by rw [maxRaw] at hv; omega)] at h
  overflows := False.elim
  covers := by
    refine (covers_readNat 64 0).mono ?_ fun _ hP => hP.elim
    rintro _ S ⟨hS, rfl⟩
    have hlt := val_lt S
    rw [hS] at hlt
    rw [Nat.zero_mul, Nat.zero_add]
    exact ⟨by rw [maxRaw]; omega, (bin_of_val S hS).symm⟩

/-- The code words of the symbols in range (R101, R103). -/
def WordInRange (c : Codec) (lb v : Nat) (S : Bits) : Prop := v ≤ maxValue c lb ∧ CodeWord c lb v S

/-- Every decoder is a parser of the code words in range, with the detection points of R110. -/
theorem parses_decoderOf (c : Codec) (lb : Nat) : Parses (decoderOf c lb) (WordInRange c lb) (OverflowPoint c) := by
  cases c with
  | vlq => exact parses_vlqLoop true
  | ivlq => exact parses_vlqLoop false
  | gamma => exact parses_decGamma
  | delta => exact parses_decDelta
  | omega => exact parses_decOmega
  | fib => exact parses_decFib
  | ta => exact parses_decTa lb
  | raw => exact parses_decRaw

/-! #### What `R_DEC` answers, by what is ahead -/

theorem taWidth_eq (s : State) : taWidth s = s.taLb.toNat := rfl

/-- With a code word ahead `R_DEC` returns its symbol and consumes just the word (R105, R112). -/
theorem exec_decode_word {c : Codec} {s : State} (hs : s.rState = .opened) {v : Nat} {S : Bits}
    (hS : WordInRange c s.taLb.toNat v S) (ha : S <+: ahead s) :
    ∃ t, exec (decodeInstr c) s = .next t ∧ Consumed s t S.length ∧ ReaderFrame (BitVec.ofNat 64 v) s t := by
  obtain ⟨rest, hrest⟩ := ha
  obtain ⟨u, hu, hr⟩ := (parses_decoderOf c _).returns hS s rest hrest.symm
  exact ⟨_, exec_decodeInstr c s, decodeFrame_got hs hu hr⟩

/-- With a detection point ahead `R_DEC` ends there with SymbolOverflow (R110, R111). -/
theorem exec_decode_overflow {c : Codec} {s : State} (hs : s.rState = .opened) {P : Bits} (hP : OverflowPoint c P)
    (ha : P <+: ahead s) : exec (decodeInstr c) s = .next (overflowAfter P s) := by
  obtain ⟨rest, hrest⟩ := ha
  obtain ⟨u, hu, hr⟩ := (parses_decoderOf c s.taLb.toNat).overflows hP s rest hrest.symm
  rw [exec_decodeInstr, taWidth_eq, decodeFrame_raised hs rfl hu hr]
  rfl

/-- Every answer of `R_DEC` on an open reader: a symbol, SymbolOverflow, or StreamTruncated (R105, R109, R110). -/
theorem exec_decode_cases {c : Codec} {s t : State} (hs : s.rState = .opened)
    (h : exec (decodeInstr c) s = .next t) :
    (∃ v S, WordInRange c s.taLb.toNat v S ∧ S <+: ahead s ∧ Consumed s t S.length ∧
      ReaderFrame (BitVec.ofNat 64 v) s t) ∨
    (∃ P, OverflowPoint c P ∧ P <+: ahead s ∧ t = overflowAfter P s) ∨ t.status = 2 := by
  obtain ⟨v, S, hS, ha⟩ | ⟨P, hP, ha⟩ | ⟨u, hu⟩ := (parses_decoderOf c s.taLb.toNat).covers s
  · obtain ⟨t', ht', hconsumed, hframe⟩ := exec_decode_word hs hS ha
    obtain rfl := Host.Outcome.next.inj (h.symm.trans ht')
    exact .inl ⟨v, S, hS, ha, hconsumed, hframe⟩
  · exact .inr (.inl ⟨P, hP, ha, Host.Outcome.next.inj (h.symm.trans (exec_decode_overflow hs hP ha))⟩)
  · rw [exec_decodeInstr, taWidth_eq, decodeFrame, withOpenReader_open hs, hu] at h
    obtain rfl := Host.Outcome.next.inj h
    exact .inr (.inr rfl)

theorem ReaderFrame.status {res : Word64} {s t : State} (h : ReaderFrame res s t) : t.status = 0 := by rw [h]

theorem ReaderFrame.res {res : Word64} {s t : State} (h : ReaderFrame res s t) : t.res = res := by rw [h]

theorem ReaderFrame.taLb {res : Word64} {s t : State} (h : ReaderFrame res s t) : t.taLb = s.taLb := by rw [h]

theorem ReaderFrame.rState {res : Word64} {s t : State} (h : ReaderFrame res s t) : t.rState = s.rState := by rw [h]

theorem overflowAfter_status (P : Bits) (s : State) : (overflowAfter P s).status = 3 := rfl

/-! #### Decoded symbols are exact -/

theorem maxOffset_lt : maxOffset < 2 ^ 64 := by decide

theorem maxTa_lt {lb : Nat} (h : lb ≤ 6) : maxTa lb < 2 ^ 64 := by
  have : 2 ^ 2 ^ lb ≤ 2 ^ 2 ^ 6 := Nat.pow_le_pow_right (by decide) (Nat.pow_le_pow_right (by decide) h)
  rw [maxTa]
  omega

/-- Every symbol is a 64-bit value, for the widths `TA_LB` holds (R24, R103). -/
theorem maxValue_lt {c : Codec} {lb : Nat} (h : lb ≤ 6) : maxValue c lb < 2 ^ 64 := by
  cases c with
  | vlq | ivlq | gamma | delta | omega | fib => exact maxOffset_lt
  | ta => exact maxTa_lt h
  | raw => exact (by decide : maxRaw < 2 ^ 64)

/-- Settles O54: of the answers of `R_DEC` only the first has `STATUS` 0. -/
theorem decodedSymbolIsExact : Obligations.DecodedSymbolIsExact := by
  intro c s t hs _ hlb h hstatus
  obtain ⟨v, S, ⟨hv, hS⟩, ha, hconsumed, hframe⟩ | ⟨P, -, -, rfl⟩ | htrunc := exec_decode_cases hs h
  · have hres : t.res.toNat = v := by rw [hframe.res, toNat_ofNat_of_lt (hv.trans_lt (maxValue_lt hlb))]
    rw [← hframe.res] at hframe
    rw [hres]
    exact ⟨hv, S, hS, ha, hconsumed, hframe⟩
  · exact absurd hstatus (by rw [overflowAfter_status]; decide)
  · exact absurd (hstatus.symm.trans htrunc) (by decide)

/-! #### SymbolOverflow is exact -/

/-- The bits a decoder had seen at a detection point begin with the bits up to that point (R92, R111). -/
theorem prefix_seenBits {P : Bits} {s : State} (h : P <+: ahead s) : P <+: seenBits s (overflowAfter P s) := by
  have hpos : (overflowAfter P s).srcPos - s.srcPos = (P.length - s.rCnt.toNat + 7) / 8 := Nat.add_sub_cancel_left ..
  have hseen : seenBits s (overflowAfter P s) <+: ahead s := by
    obtain ⟨rest, hrest⟩ := List.take_prefix ((P.length - s.rCnt.toNat + 7) / 8) (s.src.drop s.srcPos)
    refine ⟨bitsOfBytes rest, ?_⟩
    rw [seenBits, hpos, ahead, List.append_assoc, ← bitsOfBytes_append, hrest]
  have hlen := h.length_le
  rw [ahead_length] at hlen
  refine List.prefix_of_prefix_length_le h hseen ?_
  rw [seenBits, hpos, List.length_append, qr_length, bitsOfBytes_length, List.length_take, List.length_drop]
  omega

/-- SymbolOverflow of every codec is exact for the symbols in range (R110, R111). -/
theorem overflowExact {c : Codec} {max : Nat} (hmax : ∀ lb, maxValue c lb = max) : OverflowExact c max := by
  refine fun s hs => ⟨fun P => exec_decode_overflow hs, fun t h hstatus => ?_⟩
  obtain ⟨v, S, -, -, -, hframe⟩ | ⟨P, hP, ha, rfl⟩ | htrunc := exec_decode_cases hs h
  · exact absurd (hstatus.symm.trans hframe.status) (by decide)
  · refine ⟨⟨P, hP, ha, rfl⟩, fun v S hv hS => ?_⟩
    exact (parses_decoderOf c s.taLb.toNat).no_word ⟨by rwa [hmax], hS⟩ hP (prefix_seenBits ha)
  · exact absurd (hstatus.symm.trans htrunc) (by decide)

/-- Settles O55. -/
theorem vlqOverflowIsExact : Obligations.VlqOverflowIsExact :=
  ⟨overflowExact fun _ => rfl, overflowExact fun _ => rfl⟩

/-- Settles O56. -/
theorem eliasOverflowIsExact : Obligations.EliasOverflowIsExact :=
  ⟨overflowExact fun _ => rfl, overflowExact fun _ => rfl, overflowExact fun _ => rfl⟩

/-- Settles O57. -/
theorem fibOverflowIsExact : Obligations.FibOverflowIsExact := overflowExact fun _ => rfl

/-! #### The decoders, codec by codec -/

theorem exec_decode_notOpened {c : Codec} {s : State} (hs : s.rState ≠ .opened) :
    exec (decodeInstr c) s = .next (withResponse 6 0 false s) := by
  rw [exec_decodeInstr, decodeFrame, withOpenReader_notOpen hs]

/-- The specification of `R_DEC`, of any codec (R105, R112). -/
theorem decoderSpec_decodeInstr {c : Codec} {word : CmdWord} {max : Nat → Nat}
    (hword : word = BitVec.ofNat 16 (4096 * 0xE + codecNumber c)) (hmax : ∀ lb, maxValue c lb = max lb) :
    DecoderSpec c (decodeInstr c) word max := by
  refine fun s arg => ⟨decode_of_word (.rDec c arg) hword, exec_decode_notOpened, fun v S rest hs hv hS ha => ?_⟩
  have h := exec_decode_word hs ⟨(hmax _).ge.trans' hv, hS⟩ ⟨rest, ha.symm⟩
  rwa [BitVec.ofNat_toNat, BitVec.setWidth_eq] at h

/-- Settles O47. -/
theorem rDecVlqAndIvlq : Obligations.RDecVlqAndIvlq :=
  ⟨decoderSpec_decodeInstr (c := .vlq) rfl fun _ => rfl, decoderSpec_decodeInstr (c := .ivlq) rfl fun _ => rfl⟩

/-- Settles O48. -/
theorem rDecGamma : Obligations.RDecGamma := decoderSpec_decodeInstr (c := .gamma) rfl fun _ => rfl

/-- Settles O49. -/
theorem rDecDelta : Obligations.RDecDelta := decoderSpec_decodeInstr (c := .delta) rfl fun _ => rfl

/-- Settles O50. -/
theorem rDecOmega : Obligations.RDecOmega := decoderSpec_decodeInstr (c := .omega) rfl fun _ => rfl

/-- Settles O51. -/
theorem rDecFib : Obligations.RDecFib := decoderSpec_decodeInstr (c := .fib) rfl fun _ => rfl

/-- Settles O52. -/
theorem rDecTa : Obligations.RDecTa := decoderSpec_decodeInstr (c := .ta) rfl fun _ => rfl

/-- Settles O53: `Dec_raw` takes the value of the 64 bits that `R_BITS 64` reads (R94, R149). -/
theorem rDecRaw : Obligations.RDecRaw := by
  refine ⟨decoderSpec_decodeInstr (c := .raw) rfl fun _ => rfl, fun s => ?_⟩
  by_cases hs : s.rState = .opened
  · have hraw : endRead (BitVec.ofNat 64) (decRaw s) = endRead (fun S => BitVec.ofNat 64 (val S)) (readBits 64 s) := by
      rw [decRaw, readNat_eq]
      cases readBits 64 s <;> rfl
    rw [exec_rBits_opened (by decide) hs, show Instr.rDecRaw = decodeInstr .raw from rfl, exec_decodeInstr, decodeFrame,
      withOpenReader_open hs]
    exact congrArg Host.Outcome.next hraw
  · rw [exec_rBits_notOpened (by decide) hs]
    exact exec_decode_notOpened (c := .raw) hs

end Sys2Proof.Machine

/-! ### The configuration, prediction, and sequences of symbols (`41_codec_common.md` R107, R113, R114) -/

namespace Sys2Proof.Machine

/-- Settles O32. -/
theorem cfgTaSetsWidth : Obligations.CfgTaSetsWidth := by
  intro lb arg s
  refine ⟨decode_of_word (.cfgTa lb arg) (by rw [BitVec.ofNat_add, BitVec.ofNat_toNat]), fun hlb => ?_, fun hlb => ?_⟩
  · exact congrArg Host.Outcome.next (if_neg (by omega))
  · have hbad : lb.toNat < 1 ∨ lb.toNat > 6 := by
      obtain rfl | rfl := hlb
      · exact .inl (by decide)
      · exact .inr (by decide)
    exact congrArg Host.Outcome.next ((if_pos hbad).trans (raise_plain rfl s))

/-! #### The encoders write the code words, and `PREDICT` their lengths -/

/-- What `W_ENC` appends for a symbol in range is its code word (R104). -/
theorem codeOf_word {c : Codec} {lb v : Nat} (h : v ≤ maxValue c lb) : CodeWord c lb v (codeOf c lb v) := by
  cases c with
  | vlq => exact vlqUnits_word true (Nat.lt_of_succ_lt (le_maxOffset_iff.mp h))
  | ivlq => exact vlqUnits_word false (Nat.lt_of_succ_lt (le_maxOffset_iff.mp h))
  | gamma => exact gammaBits_word (Nat.succ_pos v)
  | delta => exact codeDelta_word v
  | omega => exact codeOmega_word (Nat.lt_sub_of_add_lt (le_maxOffset_iff.mp h))
  | fib => exact codeFib_word (le_maxOffset_iff.mp h)
  | ta => exact codeTa_word h
  | raw => rfl

/-- `PREDICT` computes the length of what `W_ENC` appends (R114). -/
theorem codeOf_length (c : Codec) (lb v : Nat) : (codeOf c lb v).length = lenOf c lb v := by
  cases c with
  | vlq => exact vlqUnits_length true _
  | ivlq => exact vlqUnits_length false _
  | gamma => exact gammaBits_length (Nat.succ_pos v)
  | delta => exact codeDelta_length v
  | omega => exact omegaLength_eq 64 (v + 1) 1 [false] rfl
  | fib => exact codeFib_length v
  | ta => exact codeTa_length lb v
  | raw => exact bin_length 64 v

theorem countUsed_le {x n : Nat} (h : x < 2 ^ n) : countUsed x ≤ n := by
  obtain rfl | hpos := Nat.eq_zero_or_pos x
  · exact Nat.zero_le n
  · obtain ⟨L, hc, h1, -⟩ := exists_bits hpos
    rw [hc]
    exact (Nat.pow_lt_pow_iff_right (by decide)).mp (h1.trans_lt h)

theorem groupsFuel_length_le (fuel v : Nat) : (groupsFuel fuel v).length ≤ fuel + 1 := by
  induction fuel generalizing v with
  | zero => exact le_rfl
  | succ fuel ih =>
    rw [groupsFuel]
    split
    · exact Nat.succ_le_succ (ih _)
    · exact Nat.succ_le_succ (Nat.zero_le _)

/-- Every group of Elias Omega has at most 64 bits (R136). -/
theorem omegaLength_le {fuel N t : Nat} (h : N < 2 ^ 64) : omegaLength fuel N t ≤ t + 64 * fuel := by
  induction fuel generalizing N t with
  | zero => exact le_rfl
  | succ fuel ih =>
    have hc := countUsed_le h
    rw [omegaLength]
    split
    · exact (ih (by omega)).trans (by omega)
    · omega

/-- A prediction fits into `RES`, whatever `TA_LB` is (R114). -/
theorem lenOf_lt {c : Codec} {lb v : Nat} (h : v ≤ maxValue c lb) (hv : v < 2 ^ 64) (hlb : lb < 8) :
    lenOf c lb v < 2 ^ 64 := by
  have hvlq : lenVlq v ≤ 88 := Nat.mul_le_mul_left 8 (groupsFuel_length_le 10 v)
  have hused : countUsed (v + 1) ≤ 65 := countUsed_le (by omega)
  cases c with
  | vlq | ivlq => exact hvlq.trans_lt (by decide)
  | gamma =>
    show 2 * countUsed (v + 1) - 1 < 2 ^ 64
    omega
  | delta =>
    have hlength : countUsed (countUsed (v + 1) - 1 + 1) ≤ 7 := countUsed_le (by omega)
    show 2 * countUsed (countUsed (v + 1) - 1 + 1) - 1 + (countUsed (v + 1) - 1) < 2 ^ 64
    omega
  | omega => exact (omegaLength_le (le_maxOffset_iff.mp h)).trans_lt (by decide)
  | fib =>
    obtain ⟨htop, -⟩ := fibTop_spec (Nat.succ_pos v) (le_maxOffset_iff.mp h)
    exact (Nat.add_lt_add_right htop 2).trans (by decide)
  | ta =>
    show lb + countUsed (v + 1) - 1 < 2 ^ 64
    omega
  | raw => exact (by decide : 64 < 2 ^ 64)

theorem exec_encode_inRange {c : Codec} {v : Word64} {s : State} (hs : s.wState = .opened)
    (hv : v.toNat ≤ maxValue c s.taLb.toNat) :
    ∃ t, exec (encodeInstr c v) s = .next t ∧ Appended s t (codeOf c s.taLb.toNat v.toNat) ∧ WriterFrame s t := by
  obtain ⟨-, happ, hframe⟩ := encodeFrame_inRange hs hv (codeOf c s.taLb.toNat)
  exact ⟨_, exec_encodeInstr c v s, happ, hframe⟩

theorem exec_encode_outOfRange {c : Codec} {v : Word64} {s : State} (hs : s.wState = .opened)
    (hv : maxValue c s.taLb.toNat < v.toNat) : exec (encodeInstr c v) s = .next (withResponse 1 0 false s) := by
  rw [exec_encodeInstr, taWidth_eq, encodeFrame_outOfRange hs hv]

theorem exec_predict_inRange {c : Codec} {v : Word64} {s : State} (hv : v.toNat ≤ maxValue c s.taLb.toNat) :
    exec (predictInstr c v) s = .next (withResponse 0 (BitVec.ofNat 64 (lenOf c s.taLb.toNat v.toNat)) true s) := by
  rw [exec_predictInstr, taWidth_eq, predictFrame_inRange hv]

theorem exec_predict_outOfRange {c : Codec} {v : Word64} {s : State} (hv : maxValue c s.taLb.toNat < v.toNat) :
    exec (predictInstr c v) s = .next (withResponse 0 0 false s) := by
  rw [exec_predictInstr, taWidth_eq, predictFrame_outOfRange hv]

/-- The bits appended, counted: the bytes sent and the bits pending (R87). -/
theorem Appended.length_eq {s t : State} {S : Bits} (h : Appended s t S) :
    8 * (t.sink.length - s.sink.length) + t.wCnt.toNat = s.wCnt.toNat + S.length := by
  obtain ⟨⟨bytes, hsink, hbits⟩, -⟩ := h
  have hlen := congrArg List.length hbits
  simp only [List.length_append, qw_length, bitsOfBytes_length] at hlen
  rw [hsink, List.length_append, List.length_map, Nat.add_sub_cancel_left]
  exact hlen.symm

/-- Settles O46: both commands make the same range check, and the prediction is the length of the code word. -/
theorem predictionExactness : Obligations.PredictionExactness := by
  intro c v s t u hs ht hu
  by_cases hv : v.toNat ≤ maxValue c s.taLb.toNat
  · obtain ⟨t', ht', happ, hframe⟩ := exec_encode_inRange hs hv
    obtain rfl := Host.Outcome.next.inj (ht.symm.trans ht')
    obtain rfl := Host.Outcome.next.inj (hu.symm.trans (exec_predict_inRange hv))
    have hstatus : t.status = 0 := by rw [hframe]
    have hres : (BitVec.ofNat 64 (lenOf c s.taLb.toNat v.toNat)).toNat = (codeOf c s.taLb.toNat v.toNat).length := by
      rw [toNat_ofNat_of_lt (lenOf_lt hv v.isLt s.taLb.isLt), codeOf_length]
    rw [withResponse_resv, withResponse_res, hres]
    exact ⟨iff_of_true rfl hstatus, fun _ => ⟨_, codeOf_word hv, happ, rfl, happ.length_eq⟩⟩
  · have hv := Nat.lt_of_not_le hv
    obtain rfl := Host.Outcome.next.inj (ht.symm.trans (exec_encode_outOfRange hs hv))
    obtain rfl := Host.Outcome.next.inj (hu.symm.trans (exec_predict_outOfRange hv))
    have hstatus : (withResponse 1 0 false s).status ≠ 0 := by rw [withResponse_status]; decide
    exact ⟨iff_of_false (by rw [withResponse_resv]; decide) hstatus, fun h => absurd h hstatus⟩

/-! #### Several symbols -/

/-- The code words of a sequence of symbols, one after the other (R113). -/
def codesOf (lb : Nat) (items : List (Codec × Word64)) : Bits := items.flatMap fun x => codeOf x.1 lb x.2.toNat

/-- The `W_ENC` commands of a sequence of symbols append their code words; none of them changes nothing (R113). -/
theorem runAll_encode {items : List (Codec × Word64)} {s : State} (hs : s.wState = .opened)
    (hitems : ∀ x ∈ items, x.2.toNat ≤ maxValue x.1 s.taLb.toNat) :
    ∃ t, runAll (items.map fun x => encodeInstr x.1 x.2) s = some t ∧ t.wState = .opened ∧
      (items = [] ∧ t = s ∨ Appended s t (codesOf s.taLb.toNat items)) := by
  induction items generalizing s with
  | nil => exact ⟨s, rfl, hs, .inl ⟨rfl, rfl⟩⟩
  | cons x items ih =>
    obtain ⟨hx, hrest⟩ := List.forall_mem_cons.mp hitems
    obtain ⟨u, hu, happ, hframe⟩ := exec_encode_inRange hs hx
    have huopen : u.wState = .opened := by rw [hframe]; exact hs
    have hulb : u.taLb = s.taLb := by rw [hframe]
    rw [← hulb] at hrest
    obtain ⟨t, ht, htopen, hend⟩ := ih huopen hrest
    refine ⟨t, (runAll_cons hu _).trans ht, htopen, .inr ?_⟩
    obtain ⟨rfl, rfl⟩ | happ' := hend
    · rwa [codesOf, List.flatMap_singleton]
    · rw [hulb] at happ'
      exact happ.trans happ'

/-- Then `W_ALIGN` completes the last byte with zeros (R89, R113). -/
theorem runAll_encode_align {items : List (Codec × Word64)} {s : State} (hs : s.wState = .opened) (hcnt : s.wCnt = 0)
    (hitems : ∀ x ∈ items, x.2.toNat ≤ maxValue x.1 s.taLb.toNat) :
    ∃ (t : State) (bytes : List Byte) (p : Nat),
      runAll (items.map (fun x => encodeInstr x.1 x.2) ++ [.wAlign]) s = some t ∧
      t.sink = s.sink ++ bytes.map SinkEvent.byte ∧ p < 8 ∧
      bitsOfBytes bytes = codesOf s.taLb.toNat items ++ zeros p := by
  obtain ⟨t, ht, htopen, hend⟩ := runAll_encode hs hitems
  have hrun : runAll (items.map (fun x => encodeInstr x.1 x.2) ++ [.wAlign]) s =
      some (finish 0 false (padWriter t)) := by
    rw [runAll_append ht, runAll_cons (exec_wAlign_opened htopen), runAll]
  obtain ⟨rfl, rfl⟩ | happ := hend
  · refine ⟨_, [], 0, hrun, ?_, by decide, rfl⟩
    rw [finish_sink, padWriter, if_neg (not_not_intro hcnt), List.map_nil, List.append_nil]
  · obtain ⟨bytes, p, hp, hbytes, hsink⟩ := happ.sink_padWriter
    refine ⟨_, bytes, p, hrun, hsink, hp, ?_⟩
    rw [hbytes, qw_eq_nil.mpr hcnt, List.nil_append]

theorem decodeAll_cons {c : Codec} {l : List Codec} {s t r : State} {vs : List Word64}
    (h : exec (decodeInstr c) s = .next t) (hstatus : t.status = 0) (hl : decodeAll l t = some (vs, r)) :
    decodeAll (c :: l) s = some (t.res :: vs, r) := by
  simp only [decodeAll, h, if_pos hstatus, hl, Option.map_some]

/-- With the code words of a sequence of symbols ahead, the `R_DEC` commands return the symbols and leave what follows
(R112, R113). -/
theorem decodeAll_codes {items : List (Codec × Word64)} {s : State} {rest : Bits} (hs : s.rState = .opened)
    (hitems : ∀ x ∈ items, x.2.toNat ≤ maxValue x.1 s.taLb.toNat)
    (ha : ahead s = codesOf s.taLb.toNat items ++ rest) :
    ∃ t, decodeAll (items.map (·.1)) s = some (items.map (·.2), t) ∧ ahead t = rest := by
  induction items generalizing s with
  | nil => exact ⟨s, rfl, ha⟩
  | cons x items ih =>
    obtain ⟨hx, hrest⟩ := List.forall_mem_cons.mp hitems
    rw [codesOf, List.flatMap_cons, List.append_assoc] at ha
    obtain ⟨u, hu, ⟨hahead, -⟩, hframe⟩ := exec_decode_word hs ⟨hx, codeOf_word hx⟩ ⟨_, ha.symm⟩
    rw [ha, List.drop_left, ← hframe.taLb] at hahead
    rw [← hframe.taLb] at hrest
    obtain ⟨t, ht, htahead⟩ := ih (hframe.rState.trans hs) hrest hahead
    have hres : u.res = x.2 := by rw [hframe.res, BitVec.ofNat_toNat, BitVec.setWidth_eq]
    refine ⟨t, ?_, htahead⟩
    rw [List.map_cons, List.map_cons, decodeAll_cons hu hframe.status ht, hres]

/-- Fewer than 8 bits ahead are all buffered (R35). -/
theorem qr_eq_ahead {s : State} (h : (ahead s).length < 8) : qr s = ahead s := by
  have hlen := ahead_length s
  rw [ahead, List.drop_eq_nil_of_le (by omega), bitsOfBytes_nil, List.append_nil]

/-- Settles O59: the writer sends the code words, padded to whole bytes, and these are what the reader has ahead. -/
theorem symbolSequenceRoundTrip : Obligations.SymbolSequenceRoundTrip := by
  intro items w r _ _ hlb hitems hw hwcnt hr hrcnt
  obtain ⟨w', bytes, p, hrun, hsink, hp, hbytes⟩ := runAll_encode_align hw hwcnt hitems
  refine ⟨w', bytes, hrun, hsink, fun hsrc => ?_⟩
  have hahead : ahead r = codesOf r.taLb.toNat items ++ zeros p := by
    rw [ahead, qr_eq_nil.mpr hrcnt, hsrc, List.nil_append, hbytes, hlb]
  rw [← hlb] at hitems
  obtain ⟨r', hr', hrest⟩ := decodeAll_codes hr hitems hahead
  have hbuffered : qr r' = zeros p := by
    rw [qr_eq_ahead (by rw [hrest, zeros_length]; exact hp), hrest]
  exact ⟨r', p, hr', hp, hrest, hbuffered⟩

end Sys2Proof.Machine

/-! ### Encoding and prediction, codec by codec (`41_codec_common.md` R104, R106) -/

namespace Sys2Proof.Machine

theorem exec_encode_closed (c : Codec) (v : Word64) {s : State} (hs : s.wState = .closed) :
    exec (encodeInstr c v) s = .next (withResponse 6 0 false s) := by
  rw [exec_encodeInstr, encodeFrame, withOpenWriter_closed hs]

/-- The specification of `W_ENC`, of any codec (R104). -/
theorem encoderSpec_encodeInstr {c : Codec} {word : CmdWord} {max : Nat → Nat}
    (hword : word = BitVec.ofNat 16 (4096 * 0x5 + codecNumber c)) (hmax : ∀ lb, maxValue c lb = max lb) :
    EncoderSpec c (encodeInstr c) word max := by
  intro v s
  rw [← hmax]
  refine ⟨decode_of_word (.wEnc c v) hword, exec_encode_closed c v, exec_encode_outOfRange, fun hs hv => ?_⟩
  obtain ⟨t, ht, happ, hframe⟩ := exec_encode_inRange hs hv
  exact ⟨t, _, ht, codeOf_word hv, happ, hframe⟩

/-- The specification of `PREDICT`, of any codec whose `Len_c` satisfies `Len` on the symbols in range (R106). -/
theorem predictSpec_predictInstr {c : Codec} {word : CmdWord} {max : Nat → Nat} {Len : Nat → Nat → Nat → Prop}
    (hword : word = BitVec.ofNat 16 (4096 * 0x6 + codecNumber c)) (hmax : ∀ lb, maxValue c lb = max lb)
    (hlen : ∀ (lb : BitVec 3) (v : Word64), v.toNat ≤ maxValue c lb.toNat →
      Len lb.toNat v.toNat (lenOf c lb.toNat v.toNat) ∧ lenOf c lb.toNat v.toNat ≤ 127) :
    PredictSpec (predictInstr c) word max Len := by
  intro v s
  rw [← hmax]
  refine ⟨decode_of_word (.predict c v) hword, exec_predict_outOfRange, fun hv => ?_⟩
  obtain ⟨hLen, hle⟩ := hlen s.taLb v hv
  exact ⟨_, hLen, hle, exec_predict_inRange hv⟩

end Sys2Proof.Machine

/-! ### VLQ and Inverted-VLQ: code words and lengths (`42_vlq.md` R115 to R119, R122 to R124) -/

namespace Sys2Proof.Machine

/-- Settles O33: both encoders write units of the same groups, and only the flag of the last one differs (R116). -/
theorem wEncVlqAndIvlq : Obligations.WEncVlqAndIvlq :=
  ⟨encoderSpec_encodeInstr (c := .vlq) rfl fun _ => rfl, encoderSpec_encodeInstr (c := .ivlq) rfl fun _ => rfl⟩

/-- `T_k + 1 = Σ_{i<k} 128^i`, the smallest `v + 1` that takes `k` units (R124). -/
def unitThreshold (k : Nat) : Nat := ((List.range k).map (128 ^ ·)).sum

theorem unitThreshold_succ (k : Nat) : unitThreshold (k + 1) = 1 + 128 * unitThreshold k := by
  simp only [unitThreshold, List.range_succ_eq_map, List.map_cons, List.sum_cons, List.map_map, Function.comp_def,
    pow_succ', pow_zero, List.sum_map_mul_left]

/-- The number of groups below 128 is determined by the range their sum lies in (R115, R124). -/
theorem groupSum_bounds {G : List Nat} (hG : ∀ x ∈ G, x < 128) :
    unitThreshold G.length ≤ groupSum G ∧ groupSum G < unitThreshold (G.length + 1) := by
  induction G with
  | nil => exact ⟨le_rfl, Nat.one_pos⟩
  | cons g G ih =>
    obtain ⟨hg, hG⟩ := List.forall_mem_cons.mp hG
    obtain ⟨hlo, hhi⟩ := ih hG
    rw [groupSum, List.length_cons, unitThreshold_succ G.length, unitThreshold_succ (G.length + 1)]
    omega

theorem groups_length_bounds {v : Nat} (h : v ≤ maxOffset) : 1 ≤ (groups v).length ∧ (groups v).length ≤ 10 := by
  have hv := le_maxOffset_iff.mp h
  obtain ⟨hne, -, hsum⟩ := groups_spec (Nat.lt_of_succ_lt hv)
  exact ⟨List.length_pos_of_ne_nil hne, length_le_of_groupSum_le (by omega)⟩

/-- `Len_vlq` is 8 bits for each group, and the groups are counted by the length table (R122, R124). -/
theorem lenVlq_spec {v : Nat} (h : v ≤ maxOffset) : VlqLength v (lenVlq v) ∧ lenVlq v ≤ 127 := by
  obtain ⟨-, hsmall, hsum⟩ := groups_spec (Nat.lt_of_succ_lt (le_maxOffset_iff.mp h))
  obtain ⟨hpos, hle⟩ := groups_length_bounds h
  have hrange := groupSum_bounds hsmall
  rw [← hsum] at hrange
  exact ⟨⟨_, hpos, hle, rfl, hrange⟩, (Nat.mul_le_mul_left 8 hle).trans (by decide)⟩

/-- Settles O40: Inverted-VLQ has the units of VLQ, so its lengths (R123). -/
theorem predictVlqAndIvlqLengths : Obligations.PredictVlqAndIvlqLengths :=
  ⟨predictSpec_predictInstr (c := .vlq) rfl (fun _ => rfl) fun _ _ => lenVlq_spec,
    predictSpec_predictInstr (c := .ivlq) rfl (fun _ => rfl) fun _ _ => lenVlq_spec⟩

end Sys2Proof.Machine

/-! ### Elias Gamma: code words and lengths (`43_elias_gamma.md` R125, R126, R128) -/

namespace Sys2Proof.Machine

/-- Settles O34: what is appended is `GammaBits(v + 1)`, which `codeOf_word` shows to be the code word of `v` (R125). -/
theorem wEncGamma : Obligations.WEncGamma := encoderSpec_encodeInstr (c := .gamma) rfl fun _ => rfl

/-- `Len_gamma(v)` is `2L + 1`, where `v + 1` has `L + 1` bits, and `L + 1` is at most 64 for a symbol in range (R128). -/
theorem lenGamma_spec {v : Nat} (h : v ≤ maxOffset) :
    (∃ L, 2 ^ L ≤ v + 1 ∧ v + 1 < 2 ^ (L + 1) ∧ lenGamma v = 2 * L + 1) ∧ lenGamma v ≤ 127 := by
  obtain ⟨L, hused, hlo, hhi⟩ := exists_bits (x := v + 1) (Nat.succ_pos v)
  have hle : countUsed (v + 1) ≤ 64 := countUsed_le (le_maxOffset_iff.mp h)
  have hlen : lenGamma v = 2 * L + 1 := by
    rw [lenGamma, hused]
    omega
  exact ⟨⟨L, hlo, hhi, hlen⟩, by omega⟩

/-- Settles O41: `2 · CountUsed(v + 1) − 1` is `2L + 1` (R128). -/
theorem predictGammaLength : Obligations.PredictGammaLength :=
  predictSpec_predictInstr (c := .gamma) rfl (fun _ => rfl) fun _ _ => lenGamma_spec

end Sys2Proof.Machine

/-! ### Elias Delta: code words and lengths (`44_elias_delta.md` R129, R130, R132) -/

namespace Sys2Proof.Machine

/-- Settles O35: what is appended is `Code_delta(v)`, which `codeOf_word` shows to be the code word of `v` (R129). -/
theorem wEncDelta : Obligations.WEncDelta := encoderSpec_encodeInstr (c := .delta) rfl fun _ => rfl

/-- `Len_delta` in the terms of R132: the gamma length `2K + 1` of `m + 1`, then the `m` bits of `v + 1` after its
leading 1. -/
theorem lenDelta_eq {v m K : Nat} (hm : countUsed (v + 1) = m + 1) (hK : countUsed (m + 1) = K + 1) :
    lenDelta v = (2 * K + 1) + m := by
  rw [lenDelta, hm, Nat.add_sub_cancel, hK]
  omega

/-- For a symbol in range `v + 1` has at most 64 bits, so their number `m + 1` has at most 7 (R132). -/
theorem lenDelta_spec {v : Nat} (h : v ≤ maxOffset) :
    (∃ m K, 2 ^ m ≤ v + 1 ∧ v + 1 < 2 ^ (m + 1) ∧ 2 ^ K ≤ m + 1 ∧ m + 1 < 2 ^ (K + 1) ∧
      lenDelta v = (2 * K + 1) + m) ∧ lenDelta v ≤ 127 := by
  obtain ⟨m, hm, hmlo, hmhi⟩ := exists_bits (x := v + 1) (Nat.succ_pos v)
  obtain ⟨K, hK, hKlo, hKhi⟩ := exists_bits (x := m + 1) (Nat.succ_pos m)
  have hlen := lenDelta_eq hm hK
  have hused : countUsed (v + 1) ≤ 64 := countUsed_le (le_maxOffset_iff.mp h)
  have hprefix : countUsed (m + 1) ≤ 7 := countUsed_le (by omega)
  exact ⟨⟨m, K, hmlo, hmhi, hKlo, hKhi, hlen⟩, by omega⟩

/-- Settles O42: `2 · CountUsed(n + 1) − 1` is `2K + 1`, and the `n` bits behind the prefix are added (R132). -/
theorem predictDeltaLength : Obligations.PredictDeltaLength :=
  predictSpec_predictInstr (c := .delta) rfl (fun _ => rfl) fun _ _ => lenDelta_spec

end Sys2Proof.Machine

/-! ### Elias Omega: code words and lengths (`45_elias_omega.md` R133, R134, R136) -/

namespace Sys2Proof.Machine

/-- Settles O36: what is appended is `Code_omega(v)`, which `codeOf_word` shows to be the code word of `v` (R133). -/
theorem wEncOmega : Obligations.WEncOmega := encoderSpec_encodeInstr (c := .omega) rfl fun _ => rfl

/-- The group chains of the numbers below `m` have at most `b` bits. -/
def OmegaChainsWithin (m b : Nat) : Prop := ∀ ⦃N : Nat⦄ ⦃C : Bits⦄, OmegaChain N C → N < m → C.length ≤ b

theorem omegaChainsWithin_two : OmegaChainsWithin 2 0 := by
  intro N C h hN
  cases h with
  | one => exact le_rfl
  | group hL hlo =>
    have := Nat.le_self_pow (Nat.one_le_iff_ne_zero.mp hL) 2
    omega

/-- A number below `2^k` has a last group of at most `k` bits, and the groups before it are the chain of a number
below `k`. -/
theorem OmegaChainsWithin.two_pow {m b k : Nat} (h : OmegaChainsWithin m b) (hk : k ≤ m) :
    OmegaChainsWithin (2 ^ k) (b + k) := by
  intro N C hC hN
  cases hC with
  | one => exact Nat.zero_le _
  | group _ hlo _ hS =>
    have hL := (Nat.pow_lt_pow_iff_right (by decide)).mp (hlo.trans_lt hN)
    rw [List.length_append, bin_length]
    exact Nat.add_le_add (h hS (hL.trans_le hk)) hL

/-- The chain of a 64-bit number has at most four groups, of at most 2, 3, 6 and 64 bits. -/
theorem omegaChainsWithin_word : OmegaChainsWithin (2 ^ 64) 75 :=
  omegaChainsWithin_two.two_pow (k := 2) (by decide) |>.two_pow (k := 3) (by decide)
    |>.two_pow (k := 6) (by decide) |>.two_pow (k := 64) (by decide)

/-- `Len_omega(v)` counts what `Code_omega(v)` writes: the chain of `v + 1` and the terminating 0 (R136). -/
theorem lenOmega_spec {v : Nat} (h : v ≤ maxOffset) :
    (∃ P, OmegaChain (v + 1) P ∧ lenOmega v = P.length + 1) ∧ lenOmega v ≤ 127 := by
  have hv := le_maxOffset_iff.mp h
  obtain ⟨P, hP, hcode⟩ := codeOmega_word (Nat.lt_sub_of_add_lt hv)
  have hlen : lenOmega v = P.length + 1 := by
    calc lenOmega v = (codeOmega v).length := (codeOf_length .omega 0 v).symm
      _ = P.length + 1 := by rw [hcode, List.length_append, List.length_singleton]
  have hP75 := omegaChainsWithin_word hP hv
  exact ⟨⟨P, hP, hlen⟩, by omega⟩

/-- Settles O43: the length loop adds up the groups that the encoding loop writes (R136). -/
theorem predictOmegaLength : Obligations.PredictOmegaLength :=
  predictSpec_predictInstr (c := .omega) rfl (fun _ => rfl) fun _ _ => lenOmega_spec

end Sys2Proof.Machine

/-! ### Fibonacci: code words and lengths (`46_fibonacci.md` R137 to R139, R141) -/

namespace Sys2Proof.Machine

/-- Settles O37: what is appended is `Code_fib(v)`, which `codeOf_word` shows to be the code word of `v` (R138). -/
theorem wEncFib : Obligations.WEncFib := encoderSpec_encodeInstr (c := .fib) rfl fun _ => rfl

/-- For a symbol in range the highest term of `v + 1` is in the table `Fib[0] .. Fib[91]`, and `Len_fib(v)` counts one
bit for each entry up to it and the terminating 1 (R138, R141). -/
theorem lenFib_spec {v : Nat} (h : v ≤ maxOffset) :
    (∃ k, Nat.fib (k + 2) ≤ v + 1 ∧ v + 1 < Nat.fib (k + 3) ∧ lenFib v = k + 2) ∧ lenFib v ≤ 127 := by
  obtain ⟨htop, hlo, hhi⟩ := fibTop_spec (Nat.succ_pos v) (le_maxOffset_iff.mp h)
  have hle : lenFib v ≤ 93 := Nat.add_le_add_right (Nat.le_of_lt_succ htop) 2
  exact ⟨⟨fibTop (v + 1), hlo, hhi, rfl⟩, hle.trans (by decide)⟩

/-- Settles O44: the index `PREDICT` finds is that of the highest Fibonacci number at most `v + 1` (R141). -/
theorem predictFibLength : Obligations.PredictFibLength :=
  predictSpec_predictInstr (c := .fib) rfl (fun _ => rfl) fun _ _ => lenFib_spec

end Sys2Proof.Machine

/-! ### Thompson-Alpha: code words and lengths, and the length of Raw (`47_thompson_alpha.md` R142 to R144, R146,
`48_raw.md` R150) -/

namespace Sys2Proof.Machine

/-- Settles O38: what is appended is `Code_ta(v, TA_LB)`, which `codeOf_word` shows to be the code word of `v` because the
length of a symbol in range fits into `TA_LB` bits (R142, R143). -/
theorem wEncTa : Obligations.WEncTa := encoderSpec_encodeInstr (c := .ta) rfl fun _ => rfl

/-- `Len_ta` in the terms of R146: the `lb` bits of the prefix, then the `L` bits of `v + 1` after its leading 1. -/
theorem lenTa_eq {lb v L : Nat} (hL : countUsed (v + 1) = L + 1) : lenTa lb v = lb + L := by
  rw [lenTa, hL, ← Nat.add_assoc, Nat.add_sub_cancel]

/-- Whatever width `TA_LB` holds, the prefix has at most 7 bits, and `v + 1` has at most 64 after its leading 1 (R146). -/
theorem lenTa_spec (lb : BitVec 3) (v : Word64) :
    (∃ L, 2 ^ L ≤ v.toNat + 1 ∧ v.toNat + 1 < 2 ^ (L + 1) ∧ lenTa lb.toNat v.toNat = lb.toNat + L) ∧
      lenTa lb.toNat v.toNat ≤ 127 := by
  obtain ⟨L, hused, hlo, hhi⟩ := exists_bits (x := v.toNat + 1) (Nat.succ_pos _)
  have hlen : lenTa lb.toNat v.toNat = lb.toNat + L := lenTa_eq hused
  have hwidth : lb.toNat < 8 := lb.isLt
  have hle : countUsed (v.toNat + 1) ≤ 65 := countUsed_le ((Nat.succ_le_of_lt v.isLt).trans_lt (by decide))
  exact ⟨⟨L, hlo, hhi, hlen⟩, by omega⟩

/-- No 64-bit value is out of range for Raw, so its prediction is never None (R147, R150). -/
theorem exec_predictRaw (v : Word64) (s : State) : exec (.predictRaw v) s = .next (withResponse 0 64 true s) :=
  exec_predict_inRange (c := .raw) (Nat.le_sub_one_of_lt v.isLt)

/-- Settles O45: `TA_LB + CountUsed(v + 1) − 1` is `TA_LB + L`, and Raw has one length for every symbol (R146, R150). -/
theorem predictTaAndRawLengths : Obligations.PredictTaAndRawLengths :=
  ⟨predictSpec_predictInstr (c := .ta) rfl (fun _ => rfl) fun lb v _ => lenTa_spec lb v,
    fun v s => ⟨decode_of_word (.predict .raw v) rfl, exec_predictRaw v s⟩⟩

end Sys2Proof.Machine

/-! ### How a command ends (`60_exceptions.md` R151, R152, R154, R157; `48_raw.md` R148)

R154 names the checks of a command in their order, R151 the code each of them gives. `Ends` has one constructor for each
code, with the reason for it; `exec_ends` says that every command ends in one of these ways. The statements about
admission, about the codes and about the effect of an error are read off from it. -/

namespace Sys2Proof.Machine

/-! #### What admission and the table of codes say of the codecs' commands -/

theorem admitted_encodeInstr_iff {c : Codec} {v : Word64} {s : State} :
    Admitted s (encodeInstr c v) ↔ s.wState = .opened := by
  cases c <;> rfl

theorem admitted_predictInstr (c : Codec) (v : Word64) (s : State) : Admitted s (predictInstr c v) := by
  cases c <;> exact trivial

theorem admitted_decodeInstr_iff {c : Codec} {s : State} : Admitted s (decodeInstr c) ↔ s.rState = .opened := by
  cases c <;> rfl

theorem possibleCodes_encodeInstr (c : Codec) (v : Word64) :
    possibleCodes (encodeInstr c v) = if c = .raw then [0, 6] else [0, 1, 6] := by
  cases c <;> rfl

theorem possibleCodes_decodeInstr (c : Codec) :
    possibleCodes (decodeInstr c) = if c = .ta ∨ c = .raw then [0, 2, 6] else [0, 2, 3, 6] := by
  cases c <;> rfl

/-! #### The ways a command can end -/

/-- The commands that take bits from the source, and so can find its end (R109, R151). -/
inductive ReadsBits : Instr → Prop where
  | rBits (nb : BitVec 7) : ReadsBits (.rBits nb)
  | rPeek : ReadsBits .rPeek
  | rDec (c : Codec) : ReadsBits (decodeInstr c)

/-- How command `i` can end in `s`: one constructor for each `STATUS` code, in the order of the checks of R154, with the
cause of the code (R151) and what the command leaves of `s` (R152). -/
inductive Ends (i : Instr) (s : State) : State → Prop where
  | illegalCommand (hi : i.wellFormed = false) : Ends i s (withResponse 5 0 false s)
  | illegalState (hs : ¬ Admitted s i) : Ends i s (withResponse 6 0 false s)
  | valueOutOfRange {c : Codec} {v : Word64} (hs : Admitted s i) (hi : i = encodeInstr c v)
      (hv : maxValue c s.taLb.toNat < v.toNat) : Ends i s (withResponse 1 0 false s)
  | configurationInvalid {lb : BitVec 3} (hs : Admitted s i) (hi : i = .cfgTa lb) :
      Ends i s (withResponse 4 0 false s)
  | streamTruncated {u : State} {n : Nat} (hs : Admitted s i) (hi : ReadsBits i) (hr : Reads s u n) :
      Ends i s (raise .streamTruncated u)
  | symbolOverflow {c : Codec} {P : Bits} {u : State} (hs : Admitted s i) (hi : i = decodeInstr c)
      (hP : OverflowPoint c P) (hr : Reads s u P.length) : Ends i s (raise .symbolOverflow u)
  | ok {t : State} (hs : Admitted s i) (ht : t.status = 0) : Ends i s t

theorem ends_encode (c : Codec) (v : Word64) (s : State) :
    ∃ t, exec (encodeInstr c v) s = .next t ∧ Ends (encodeInstr c v) s t := by
  cases hs : s.wState with
  | closed =>
    refine ⟨_, exec_encode_closed c v hs, .illegalState fun hadm => ?_⟩
    cases hs.symm.trans (admitted_encodeInstr_iff.mp hadm)
  | opened =>
    have hadm : Admitted s (encodeInstr c v) := admitted_encodeInstr_iff.mpr hs
    by_cases hv : v.toNat ≤ maxValue c s.taLb.toNat
    · obtain ⟨t, ht, -, hframe⟩ := exec_encode_inRange hs hv
      exact ⟨t, ht, .ok hadm (by rw [hframe])⟩
    · have hv := Nat.lt_of_not_le hv
      exact ⟨_, exec_encode_outOfRange hs hv, .valueOutOfRange hadm rfl hv⟩

theorem ends_predict (c : Codec) (v : Word64) (s : State) :
    ∃ t, exec (predictInstr c v) s = .next t ∧ Ends (predictInstr c v) s t := by
  refine ⟨_, exec_predictInstr c v s, .ok (admitted_predictInstr c v s) ?_⟩
  unfold predictFrame
  split
  · exact finish_status ..
  · exact finish_status ..

/-- `R_DEC` ends as what is ahead says: a code word, a detection point, or neither before the end (R105, R109, R110). -/
theorem ends_decode (c : Codec) (s : State) :
    ∃ t, exec (decodeInstr c) s = .next t ∧ Ends (decodeInstr c) s t := by
  refine ⟨_, exec_decodeInstr c s, ?_⟩
  by_cases hs : s.rState = .opened
  · have hadm : Admitted s (decodeInstr c) := admitted_decodeInstr_iff.mpr hs
    rw [decodeFrame, withOpenReader_open hs, taWidth_eq]
    have hparses := parses_decoderOf c s.taLb.toNat
    obtain ⟨v, S, hS, rest, hrest⟩ | ⟨P, hP, rest, hrest⟩ | ⟨u, hu⟩ := hparses.covers s
    · obtain ⟨u, hu, -⟩ := hparses.returns hS s rest hrest.symm
      rw [hu]
      exact .ok hadm (finish_status ..)
    · obtain ⟨u, hu, hr⟩ := hparses.overflows hP s rest hrest.symm
      rw [hu]
      exact .symbolOverflow hadm rfl hP hr
    · obtain ⟨n, hr⟩ := (readsOnly_decoderOf c s.taLb.toNat s).reads_of_raised hu
      rw [hu]
      exact .streamTruncated hadm (.rDec c) hr
  · rw [decodeFrame, withOpenReader_notOpen hs]
    exact .illegalState (hs ∘ admitted_decodeInstr_iff.mp)

/-- Every command ends in one of the ways of `Ends`. -/
theorem exec_ends (i : Instr) (s : State) : ∃ t, exec i s = .next t ∧ Ends i s t := by
  cases i using instr_byCodec with
  | wOpen own =>
    cases hs : s.wState with
    | closed => exact ⟨_, exec_wOpen_closed own hs, .ok hs rfl⟩
    | opened => exact ⟨_, exec_wOpen_opened own hs, .illegalState (by simp [Admitted, hs])⟩
  | wBits nb v =>
    by_cases hn : legalCount nb
    · cases hs : s.wState with
      | closed => exact ⟨_, exec_wBits_closed hn v hs, .illegalState (by simp [Admitted, hs])⟩
      | opened => exact ⟨_, exec_wBits_opened hn v hs, .ok hs rfl⟩
    · exact ⟨_, exec_wBits_illegal hn v s, .illegalCommand (decide_eq_false hn)⟩
  | wAlign =>
    cases hs : s.wState with
    | closed => exact ⟨_, exec_wAlign_closed hs, .illegalState (by simp [Admitted, hs])⟩
    | opened => exact ⟨_, exec_wAlign_opened hs, .ok hs rfl⟩
  | wClose => exact ⟨_, rfl, .ok trivial rfl⟩
  | wEnc c v => exact ends_encode c v s
  | predict c v => exact ends_predict c v s
  | cfgTa lb =>
    refine ⟨_, rfl, ?_⟩
    split
    · exact raise_plain (e := .configurationInvalid) rfl s ▸ .configurationInvalid trivial rfl
    · exact .ok trivial rfl
  | rOpen own =>
    by_cases hs : s.rState = .closed
    · exact ⟨_, exec_rOpen_closed own hs, .ok hs rfl⟩
    · exact ⟨_, exec_rOpen_notClosed own hs, .illegalState hs⟩
  | rBits nb =>
    by_cases hn : legalCount nb
    · by_cases hs : s.rState = .opened
      · refine ⟨_, exec_rBits_opened hn hs, ?_⟩
        by_cases henough : nb.toNat ≤ (ahead s).length
        · obtain ⟨u, hu, -⟩ := readBits_got henough
          rw [hu]
          exact .ok hs rfl
        · obtain ⟨u, hu, hr⟩ := readBits_raised (Nat.lt_of_not_le henough)
          rw [hu]
          exact .streamTruncated hs (.rBits nb) hr
      · exact ⟨_, exec_rBits_notOpened hn hs, .illegalState hs⟩
    · exact ⟨_, exec_rBits_illegal hn s, .illegalCommand (decide_eq_false hn)⟩
  | rPeek =>
    by_cases hs : s.rState = .opened
    · refine ⟨_, exec_rPeek_opened hs, ?_⟩
      cases hp : peekBit s with
      | got b u => exact .ok hs rfl
      | raised e u =>
        obtain ⟨rfl, rfl⟩ := peekBit_raised hp
        exact .streamTruncated hs .rPeek (.refl u)
    · exact ⟨_, exec_rPeek_notOpened hs, .illegalState hs⟩
  | rAlign =>
    by_cases hs : s.rState = .opened
    · exact ⟨_, exec_rAlign_opened hs, .ok hs rfl⟩
    · exact ⟨_, exec_rAlign_notOpened hs, .illegalState hs⟩
  | rClose => exact ⟨_, rfl, .ok trivial rfl⟩
  | rDec c => exact ends_decode c s

/-- The same for a next state that is given. -/
theorem ends_of_exec_eq {i : Instr} {s t : State} (h : exec i s = .next t) : Ends i s t := by
  obtain ⟨t', ht', hends⟩ := exec_ends i s
  obtain rfl := Host.Outcome.next.inj (h.symm.trans ht')
  exact hends

/-! #### Admission -/

/-- Settles O15: after the check of the word, admission alone decides about IllegalState, and before everything else. -/
theorem admissionDecidesIllegalState : Obligations.AdmissionDecidesIllegalState := by
  intro i s hwf
  constructor
  · intro hnot
    obtain ⟨t, ht, hends⟩ := exec_ends i s
    rw [ht]
    cases hends with
    | illegalCommand hi => rw [hwf] at hi; cases hi
    | illegalState => rfl
    | valueOutOfRange hs | configurationInvalid hs | streamTruncated hs | symbolOverflow hs | ok hs =>
      exact absurd hs hnot
  · intro t hadm h
    cases ends_of_exec_eq h with
    | illegalState hs => exact absurd hadm hs
    | illegalCommand | valueOutOfRange | configurationInvalid =>
      rw [withResponse_status]
      decide
    | streamTruncated | symbolOverflow =>
      rw [raise_status]
      decide
    | ok _ ht =>
      rw [ht]
      decide

/-! #### The codes of each command -/

theorem ok_mem_possibleCodes (i : Instr) : 0 ∈ possibleCodes i := by
  cases i <;> exact List.mem_cons_self

/-- The commands with an admission check are those that R151 gives the code 6. -/
theorem illegalState_mem_possibleCodes {i : Instr} {s : State} (hs : ¬ Admitted s i) : 6 ∈ possibleCodes i := by
  cases i using instr_byCodec with
  | wOpen | wBits | wAlign | rOpen | rBits | rPeek | rAlign => simp [possibleCodes]
  | wClose | cfgTa | rClose => exact absurd trivial hs
  | predict c v => exact absurd (admitted_predictInstr c v s) hs
  | wEnc c v =>
    rw [possibleCodes_encodeInstr]
    split
    · decide
    · decide
  | rDec c =>
    rw [possibleCodes_decodeInstr]
    split
    · decide
    · decide

/-- No 64-bit value is out of range for Raw (R103, R148). -/
theorem ne_raw_of_outOfRange {c : Codec} {lb : Nat} {v : Word64} (hv : maxValue c lb < v.toNat) : c ≠ .raw := by
  rintro rfl
  exact absurd v.isLt (Nat.not_lt.mpr (Nat.le_of_pred_lt hv))

theorem streamTruncated_mem_possibleCodes {i : Instr} (h : ReadsBits i) : 2 ∈ possibleCodes i := by
  cases h with
  | rBits nb => exact List.mem_cons_of_mem _ List.mem_cons_self
  | rPeek => decide
  | rDec c =>
    rw [possibleCodes_decodeInstr]
    split
    · decide
    · decide

/-- Thompson-Alpha and Raw have no detection point (R145, R149). -/
theorem symbolOverflow_mem_possibleCodes {c : Codec} {P : Bits} (hP : OverflowPoint c P) :
    3 ∈ possibleCodes (decodeInstr c) := by
  have hc : ¬ (c = .ta ∨ c = .raw) := by
    rintro (rfl | rfl)
    · exact hP
    · exact hP
  rw [possibleCodes_decodeInstr, if_neg hc]
  decide

/-- Settles O16: the cause that `Ends` gives for a code is one that R151 lists for the command. -/
theorem statusCodesByCommand : Obligations.StatusCodesByCommand := by
  intro i s t hwf _ h
  cases ends_of_exec_eq h with
  | illegalCommand hi => rw [hwf] at hi; cases hi
  | illegalState hs => exact illegalState_mem_possibleCodes hs
  | valueOutOfRange _ hi hv =>
    subst hi
    rw [withResponse_status, possibleCodes_encodeInstr, if_neg (ne_raw_of_outOfRange hv)]
    decide
  | configurationInvalid _ hi =>
    subst hi
    exact List.mem_cons_of_mem _ List.mem_cons_self
  | streamTruncated _ hi =>
    rw [raise_status]
    exact streamTruncated_mem_possibleCodes hi
  | symbolOverflow _ hi hP =>
    subst hi
    rw [raise_status]
    exact symbolOverflow_mem_possibleCodes hP
  | ok _ ht =>
    rw [ht]
    exact ok_mem_possibleCodes i

/-! #### What an error changes -/

/-- Reading pulls no byte beyond the end of the source (R51, R52), wherever `SRC_POS` stands. -/
theorem Reads.pulled_le {s u : State} {n : Nat} (h : Reads s u n) :
    u.srcPos - s.srcPos ≤ s.src.length - s.srcPos := by
  obtain ⟨henough, ⟨-, hpos, -⟩, -⟩ := h
  rw [ahead_length] at henough
  omega

/-- A stream error leaves the bytes pulled up to it pulled and recorded (R59, R152). -/
theorem raise_eq_faultedAfter {e : ErrorKind} (he : e.faultsReader = true) {s u : State} {n : Nat} (hr : Reads s u n) :
    ∃ m, m ≤ s.src.length - s.srcPos ∧ raise e u = faultedAfter (raise e u).status m s := by
  refine ⟨_, hr.pulled_le, ?_⟩
  rw [raise_status]
  exact raise_after_reads he hr

/-- Settles O17: an error found by the checks leaves the state alone, one met in execution comes after some reads. -/
theorem errorEffects : Obligations.ErrorEffects := by
  intro i s t h hstatus
  cases ends_of_exec_eq h with
  | illegalCommand | illegalState | valueOutOfRange | configurationInvalid => exact .inl ⟨by simp, rfl⟩
  | streamTruncated _ _ hr => exact .inr ⟨.inl (raise_status ..), raise_eq_faultedAfter rfl hr⟩
  | symbolOverflow _ _ _ hr => exact .inr ⟨.inr (raise_status ..), raise_eq_faultedAfter rfl hr⟩
  | ok _ ht => exact absurd ht hstatus

/-! #### Recovery of a faulted reader -/

/-- Of the reader's commands only `R_CLOSE` is admitted to a reader that is neither closed nor open (R154). -/
theorem not_admitted_of_faulted {i : Instr} {s : State} (hs : s.rState = .faulted) (hside : sideOf i = .reader)
    (hi : i ≠ .rClose) : ¬ Admitted s i := by
  have hclosed : s.rState ≠ .closed := by rw [hs]; decide
  have hopened : s.rState ≠ .opened := by rw [hs]; decide
  cases i using instr_byCodec with
  | wOpen | wBits | wAlign | wClose | cfgTa => cases hside
  | wEnc c v => rw [sideOf_encodeInstr] at hside; cases hside
  | predict c v => rw [sideOf_predictInstr] at hside; cases hside
  | rOpen => exact hclosed
  | rBits | rPeek | rAlign => exact hopened
  | rClose => exact absurd rfl hi
  | rDec c => exact hopened ∘ admitted_decodeInstr_iff.mp

/-- Settles O31: admission refuses the other commands; the recovery is `R_CLOSE`, then `R_OPEN` on a closed reader. -/
theorem faultedReaderRecovery : Obligations.FaultedReaderRecovery := by
  intro s own hs
  refine ⟨fun i hwf hside hi => (admissionDecidesIllegalState i s hwf).1 (not_admitted_of_faulted hs hside hi), ?_⟩
  obtain ⟨-, -, hclose⟩ := rCloseReleasesAndRecovers 0 s
  refine ⟨_, (runAll_cons (hclose (.inr hs)) _).trans (runAll_cons (exec_rOpen_closed own rfl) _), ?_⟩
  exact ⟨rfl, rfl, rfl, rfl, rfl, rfl, rfl, rfl⟩

/-! #### Raw -/

/-- No 64-bit value is out of range for Raw, so `W_ENC.raw` on an open writer always emits its 64 bits (R148). -/
theorem exec_wEncRaw_opened (v : Word64) {s : State} (hs : s.wState = .opened) :
    exec (.wEncRaw v) s = .next (withResponse 0 0 false (emit (bin 64 v.toNat) s)) := by
  obtain ⟨hframe, -⟩ := encodeFrame_inRange hs (max := maxRaw) (Nat.le_sub_one_of_lt v.isLt) codeRaw
  exact congrArg Host.Outcome.next hframe

/-- A field of 64 bits is the whole of `ARG` (R75). -/
theorem fieldBits_whole (v : Word64) : fieldBits 64#7 v = bin 64 v.toNat :=
  congrArg (bin 64) (Nat.mod_eq_of_lt v.isLt)

/-- Settles O39: both commands emit the same 64 bits. -/
theorem wEncRaw : Obligations.WEncRaw := by
  intro v s
  refine ⟨decode_of_word (.wEnc .raw v) rfl, exec_encode_closed .raw v, fun hs => ?_⟩
  refine ⟨_, exec_wEncRaw_opened v hs, emit_appended _ s, writerFrame_emit _ s, ?_⟩
  rw [exec_wBits_opened (by decide) v hs, fieldBits_whole]

/-! #### The blocks of a platform, and a block with nothing to do -/

/-- A platform's step is the step of the one block, put back in its place (R163). -/
theorem stepBlock_next {p p' : Platform} {k : Fin p.blocks.length} (h : p.stepBlock k = .next p') :
    ∃ t, step p.blocks[k] = .next t ∧ p' = ⟨p.blocks.set k t⟩ := by
  unfold Platform.stepBlock at h
  cases ht : step p.blocks[k] with
  | next t =>
    rw [ht] at h
    exact ⟨t, rfl, (Host.Outcome.next.inj h).symm⟩
  | fault r => cases r
  | refused r =>
    rw [ht] at h
    cases h

/-- Settles O20: replacing one element of the list of blocks leaves its length and the other elements. -/
theorem instancesShareNothing : Obligations.InstancesShareNothing := by
  intro p p' k h
  obtain ⟨t, ht, rfl⟩ := stepBlock_next h
  exact ⟨List.length_set, ⟨t, ht, List.getElem?_set_self k.isLt⟩, fun j hj => List.getElem?_set_ne hj.symm⟩

/-- Settles O9. -/
theorem stepWithoutInputHoldsState : Obligations.StepWithoutInputHoldsState := by
  intro s h
  rw [step_eq, h]

end Sys2Proof.Machine
